-- ==== Sys2Proof/Word.lean ====
section
/-! DEFINITION. The word types of the block: wire bytes, 16-bit wire fields, 32-bit window registers and
10-bit RX event words (spec/00_scope.md §5, spec/30_encoding.md R79). -/

namespace Sys2Proof

/-- A byte of a frame, and an 8-bit register field. -/
abbrev Byte := BitVec 8

/-- A 16-bit value: a big-endian field of a frame (R51), and a 16-bit register field. -/
abbrev Word16 := BitVec 16

/-- A register of the window as the host port carries it, and a command word (R15, R78). -/
abbrev Word32 := BitVec 32

/-- An event word of the RX port (R79). -/
abbrev EventWord := BitVec 10

end Sys2Proof
end

