-- ==== Sys2Proof/Syntax.lean ====
section
/-! DEFINITION. The instructions: one constructor per row of spec/opcode_table.json, in the table's order.
Three kinds of row meet in the table: command words written to CMD (R78), event words of the RX port (R79), and
wire formats, named by the byte at frame offset 7 (R67 to R72).

A wire-format constructor carries the fields of its frame that the format leaves free. Fields that the format
determines are not fields: the Length field is N - 6 (R65, R84), the ProtocolId of a request is 0 (R64), a byte count
is the number of data bytes (R69, R71), a count of a multiple write is the number of values (R69). A response carries
its ProtocolId, since nothing checks it (R116). -/

namespace Sys2Proof

/-- The instructions of CMDSET-1, the RX events and the wire formats. -/
inductive Instr where
  /-- ENC_RC: encode a ReadCoils request (R93). -/
  | encRc
  /-- ENC_RDI: encode a ReadDiscreteInputs request (R94). -/
  | encRdi
  /-- ENC_RHR: encode a ReadHoldingRegisters request (R95). -/
  | encRhr
  /-- ENC_RIR: encode a ReadInputRegisters request (R96). -/
  | encRir
  /-- ENC_WSC: encode a WriteSingleCoil request (R97). -/
  | encWsc
  /-- ENC_WSR: encode a WriteSingleRegister request (R98). -/
  | encWsr
  /-- ENC_WMC: encode a WriteMultipleCoils request (R100). -/
  | encWmc
  /-- ENC_WMR: encode a WriteMultipleRegisters request (R99). -/
  | encWmr
  /-- DECODE: decode the frame held in RX_BUF (R105). -/
  | decode
  /-- RX_ARM: arm the receive assembler for a new frame (R120). -/
  | rxArm
  /-- RX_NONE: no event; its eight low bits are ignored (R79, R125). -/
  | rxNone (ignored : Byte)
  /-- RX_BYTE: one byte of the stream (R122). -/
  | rxByte (data : Byte)
  /-- RX_EOS: end of stream (R123). -/
  | rxEos
  /-- RX_ERR: a transport IOError (R124). -/
  | rxErr
  /-- REQ_READ_COILS: a REQ-A frame with function code 1 (R67, R93). -/
  | reqReadCoils (tid : Word16) (uid : Byte) (addr count : Word16)
  /-- REQ_READ_DISCRETE_INPUTS: a REQ-A frame with function code 2 (R67, R94). -/
  | reqReadDiscreteInputs (tid : Word16) (uid : Byte) (addr count : Word16)
  /-- REQ_READ_HOLDING_REGISTERS: a REQ-A frame with function code 3 (R67, R95). -/
  | reqReadHoldingRegisters (tid : Word16) (uid : Byte) (addr count : Word16)
  /-- REQ_READ_INPUT_REGISTERS: a REQ-A frame with function code 4 (R67, R96). -/
  | reqReadInputRegisters (tid : Word16) (uid : Byte) (addr count : Word16)
  /-- REQ_WRITE_SINGLE_COIL: a REQ-B frame with function code 5 (R68, R97). -/
  | reqWriteSingleCoil (tid : Word16) (uid : Byte) (addr : Word16) (value : Bool)
  /-- REQ_WRITE_SINGLE_REGISTER: a REQ-B frame with function code 6 (R68, R98). -/
  | reqWriteSingleRegister (tid : Word16) (uid : Byte) (addr value : Word16)
  /-- REQ_WRITE_MULTIPLE_COILS: a REQ-C frame with function code 15 (R69, R100). -/
  | reqWriteMultipleCoils (tid : Word16) (uid : Byte) (addr : Word16) (values : List Bool)
  /-- REQ_WRITE_MULTIPLE_REGISTERS: a REQ-C frame with function code 16 (R69, R99). -/
  | reqWriteMultipleRegisters (tid : Word16) (uid : Byte) (addr : Word16) (values : List Word16)
  /-- RSP_EXCEPTION: an RSP-X frame; `fc` is the low seven bits of its function-code byte (R70, R108). -/
  | rspException (tid pid : Word16) (uid : Byte) (fc : BitVec 7) (code : Byte) (rest : List Byte)
  /-- RSP_READ_COILS: an RSP-Y frame with function code 1 (R71, R112). -/
  | rspReadCoils (tid pid : Word16) (uid : Byte) (data : List Byte)
  /-- RSP_READ_DISCRETE_INPUTS: an RSP-Y frame with function code 2 (R71, R112). -/
  | rspReadDiscreteInputs (tid pid : Word16) (uid : Byte) (data : List Byte)
  /-- RSP_READ_HOLDING_REGISTERS: an RSP-Y frame with function code 3 (R71, R113). -/
  | rspReadHoldingRegisters (tid pid : Word16) (uid : Byte) (data : List Byte)
  /-- RSP_READ_INPUT_REGISTERS: an RSP-Y frame with function code 4 (R71, R113). -/
  | rspReadInputRegisters (tid pid : Word16) (uid : Byte) (data : List Byte)
  /-- RSP_WRITE_SINGLE_COIL: an RSP-Z frame with function code 5; `rest` is what follows offset 7 (R72, R111). -/
  | rspWriteSingleCoil (tid pid : Word16) (uid : Byte) (rest : List Byte)
  /-- RSP_WRITE_SINGLE_REGISTER: an RSP-Z frame with function code 6 (R72, R111). -/
  | rspWriteSingleRegister (tid pid : Word16) (uid : Byte) (rest : List Byte)
  /-- RSP_WRITE_MULTIPLE_COILS: an RSP-Z frame with function code 15 (R72, R111). -/
  | rspWriteMultipleCoils (tid pid : Word16) (uid : Byte) (rest : List Byte)
  /-- RSP_WRITE_MULTIPLE_REGISTERS: an RSP-Z frame with function code 16 (R72, R111). -/
  | rspWriteMultipleRegisters (tid pid : Word16) (uid : Byte) (rest : List Byte)
  deriving DecidableEq, Repr

end Sys2Proof
end

