-- ==== Sys2Proof/Config.lean ====
section
/-! DEFINITION. What the implementation fixes: the parameters of spec/00_scope.md §4; and, for the
one open parameter, the base address of the register window, the map between host addresses and offsets, which takes it
as an argument (D2, I9). -/

namespace Sys2Proof.Config

/-- The most elements a read of a bit space may ask for (R2). -/
def maxReadBits : Nat := 2000

/-- The most elements a read of a register space may ask for (R2). -/
def maxReadRegs : Nat := 125

/-- The longest value sequence of WriteMultipleCoils (R2, R104). -/
def maxWriteCoils : Nat := 1968

/-- The longest value sequence of WriteMultipleRegisters (R2, R104). -/
def maxWriteRegs : Nat := 123

/-- The capacity of RX_BUF in bytes (D26): a frame of `6 + Length` bytes above it is refused (R126). -/
def rxCap : Nat := 260

/-- The number of byte offsets of the register window (R49). -/
def windowSize : Nat := 0x2000

@[simp] theorem maxReadBits_eq : maxReadBits = 2000 := rfl
@[simp] theorem maxReadRegs_eq : maxReadRegs = 125 := rfl
@[simp] theorem maxWriteCoils_eq : maxWriteCoils = 1968 := rfl
@[simp] theorem maxWriteRegs_eq : maxWriteRegs = 123 := rfl
@[simp] theorem rxCap_eq : rxCap = 260 := rfl
@[simp] theorem windowSize_eq : windowSize = 0x2000 := rfl

/-- The host address of the register at a byte offset of the window of an instance with this MBT_BASE, which is the
platform's to choose and so an argument (R49, R142, D2; log 5). -/
def busAddress (base offset : Nat) : Nat := base + offset

/-- The window offset of a host address, where the address lies in the window of an instance with this MBT_BASE (R49). -/
def windowOffset (base address : Nat) : Option Nat :=
  if base ≤ address ∧ address < base + windowSize then some (address - base) else none

end Sys2Proof.Config
end

