-- ==== Sys2Proof/WellFormed.lean ====
section
/-! DEFINITION. Which instructions are well formed: a request frame's counts are within the limits of R2, and a
response frame fits RX_BUF (R126). Commands and RX events have no ill-formed operands. -/

namespace Sys2Proof

/-- A count is within `1..max` (R2). -/
def countInRange (max count : Nat) : Bool := decide (1 ≤ count) && decide (count ≤ max)

/-- `n` bytes from a frame's offset `at_` on end within RX_BUF (R126, D26). -/
def fitsRx (at_ n : Nat) : Bool := decide (at_ + n ≤ Config.rxCap)

/-- The instruction is one that the spec's encodings can carry. -/
def Instr.wellFormed : Instr → Bool
  | .encRc | .encRdi | .encRhr | .encRir | .encWsc | .encWsr | .encWmc | .encWmr | .decode | .rxArm => true
  | .rxNone _ | .rxByte _ | .rxEos | .rxErr => true
  | .reqReadCoils _ _ _ count => countInRange Config.maxReadBits count.toNat
  | .reqReadDiscreteInputs _ _ _ count => countInRange Config.maxReadBits count.toNat
  | .reqReadHoldingRegisters _ _ _ count => countInRange Config.maxReadRegs count.toNat
  | .reqReadInputRegisters _ _ _ count => countInRange Config.maxReadRegs count.toNat
  | .reqWriteSingleCoil _ _ _ _ => true
  | .reqWriteSingleRegister _ _ _ _ => true
  | .reqWriteMultipleCoils _ _ _ values => countInRange Config.maxWriteCoils values.length
  | .reqWriteMultipleRegisters _ _ _ values => countInRange Config.maxWriteRegs values.length
  | .rspException _ _ _ _ _ rest => fitsRx 9 rest.length
  | .rspReadCoils _ _ _ data => fitsRx 9 data.length
  | .rspReadDiscreteInputs _ _ _ data => fitsRx 9 data.length
  | .rspReadHoldingRegisters _ _ _ data => fitsRx 9 data.length
  | .rspReadInputRegisters _ _ _ data => fitsRx 9 data.length
  | .rspWriteSingleCoil _ _ _ rest => fitsRx 8 rest.length
  | .rspWriteSingleRegister _ _ _ rest => fitsRx 8 rest.length
  | .rspWriteMultipleCoils _ _ _ rest => fitsRx 8 rest.length
  | .rspWriteMultipleRegisters _ _ _ rest => fitsRx 8 rest.length

end Sys2Proof
end

