-- ==== Sys2Proof/Decode.lean ====
section
/-! DEFINITION. The encodings: the byte and bit helpers of spec/00_scope.md §6, the decoder (total, rejecting by
name), the encoder, and the host's entry `decodeTableWord`. Rules: spec/30_encoding.md. -/

namespace Sys2Proof

/-! ## Byte, bit and sign helpers (spec/00_scope.md §6, spec/30_encoding.md §4) -/

/-- `hi8(v)` is `v[15:8]` (R3). -/
def hi8 (v : Word16) : Byte := v.extractLsb' 8 8

/-- `lo8(v)` is `v[7:0]` (R3). -/
def lo8 (v : Word16) : Byte := v.extractLsb' 0 8

/-- `be16(h, l)` is `h * 256 + l` (R3). -/
def be16 (h l : Byte) : Word16 := h ++ l

/-- The two bytes of a 16-bit field on the wire, high byte first (R3, R51). -/
def beBytes (v : Word16) : List Byte := [hi8 v, lo8 v]

/-- `sint16(v)`: the signed value of a 16-bit pattern (R4). -/
def sint16 (v : Word16) : Int := if v.toNat < 32768 then v.toNat else (v.toNat : Int) - 65536

/-- `u16(x)`: the 16-bit two's-complement pattern of `x` in [-32768, 32767] (R5). -/
def u16 (x : Int) : Word16 := if 0 ≤ x then BitVec.ofNat 16 x.toNat else BitVec.ofNat 16 (x + 65536).toNat

/-- `sext_32(v)`: bits [31:16] all equal `v[15]` (R6). -/
def sext32 (v : Word16) : Word32 := v.signExtend 32

/-- `ceil8(n)`: the number of bytes that hold `n` bits (R7). -/
def ceil8 (n : Nat) : Nat := (n + 7) / 8

/-- `bit(b, k)`: bit position `k` of a packed byte (R8). -/
def bit (b : Byte) (k : Nat) : Bool := b.getLsbD k

/-- The number whose bit `k` is element `k`: the sum of `s[k] * 2^k` (R27, R73). -/
def natOfBits : List Bool → Nat
  | [] => 0
  | b :: bs => b.toNat + 2 * natOfBits bs

/-- Byte `j` of a packed bit sequence: the sum over `k` in 0..7 with `8j + k < n` of `s[8j + k] * 2^k` (R73). -/
def packByte (s : List Bool) (j : Nat) : Byte := BitVec.ofNat 8 (natOfBits ((s.drop (8 * j)).take 8))

/-- `PackBits(s, n)` with `n` the length of `s`: `ceil8(n)` bytes, padded with zero bits (R73). -/
def packBits (s : List Bool) : List Byte := (List.range (ceil8 s.length)).map (packByte s)

/-- Candidate bit `i` of data bytes is `bit(d[i div 8], i mod 8)` (R74). -/
def unpackBit (data : List Byte) (i : Nat) : Bool := bit (data.getD (i / 8) 0) (i % 8)

/-- The first `n` candidate bits, in ascending address order: pad bits past them are discarded (R74). -/
def unpackBits (data : List Byte) (n : Nat) : List Bool := (List.range n).map (unpackBit data)

/-- The 16-bit big-endian values of data bytes, two bytes at a time (R76); a last single byte is no value. -/
def unpackRegs : List Byte → List Word16
  | h :: l :: rest => be16 h l :: unpackRegs rest
  | _ => []

/-- The data bytes of 16-bit values, each high byte first (R75). -/
def packRegs (values : List Word16) : List Byte := values.flatMap beBytes

/-! ## Function codes (R1) -/

/-- BITREAD = {1, 2} (R1). -/
def isBitRead (fc : Byte) : Bool := fc == 1 || fc == 2

/-- REGREAD = {3, 4} (R1). -/
def isRegRead (fc : Byte) : Bool := fc == 3 || fc == 4

/-- WRITE = {5, 6, 15, 16} (R1). -/
def isWrite (fc : Byte) : Bool := fc == 5 || fc == 6 || fc == 15 || fc == 16

/-- FCSET, the eight function codes (R1). -/
def isFunctionCode (fc : Byte) : Bool := isBitRead fc || isRegRead fc || isWrite fc

/-- The four address spaces of the peer (R43). -/
inductive AddressSpace where
  | coils | discreteInputs | holdingRegisters | inputRegisters
  deriving DecidableEq, Repr

/-- The address space a function code names (R43): the block names one and never reaches it. -/
def addressSpace (fc : Byte) : Option AddressSpace :=
  if fc = 1 ∨ fc = 5 ∨ fc = 15 then some .coils
  else if fc = 2 then some .discreteInputs
  else if fc = 3 ∨ fc = 6 ∨ fc = 16 then some .holdingRegisters
  else if fc = 4 then some .inputRegisters
  else none

/-! ## What is decoded, and how it is rejected -/

/-- Something to decode, by the place it stands: a word written to CMD, a word on the RX port, the bytes of a request
frame, the bytes of a response frame. The place is part of the encoding: a request and a response of one function
code carry the same byte at offset 7. -/
inductive Wire where
  | command (w : Word32)
  | event (w : EventWord)
  | request (bytes : List Byte)
  | response (bytes : List Byte)
  deriving DecidableEq, Repr

/-- Why a decoder rejects. -/
inductive DecodeError where
  /-- The command word is not one of the ten legal words (R80). -/
  | illegalCommand
  /-- An RX_EOS or RX_ERR word has DATA not 0 (R79, R125). -/
  | eventDataNotZero
  /-- The frame has fewer bytes than its format needs (R67 to R72). -/
  | frameTooShort
  /-- The frame's byte count is not 6 + Length (R84). -/
  | lengthMismatch
  /-- The byte at offset 7 names no format (R82). -/
  | unknownFunctionCode
  /-- The byte count field is not the number of data bytes (R69, R71). -/
  | byteCountMismatch
  /-- A request's ProtocolId is not 0 (R64). -/
  | protocolIdNotZero
  /-- A request's count is outside its limits (R2). -/
  | countOutOfRange
  /-- A request frame has bytes after its last field (R67, R68). -/
  | trailingBytes
  /-- A single-coil value is neither 0xFF00 nor 0x0000 (R68). -/
  | coilValue
  /-- A pad bit of a packed request is not 0 (R73). -/
  | padBitsNotZero
  deriving DecidableEq, Repr

/-! ## Decoding command words and event words -/

/-- The command an OP value selects (R78). -/
def commandOfOp (op : Byte) : Option Instr :=
  if op = 0x01 then some .encRc
  else if op = 0x02 then some .encRdi
  else if op = 0x03 then some .encRhr
  else if op = 0x04 then some .encRir
  else if op = 0x05 then some .encWsc
  else if op = 0x06 then some .encWsr
  else if op = 0x0F then some .encWmc
  else if op = 0x10 then some .encWmr
  else if op = 0x20 then some .decode
  else if op = 0x21 then some .rxArm
  else none

/-- A command word is legal when bits [31:8] are 0 and OP is one of the ten values (R78, R80). -/
def decodeCommand (w : Word32) : Except DecodeError Instr :=
  if w.extractLsb' 8 24 ≠ 0 then .error .illegalCommand
  else match commandOfOp (w.extractLsb' 0 8) with
    | some i => .ok i
    | none => .error .illegalCommand

/-- An RX event word: KIND = bits [9:8], DATA = bits [7:0] (R79). -/
def decodeEvent (w : EventWord) : Except DecodeError Instr :=
  let kind := w.extractLsb' 8 2
  let data := w.extractLsb' 0 8
  if kind = 0b00 then .ok (.rxNone data)
  else if kind = 0b01 then .ok (.rxByte data)
  else if data ≠ 0 then .error .eventDataNotZero
  else if kind = 0b10 then .ok .rxEos
  else .ok .rxErr

/-! ## Decoding frames -/

/-- A frame cut into its MBAP header, its function-code byte and the bytes from offset 8 on (R63). -/
structure Frame where
  tid : Word16
  pid : Word16
  uid : Byte
  fc : Byte
  body : List Byte
  deriving DecidableEq, Repr

/-- Cut a frame: at least 8 bytes, and N = 6 + Length (R63, R84, R107). -/
def decodeHeader (bytes : List Byte) : Except DecodeError Frame :=
  match bytes with
  | t1 :: t0 :: p1 :: p0 :: l1 :: l0 :: uid :: fc :: body =>
    if bytes.length = 6 + (be16 l1 l0).toNat then
      .ok { tid := be16 t1 t0, pid := be16 p1 p0, uid := uid, fc := fc, body := body }
    else .error .lengthMismatch
  | _ => .error .frameTooShort

/-- The data of an RSP-Y body: the byte count, then that many bytes and no more (R71). -/
def decodeReadData (body : List Byte) : Except DecodeError (List Byte) :=
  match body with
  | bc :: data => if data.length = bc.toNat then .ok data else .error .byteCountMismatch
  | [] => .error .frameTooShort

/-- A response by its function-code byte: bit 7 set is an exception whatever the other bits (R70, R108); else the
byte names the format (R71, R72). -/
def decodeResponseFrame (f : Frame) : Except DecodeError Instr :=
  if f.fc.getLsbD 7 then
    match f.body with
    | code :: rest => .ok (.rspException f.tid f.pid f.uid (f.fc.extractLsb' 0 7) code rest)
    | [] => .error .frameTooShort
  else if f.fc = 1 then (decodeReadData f.body).map (.rspReadCoils f.tid f.pid f.uid)
  else if f.fc = 2 then (decodeReadData f.body).map (.rspReadDiscreteInputs f.tid f.pid f.uid)
  else if f.fc = 3 then (decodeReadData f.body).map (.rspReadHoldingRegisters f.tid f.pid f.uid)
  else if f.fc = 4 then (decodeReadData f.body).map (.rspReadInputRegisters f.tid f.pid f.uid)
  else if f.fc = 5 then .ok (.rspWriteSingleCoil f.tid f.pid f.uid f.body)
  else if f.fc = 6 then .ok (.rspWriteSingleRegister f.tid f.pid f.uid f.body)
  else if f.fc = 15 then .ok (.rspWriteMultipleCoils f.tid f.pid f.uid f.body)
  else if f.fc = 16 then .ok (.rspWriteMultipleRegisters f.tid f.pid f.uid f.body)
  else .error .unknownFunctionCode

/-- The bytes of a response frame (R70 to R72). -/
def decodeResponse (bytes : List Byte) : Except DecodeError Instr :=
  match decodeHeader bytes with
  | .ok f => decodeResponseFrame f
  | .error e => .error e

/-- The count of a REQ-A body, checked against its limit (R67, R2). -/
def decodeReadCount (max : Nat) (count : Word16) (rest : List Byte) : Except DecodeError Word16 :=
  if rest ≠ [] then .error .trailingBytes
  else if countInRange max count.toNat then .ok count
  else .error .countOutOfRange

/-- The value of a single-coil REQ-B body: 0xFF00 or 0x0000 (R68). -/
def decodeCoilValue (value : Word16) (rest : List Byte) : Except DecodeError Bool :=
  if rest ≠ [] then .error .trailingBytes
  else if value = 0xFF00 then .ok true
  else if value = 0x0000 then .ok false
  else .error .coilValue

/-- The value of a single-register REQ-B body (R68). -/
def decodeRegValue (value : Word16) (rest : List Byte) : Except DecodeError Word16 :=
  if rest ≠ [] then .error .trailingBytes else .ok value

/-- The packed bits of a REQ-C body with function code 15 (R69, R73). -/
def decodeCoils (count : Word16) (rest : List Byte) : Except DecodeError (List Bool) :=
  match rest with
  | bc :: data =>
    if countInRange Config.maxWriteCoils count.toNat = false then .error .countOutOfRange
    else if bc.toNat ≠ ceil8 count.toNat ∨ data.length ≠ ceil8 count.toNat then .error .byteCountMismatch
    else if packBits (unpackBits data count.toNat) ≠ data then .error .padBitsNotZero
    else .ok (unpackBits data count.toNat)
  | [] => .error .frameTooShort

/-- The values of a REQ-C body with function code 16 (R69). -/
def decodeRegs (count : Word16) (rest : List Byte) : Except DecodeError (List Word16) :=
  match rest with
  | bc :: data =>
    if countInRange Config.maxWriteRegs count.toNat = false then .error .countOutOfRange
    else if bc.toNat ≠ 2 * count.toNat ∨ data.length ≠ 2 * count.toNat then .error .byteCountMismatch
    else .ok (unpackRegs data)
  | [] => .error .frameTooShort

/-- A request by its function code: the address, then the fields of its format (R67 to R69). -/
def decodeRequestFrame (f : Frame) : Except DecodeError Instr :=
  if f.pid ≠ 0 then .error .protocolIdNotZero
  else match f.body with
  | a1 :: a0 :: v1 :: v0 :: rest =>
    let addr := be16 a1 a0
    let v := be16 v1 v0
    if f.fc = 1 then (decodeReadCount Config.maxReadBits v rest).map (.reqReadCoils f.tid f.uid addr)
    else if f.fc = 2 then (decodeReadCount Config.maxReadBits v rest).map (.reqReadDiscreteInputs f.tid f.uid addr)
    else if f.fc = 3 then (decodeReadCount Config.maxReadRegs v rest).map (.reqReadHoldingRegisters f.tid f.uid addr)
    else if f.fc = 4 then (decodeReadCount Config.maxReadRegs v rest).map (.reqReadInputRegisters f.tid f.uid addr)
    else if f.fc = 5 then (decodeCoilValue v rest).map (.reqWriteSingleCoil f.tid f.uid addr)
    else if f.fc = 6 then (decodeRegValue v rest).map (.reqWriteSingleRegister f.tid f.uid addr)
    else if f.fc = 15 then (decodeCoils v rest).map (.reqWriteMultipleCoils f.tid f.uid addr)
    else if f.fc = 16 then (decodeRegs v rest).map (.reqWriteMultipleRegisters f.tid f.uid addr)
    else .error .unknownFunctionCode
  | _ => .error .frameTooShort

/-- The bytes of a request frame (R67 to R69). The block emits requests and decodes none: this is the encoder's
inverse (log 13). -/
def decodeRequest (bytes : List Byte) : Except DecodeError Instr :=
  match decodeHeader bytes with
  | .ok f => decodeRequestFrame f
  | .error e => .error e

/-- The decoder: total, on every word and every byte sequence. -/
def decode : Wire → Except DecodeError Instr
  | .command w => decodeCommand w
  | .event w => decodeEvent w
  | .request bytes => decodeRequest bytes
  | .response bytes => decodeResponse bytes

/-! ## The encoder -/

/-- `PutMBAP`: TransactionId, ProtocolId and Length big-endian, then the UnitIdentifier (R63, R91). -/
def mbap (tid pid length : Word16) (uid : Byte) : List Byte :=
  beBytes tid ++ beBytes pid ++ beBytes length ++ [uid]

/-- A frame: the MBAP header, the function code, the body. Length counts the unit identifier, the function code and
the body, so N = 6 + Length (R65, R84). -/
def frame (tid pid : Word16) (uid fc : Byte) (body : List Byte) : List Byte :=
  mbap tid pid (BitVec.ofNat 16 (2 + body.length)) uid ++ fc :: body

/-- The REQ-A frame (R67). -/
def readRequest (fc : Byte) (tid : Word16) (uid : Byte) (addr count : Word16) : List Byte :=
  frame tid 0 uid fc (beBytes addr ++ beBytes count)

/-- The REQ-B frame (R68). -/
def singleRequest (fc : Byte) (tid : Word16) (uid : Byte) (addr value : Word16) : List Byte :=
  frame tid 0 uid fc (beBytes addr ++ beBytes value)

/-- The wire form of a boolean: 0xFF00 true, 0x0000 false (R68). -/
def coilWord (value : Bool) : Word16 := if value then 0xFF00 else 0x0000

/-- The REQ-C frame: count, byte count and data (R69). -/
def multipleRequest (fc : Byte) (tid : Word16) (uid : Byte) (addr : Word16) (count : Nat) (data : List Byte) :
    List Byte :=
  frame tid 0 uid fc
    (beBytes addr ++ beBytes (BitVec.ofNat 16 count) ++ BitVec.ofNat 8 data.length :: data)

/-- The RSP-Y frame: byte count and data (R71). -/
def readResponse (fc : Byte) (tid pid : Word16) (uid : Byte) (data : List Byte) : List Byte :=
  frame tid pid uid fc (BitVec.ofNat 8 data.length :: data)

/-- The encoding of an instruction (R67 to R72, R78, R79). -/
def encode : Instr → Wire
  | .encRc => .command 0x00000001
  | .encRdi => .command 0x00000002
  | .encRhr => .command 0x00000003
  | .encRir => .command 0x00000004
  | .encWsc => .command 0x00000005
  | .encWsr => .command 0x00000006
  | .encWmc => .command 0x0000000F
  | .encWmr => .command 0x00000010
  | .decode => .command 0x00000020
  | .rxArm => .command 0x00000021
  | .rxNone ignored => .event (0b00#2 ++ ignored)
  | .rxByte data => .event (0b01#2 ++ data)
  | .rxEos => .event 0x200
  | .rxErr => .event 0x300
  | .reqReadCoils tid uid addr count => .request (readRequest 1 tid uid addr count)
  | .reqReadDiscreteInputs tid uid addr count => .request (readRequest 2 tid uid addr count)
  | .reqReadHoldingRegisters tid uid addr count => .request (readRequest 3 tid uid addr count)
  | .reqReadInputRegisters tid uid addr count => .request (readRequest 4 tid uid addr count)
  | .reqWriteSingleCoil tid uid addr value => .request (singleRequest 5 tid uid addr (coilWord value))
  | .reqWriteSingleRegister tid uid addr value => .request (singleRequest 6 tid uid addr value)
  | .reqWriteMultipleCoils tid uid addr values =>
    .request (multipleRequest 15 tid uid addr values.length (packBits values))
  | .reqWriteMultipleRegisters tid uid addr values =>
    .request (multipleRequest 16 tid uid addr values.length (packRegs values))
  | .rspException tid pid uid fc code rest => .response (frame tid pid uid (1#1 ++ fc) (code :: rest))
  | .rspReadCoils tid pid uid data => .response (readResponse 1 tid pid uid data)
  | .rspReadDiscreteInputs tid pid uid data => .response (readResponse 2 tid pid uid data)
  | .rspReadHoldingRegisters tid pid uid data => .response (readResponse 3 tid pid uid data)
  | .rspReadInputRegisters tid pid uid data => .response (readResponse 4 tid pid uid data)
  | .rspWriteSingleCoil tid pid uid rest => .response (frame tid pid uid 5 rest)
  | .rspWriteSingleRegister tid pid uid rest => .response (frame tid pid uid 6 rest)
  | .rspWriteMultipleCoils tid pid uid rest => .response (frame tid pid uid 15 rest)
  | .rspWriteMultipleRegisters tid pid uid rest => .response (frame tid pid uid 16 rest)

/-! ## The table's words -/

/-- The shortest response frame that carries every field a response row names, with function-code byte `fc` and every
other field 0: nine bytes, Length 3 (log 7). -/
def tableFrame (fc : Byte) : List Byte := frame 0 0 0 fc [0]

/-- The instruction of an opcode-table word (log 7). A row of 32 bits is a command word, a row of 10 bits (two bytes)
an event word, a row of 8 bits the byte at offset 7 of a frame. A request row and a response row of one function code
have the same byte; the decoder the block has is the response decoder, so that is the one that answers. -/
def decodeTableWord (nbits w : Nat) : Option Instr :=
  if nbits ≤ 8 then
    if w < 256 then (decodeResponse (tableFrame (BitVec.ofNat 8 w))).toOption else none
  else if nbits ≤ 16 then
    if w < 1024 then (decodeEvent (BitVec.ofNat 10 w)).toOption else none
  else if w < 4294967296 then (decodeCommand (BitVec.ofNat 32 w)).toOption else none

end Sys2Proof
end

