-- ==== Sys2Proof/Machine/State.lean ====
section
/-! DEFINITION. The state of the block, as spec/10_state.md R45 gives it, grouped by that file's sections; the inputs
the outside world has pending; the reasons a step can stop; the state after reset (R147). -/

namespace Sys2Proof.Machine

/-- An array of exactly `n` cells: a list with its length. Plain data: two arrays are equal when their lists are. -/
structure Cells (α : Type) (n : Nat) where
  toList : List α
  length_eq : toList.length = n
  deriving DecidableEq, Repr

/-- An array whose cells all hold one value. -/
def Cells.fill {α : Type} (n : Nat) (a : α) : Cells α n := ⟨List.replicate n a, List.length_replicate⟩

/-- ENC_STATUS.RESULT (R19); the reserved code 3 is left out (R83). -/
inductive EncResult where
  | none | ok | invalidArgument
  deriving DecidableEq, Repr

/-- RX_STATUS.STATE (R34); the reserved code 7 is left out (R83). -/
inductive RxState where
  | idle | header | body | complete | closed | ioerr | malformed
  deriving DecidableEq, Repr

/-- DEC_OUTCOME (R37); the reserved codes 10 to 15 are left out (R83). -/
inductive DecOutcome where
  | none | bits | registers | writeOk | protocolException | malformedResponse | connectionClosed | ioError
  | invalidArgument | notReady
  deriving DecidableEq, Repr

/-- DEC_EXC.KIND (R39); the reserved codes are left out (R83). -/
inductive ExcKind where
  | none | illegalFunction | illegalDataAddress | illegalDataValue | serverDeviceFailure | unknown
  deriving DecidableEq, Repr

/-- The request operand registers (R20): CFG_UID, REQ_TID, REQ_ADDR, REQ_COUNT, REQ_VALUE, REGV, COILV (R21 to R27). -/
structure Request where
  uid : Byte
  tid : Word16
  addr : Word16
  count : Word16
  value : Word16
  regv : Cells Word16 123
  coilv : Cells Bool 1968
  deriving DecidableEq, Repr

/-- The decode operand registers EXP_FC and EXP_COUNT (R28, R29). -/
structure Expect where
  fc : Byte
  count : Word16
  deriving DecidableEq, Repr

/-- The transmit state: ENC_STATUS.RESULT, TX_LEN, TX_BUF (R19, R31, R32). -/
structure Transmit where
  result : EncResult
  len : Fin 260
  buf : Cells Byte 259
  deriving DecidableEq, Repr

/-- The receive state: RX_STATUS, RX_FILL, RX_BUF (R33 to R35). RX_NEED is computed, not stored (R36). -/
structure Receive where
  state : RxState
  drop : Bool
  fill : Fin 261
  buf : Cells Byte 260
  deriving DecidableEq, Repr

/-- The decode result state: DEC_OUTCOME, DEC_COUNT, DEC_EXC, DEC_BITS, DEC_REGS (R37 to R41). DEC_REGS holds 16 bits,
presented as `sext_32` (R41, R45). -/
structure Result where
  outcome : DecOutcome
  count : Word16
  excCode : Byte
  excKind : ExcKind
  bits : Cells Bool 2000
  regs : Cells Word16 125
  deriving DecidableEq, Repr

/-- One input of the block: what the host, the transport or the reset input does to it (R13, R147). A host access
carries the byte offset from MBT_BASE and its width in bytes; the illegal ones can be written down too, and are
refused (R46). -/
inductive Input where
  /-- `MemRead(offset, width)` by the host (R47). -/
  | read (offset width : Nat)
  /-- `MemWrite(offset, width, v)` by the host (R48). -/
  | write (offset width : Nat) (value : Word32)
  /-- An event word on the RX port (R79). -/
  | event (w : EventWord)
  /-- The block's reset input (R147). -/
  | reset
  deriving DecidableEq, Repr

/-- The state. `cmdIllegal` is CMD_STATUS.ILLEGAL (R18). The last two fields are the model's own: `inputs` holds the
inputs yet to come, oldest first, in the total order of R57 (log 1), and `hostReads` the values the host's reads
returned, oldest first (R162, log 2). -/
structure State where
  cmdIllegal : Bool
  req : Request
  expect : Expect
  tx : Transmit
  rx : Receive
  dec : Result
  inputs : List Input
  hostReads : List Word32
  deriving DecidableEq, Repr

/-- Nothing the block does faults (R131, R145): there is no reason of this kind (log 4). -/
inductive Fault where
  deriving DecidableEq, Repr

/-- Why a step, or the reading of a host program, is refused. -/
inductive Refusal where
  /-- No meaning yet: only an arm of `exec` answers so. Safe. -/
  | notModelled (mnemonic : String)
  /-- A host access that is not an aligned 32-bit access inside the window (R46, R145 (a)). Raised by the host port.
  Safe: a run that makes one has no next state. -/
  | hostAccess (offset width : Nat)
  /-- A host access by host address that is no aligned 32-bit access inside the window of an instance (R46, R145 (a)).
  Raised by the bus of a platform, never by a step. Safe: a run that makes one has no next state. -/
  | busAccess (address width : Nat)
  /-- An RX_EOS or RX_ERR word with DATA not 0 (R125, R145 (b)). Raised by the RX port. Safe: a run in which the
  transport delivers one has no next state. -/
  | eventWord (w : EventWord)
  /-- A host program needs a signed value outside [-32768, 32767] (R145 (c)). Raised where a program is expanded to
  inputs, never by a step. Safe: the program has no run. -/
  | signedValue (x : Int)
  deriving DecidableEq, Repr

/-- The request operand registers after reset (R147). -/
def Request.reset : Request :=
  { uid := 0x00, tid := 0x0000, addr := 0x0000, count := 0x0000, value := 0x0000,
    regv := Cells.fill 123 0x0000, coilv := Cells.fill 1968 false }

/-- The decode operand registers after reset (R147). -/
def Expect.reset : Expect := { fc := 0x00, count := 0x0000 }

/-- The transmit state after reset (R147). -/
def Transmit.reset : Transmit := { result := .none, len := 0, buf := Cells.fill 259 0x00 }

/-- The receive state after reset (R147). -/
def Receive.reset : Receive := { state := .idle, drop := false, fill := 0, buf := Cells.fill 260 0x00 }

/-- The decode result state after reset (R147). -/
def Result.reset : Result :=
  { outcome := .none, count := 0, excCode := 0, excKind := .none,
    bits := Cells.fill 2000 false, regs := Cells.fill 125 0x0000 }

/-- The block right after reset (R147), with no input pending and no read made (log 1, log 2). -/
def State.reset : State :=
  { cmdIllegal := false, req := Request.reset, expect := Expect.reset, tx := Transmit.reset, rx := Receive.reset,
    dec := Result.reset, inputs := [], hostReads := [] }

end Sys2Proof.Machine
end

