-- ==== Sys2Proof/Machine/Flags.lean ====
section
/-! DEFINITION. The status fields: their numeric codes and their register words. The block has no condition codes and
no arithmetic flags (R42); these are its only status bits. -/

namespace Sys2Proof.Machine

/-- The code of ENC_STATUS.RESULT (R19). -/
def EncResult.code : EncResult → BitVec 2
  | .none => 0
  | .ok => 1
  | .invalidArgument => 2

/-- The code of RX_STATUS.STATE (R34). -/
def RxState.code : RxState → BitVec 3
  | .idle => 0
  | .header => 1
  | .body => 2
  | .complete => 3
  | .closed => 4
  | .ioerr => 5
  | .malformed => 6

/-- The code of DEC_OUTCOME (R37). -/
def DecOutcome.code : DecOutcome → BitVec 4
  | .none => 0
  | .bits => 1
  | .registers => 2
  | .writeOk => 3
  | .protocolException => 4
  | .malformedResponse => 5
  | .connectionClosed => 6
  | .ioError => 7
  | .invalidArgument => 8
  | .notReady => 9

/-- The code of DEC_EXC.KIND (R39). -/
def ExcKind.code : ExcKind → BitVec 4
  | .none => 0
  | .illegalFunction => 1
  | .illegalDataAddress => 2
  | .illegalDataValue => 3
  | .serverDeviceFailure => 4
  | .unknown => 15

/-- `Kind(x)`: the class of an exception code byte (R110). -/
def excKindOf (code : Byte) : ExcKind :=
  if code = 1 then .illegalFunction
  else if code = 2 then .illegalDataAddress
  else if code = 3 then .illegalDataValue
  else if code = 4 then .serverDeviceFailure
  else .unknown

/-- The CMD_STATUS register: ILLEGAL at bit 0 (R18). -/
def cmdStatusWord (s : State) : Word32 := (BitVec.ofBool s.cmdIllegal).setWidth 32

/-- The ENC_STATUS register: RESULT at bits [1:0] (R19). -/
def encStatusWord (s : State) : Word32 := s.tx.result.code.setWidth 32

/-- The RX_STATUS register: STATE at bits [2:0], DROP at bit 8 (R34). -/
def rxStatusWord (s : State) : Word32 :=
  s.rx.state.code.setWidth 32 ||| (BitVec.ofBool s.rx.drop).setWidth 32 <<< 8

/-- The DEC_OUTCOME register: OUTCOME at bits [3:0] (R37). -/
def decOutcomeWord (s : State) : Word32 := s.dec.outcome.code.setWidth 32

/-- The DEC_EXC register: CODE at bits [7:0], KIND at bits [11:8] (R39). -/
def decExcWord (s : State) : Word32 := (s.dec.excKind.code ++ s.dec.excCode).setWidth 32

/-- The classes of outcome a caller can tell apart (R134). -/
inductive OutcomeClass where
  | deviceRejected | transportFailure | badInput
  deriving DecidableEq, Repr

/-- The class of a DECODE outcome that is a failure (R134). -/
def DecOutcome.failureClass : DecOutcome → Option OutcomeClass
  | .protocolException => some .deviceRejected
  | .malformedResponse => some .transportFailure
  | .connectionClosed => some .transportFailure
  | .ioError => some .transportFailure
  | .invalidArgument => some .badInput
  | .notReady => some .badInput
  | .none => Option.none
  | .bits => Option.none
  | .registers => Option.none
  | .writeOk => Option.none

/-- The class of an encode result that is a failure (R134). -/
def EncResult.failureClass : EncResult → Option OutcomeClass
  | .invalidArgument => some .badInput
  | .none => Option.none
  | .ok => Option.none

/-- The class of IllegalCommand, which CMD_STATUS.ILLEGAL records (R132, R134). -/
def State.commandFailureClass (s : State) : Option OutcomeClass := if s.cmdIllegal then some .badInput else none

end Sys2Proof.Machine
end

