-- ==== Sys2Proof/Machine/Ops.lean ====
section
/-! DEFINITION. The shared operations: reading and patching arrays, what an encode command writes, what DECODE writes,
and the receive assembler. The block has no exception entry (R131): the operations that record an outcome, `refuse`,
`finish` and `finishException`, stand in its place, and there is no return from one (R139). -/

namespace Sys2Proof.Machine

/-- The answer of a meaning: the block never faults (R145). -/
abbrev Answer := Host.Outcome State Fault Refusal

/-! ## Arrays -/

/-- Read one cell. Every index the spec's rules form is below `n` (R118, R129); past the end the default answers
(log 6). -/
def Cells.get {α : Type} {n : Nat} (v : Cells α n) (d : α) (k : Nat) : α := v.toList.getD k d

/-- Write the cells from index `at_` on; what would fall past the last cell is not written. -/
def Cells.patch {α : Type} {n : Nat} (v : Cells α n) (at_ : Nat) (xs : List α) : Cells α n :=
  ⟨(v.toList.take at_ ++ xs ++ v.toList.drop (at_ + xs.length)).take n, by
    have h := v.length_eq
    simp only [List.length_take, List.length_append, List.length_drop]
    omega⟩

/-- `REGV[i]` (R26). -/
def Request.reg (r : Request) (i : Nat) : Word16 := r.regv.get 0 i

/-- `COILV[i]` (R27); a coil that does not exist reads 0. -/
def Request.coil (r : Request) (i : Nat) : Bool := r.coilv.get false i

/-- `TX[k]` (R31). -/
def Transmit.cell (t : Transmit) (k : Nat) : Byte := t.buf.get 0 k

/-- `RX[k]` (R33). -/
def Receive.cell (r : Receive) (k : Nat) : Byte := r.buf.get 0 k

/-- `DEC_BITS[i]` (R40); a bit that does not exist reads 0. -/
def Result.bit (d : Result) (i : Nat) : Bool := d.bits.get false i

/-- The 16 bits of `DEC_REGS[i]` (R41). -/
def Result.reg (d : Result) (i : Nat) : Word16 := d.regs.get 0 i

/-- The frame to send, TX_BUF[0..TX_LEN-1] (R32). -/
def Transmit.frame (t : Transmit) : List Byte := t.buf.toList.take t.len.val

/-- The bytes received for the current frame, RX_BUF[0..RX_FILL-1] (R35). -/
def Receive.frame (r : Receive) : List Byte := r.buf.toList.take r.fill.val

/-! ## Encode commands (R91, R92, R97 to R100) -/

/-- A legal command word sets CMD_STATUS.ILLEGAL to 0 before its command runs (R81). -/
def beginCommand (s : State) : State := { s with cmdIllegal := false }

/-- `Refuse()`: no frame, RESULT = INVALID_ARGUMENT, nothing else (R91). -/
def refuse (s : State) : State := { s with tx := { s.tx with result := .invalidArgument, len := 0 } }

/-- A successful encode: the frame into TX_BUF from cell 0 on, TX_LEN its length, RESULT = OK, and the expected
function code and count (R30, R91). -/
def emit (bytes : List Byte) (fc : Byte) (count : Word16) (s : State) : State :=
  { s with
    tx := { result := .ok, len := Fin.ofNat 260 bytes.length, buf := s.tx.buf.patch 0 bytes },
    expect := { fc := fc, count := count } }

/-- `EncodeRead(fc, max)` on the operands given (R92). -/
def encodeRead (fc : Byte) (max : Nat) (tid : Word16) (uid : Byte) (addr count : Word16) (s : State) : State :=
  if count.toNat = 0 ∨ max < count.toNat then refuse s
  else emit (readRequest fc tid uid addr count) fc count s

/-- A single write: a REQ-B frame with the wire value given (R97, R98). -/
def encodeSingle (fc : Byte) (tid : Word16) (uid : Byte) (addr value : Word16) (s : State) : State :=
  emit (singleRequest fc tid uid addr value) fc 1 s

/-- A multiple write of `count` values, whose data bytes are `data`: the count is checked before anything is written
(R90, R99, R100). -/
def encodeMultiple (fc : Byte) (max : Nat) (tid : Word16) (uid : Byte) (addr : Word16) (count : Nat)
    (data : List Byte) (s : State) : State :=
  if count = 0 ∨ max < count then refuse s
  else emit (multipleRequest fc tid uid addr count data) fc (BitVec.ofNat 16 count) s

/-! ## DECODE (R105) -/

/-- `Finish(o)`: an outcome without values (R105). -/
def finish (o : DecOutcome) (s : State) : State :=
  { s with dec := { s.dec with outcome := o, count := 0, excCode := 0, excKind := .none } }

/-- `FinishException(x)` (R105, R110). -/
def finishException (code : Byte) (s : State) : State :=
  { s with
    dec := { s.dec with outcome := .protocolException, count := 0, excCode := code, excKind := excKindOf code } }

/-- The values of a bit-space read into DEC_BITS from cell 0 on, then `FinishValues(BITS, c)` (R105, R112). -/
def finishBits (count : Word16) (values : List Bool) (s : State) : State :=
  { s with
    dec := { s.dec with
      outcome := .bits, count := count, excCode := 0, excKind := .none, bits := s.dec.bits.patch 0 values } }

/-- The values of a register-space read into DEC_REGS from cell 0 on, then `FinishValues(REGISTERS, c)` (R105,
R113). -/
def finishRegs (count : Word16) (values : List Word16) (s : State) : State :=
  { s with
    dec := { s.dec with
      outcome := .registers, count := count, excCode := 0, excKind := .none, regs := s.dec.regs.patch 0 values } }

/-- Step 1 of DECODE: EXP_FC is in FCSET, and a read's EXP_COUNT is in its range (R106). -/
def decodeArgsOk (e : Expect) : Bool :=
  if isBitRead e.fc then countInRange Config.maxReadBits e.count.toNat
  else if isRegRead e.fc then countInRange Config.maxReadRegs e.count.toNat
  else isWrite e.fc

/-- What a response of function code `fc` may be decoded as: refused for bad arguments first (R106), then for a
function code that is not the expected one (R109), else `k`. -/
def whenExpected (fc : Byte) (k : State → State) (s : State) : State :=
  if !decodeArgsOk s.expect then finish .invalidArgument s
  else if s.expect.fc ≠ fc then finish .malformedResponse s
  else k s

/-- A bit-space read response with these data bytes (R112). -/
def decodeBitData (data : List Byte) (s : State) : State :=
  let c := s.expect.count.toNat
  if data.length ≠ ceil8 c then finish .malformedResponse s
  else finishBits s.expect.count (unpackBits data c) s

/-- A register-space read response with these data bytes (R113). -/
def decodeRegData (data : List Byte) (s : State) : State :=
  if data.length ≠ 2 * s.expect.count.toNat then finish .malformedResponse s
  else finishRegs s.expect.count (unpackRegs data) s

/-! ## The receive assembler (R119 to R130) -/

/-- The Length field of the frame being received, `be16(RX[4], RX[5])` (R44, R122). -/
def Receive.length (r : Receive) : Nat := (be16 (r.cell 4) (r.cell 5)).toNat

/-- RX_NEED, computed (R36). Subtraction stops at 0 in states no run reaches, and in such states the value can be above
511, past the field of nine bits (log 6). -/
def Receive.need (r : Receive) : Nat :=
  match r.state with
  | .header => 6 - r.fill.val
  | .body => 6 + r.length - r.fill.val
  | .idle => 0
  | .complete => 0
  | .closed => 0
  | .ioerr => 0
  | .malformed => 0

/-- `RX[R[RX_FILL]] <- b; R[RX_FILL] <- R[RX_FILL] + 1` (R122). With RX_BUF full, which no run reaches while bytes are
collected (R129), nothing is stored (log 6). -/
def Receive.store (r : Receive) (b : Byte) : Receive :=
  if h : r.fill.val < 260 then
    { r with buf := r.buf.patch r.fill.val [b], fill := ⟨r.fill.val + 1, by omega⟩ }
  else r

/-- The check of the Length field when the sixth byte has arrived (R122, R126). -/
def Receive.checkLength (r : Receive) : Receive :=
  if r.fill.val = 6 then
    if r.length < 2 ∨ Config.rxCap < 6 + r.length then { r with state := .malformed }
    else { r with state := .body }
  else r

/-- The check for a whole frame after a byte of the body (R122). -/
def Receive.checkWhole (r : Receive) : Receive :=
  if r.fill.val = 6 + r.length then { r with state := .complete } else r

/-- An event that arrives while nothing is collected is dropped (R121, R122). -/
def Receive.dropEvent (r : Receive) : Receive := { r with drop := true }

/-- RX_BYTE (R122). -/
def Receive.takeByte (r : Receive) (b : Byte) : Receive :=
  match r.state with
  | .header => (r.store b).checkLength
  | .body => (r.store b).checkWhole
  | .idle => r.dropEvent
  | .complete => r.dropEvent
  | .closed => r.dropEvent
  | .ioerr => r.dropEvent
  | .malformed => r.dropEvent

/-- An event that ends a reception: STATE becomes `final` in HEADER and BODY; elsewhere the event is dropped
(R123, R124). -/
def Receive.endWith (r : Receive) (final : RxState) : Receive :=
  match r.state with
  | .header => { r with state := final }
  | .body => { r with state := final }
  | .idle => r.dropEvent
  | .complete => r.dropEvent
  | .closed => r.dropEvent
  | .ioerr => r.dropEvent
  | .malformed => r.dropEvent

/-- RX_ARM: HEADER, DROP = 0, FILL = 0; RX_BUF keeps its bytes (R120). -/
def Receive.arm (r : Receive) : Receive := { r with state := .header, drop := false, fill := 0 }

end Sys2Proof.Machine
end

