-- ==== Sys2Proof/Machine/Operands.lean ====
section
/-! DEFINITION. The register window: which register stands at an offset, and how the host reads and writes it
(spec/10_state.md §3, spec/20_memory.md); and the operand sequences of the multiple writes (R26, R27). -/

namespace Sys2Proof.Machine

/-- The registers of the window (spec/10_state.md §3), named as R86 names them, and CMD, which R86 does not name
(log 17). -/
inductive Reg where
  | cmd | cmdStatus | encStatus
  | cfgUid | reqTid | reqAddr | reqCount | reqValue
  | expFc | expCount
  | txLen | rxStatus | rxFill | rxNeed
  | decOutcome | decCount | decExc
  | regv (i : Fin 123)
  | coilvWord (j : Fin 62)
  | txBuf (k : Fin 259)
  | rxBuf (k : Fin 260)
  | decBitsWord (j : Fin 63)
  | decRegs (i : Fin 125)
  deriving DecidableEq, Repr

/-- The access rights of a register: read-only, write-only, read-write (R15). -/
inductive Access where
  | r | w | rw
  deriving DecidableEq, Repr

/-- The byte offset of a register from MBT_BASE (spec/10_state.md §3). -/
def Reg.offset : Reg → Nat
  | .cmd => 0x000
  | .cmdStatus => 0x004
  | .encStatus => 0x008
  | .cfgUid => 0x010
  | .reqTid => 0x014
  | .reqAddr => 0x018
  | .reqCount => 0x01C
  | .reqValue => 0x020
  | .expFc => 0x024
  | .expCount => 0x028
  | .txLen => 0x030
  | .rxStatus => 0x034
  | .rxFill => 0x038
  | .rxNeed => 0x03C
  | .decOutcome => 0x040
  | .decCount => 0x044
  | .decExc => 0x048
  | .regv i => 0x0400 + 4 * i.val
  | .coilvWord j => 0x0600 + 4 * j.val
  | .txBuf k => 0x0800 + 4 * k.val
  | .rxBuf k => 0x1000 + 4 * k.val
  | .decBitsWord j => 0x1800 + 4 * j.val
  | .decRegs i => 0x1C00 + 4 * i.val

/-- The access rights of a register (spec/10_state.md §3). -/
def Reg.access : Reg → Access
  | .cmd => .w
  | .cmdStatus => .r
  | .encStatus => .r
  | .cfgUid => .rw
  | .reqTid => .rw
  | .reqAddr => .rw
  | .reqCount => .rw
  | .reqValue => .rw
  | .expFc => .rw
  | .expCount => .rw
  | .txLen => .r
  | .rxStatus => .r
  | .rxFill => .r
  | .rxNeed => .r
  | .decOutcome => .r
  | .decCount => .r
  | .decExc => .r
  | .regv _ => .rw
  | .coilvWord _ => .rw
  | .txBuf _ => .r
  | .rxBuf _ => .r
  | .decBitsWord _ => .r
  | .decRegs _ => .r

/-- The bits of a register that lie in a field (spec/10_state.md §3); the others read 0 and ignore writes (R15). The
last word of COILV and of DEC_BITS has sixteen bits (R27, R40). -/
def Reg.mask : Reg → Word32
  | .cmd => 0
  | .cmdStatus => 0x1
  | .encStatus => 0x3
  | .cfgUid => 0xFF
  | .reqTid => 0xFFFF
  | .reqAddr => 0xFFFF
  | .reqCount => 0xFFFF
  | .reqValue => 0xFFFF
  | .expFc => 0xFF
  | .expCount => 0xFFFF
  | .txLen => 0x1FF
  | .rxStatus => 0x107
  | .rxFill => 0x1FF
  | .rxNeed => 0x1FF
  | .decOutcome => 0xF
  | .decCount => 0xFFFF
  | .decExc => 0xFFF
  | .regv _ => 0xFFFF
  | .coilvWord j => if j.val = 61 then 0xFFFF else 0xFFFFFFFF
  | .txBuf _ => 0xFF
  | .rxBuf _ => 0xFF
  | .decBitsWord j => if j.val = 62 then 0xFFFF else 0xFFFFFFFF
  | .decRegs _ => 0xFFFFFFFF

/-- The element of an array of `n` registers that starts at `base`, one every four bytes. -/
def arrayIndex (base n offset : Nat) : Option (Fin n) :=
  if h : base ≤ offset ∧ (offset - base) / 4 < n ∧ (offset - base) % 4 = 0 then some ⟨(offset - base) / 4, h.2.1⟩
  else none

/-- The register at an offset below 0x400 (spec/10_state.md §3). -/
def scalarAt (offset : Nat) : Option Reg :=
  if offset = 0x000 then some .cmd
  else if offset = 0x004 then some .cmdStatus
  else if offset = 0x008 then some .encStatus
  else if offset = 0x010 then some .cfgUid
  else if offset = 0x014 then some .reqTid
  else if offset = 0x018 then some .reqAddr
  else if offset = 0x01C then some .reqCount
  else if offset = 0x020 then some .reqValue
  else if offset = 0x024 then some .expFc
  else if offset = 0x028 then some .expCount
  else if offset = 0x030 then some .txLen
  else if offset = 0x034 then some .rxStatus
  else if offset = 0x038 then some .rxFill
  else if offset = 0x03C then some .rxNeed
  else if offset = 0x040 then some .decOutcome
  else if offset = 0x044 then some .decCount
  else if offset = 0x048 then some .decExc
  else none

/-- The register at an offset, where there is one (spec/10_state.md §3, R50). -/
def regAt (offset : Nat) : Option Reg :=
  if offset < 0x0400 then scalarAt offset
  else if offset < 0x0600 then (arrayIndex 0x0400 123 offset).map .regv
  else if offset < 0x0800 then (arrayIndex 0x0600 62 offset).map .coilvWord
  else if offset < 0x1000 then (arrayIndex 0x0800 259 offset).map .txBuf
  else if offset < 0x1800 then (arrayIndex 0x1000 260 offset).map .rxBuf
  else if offset < 0x1C00 then (arrayIndex 0x1800 63 offset).map .decBitsWord
  else (arrayIndex 0x1C00 125 offset).map .decRegs

/-- A register word from 32 bits: element `k` at bit `k` (R27, R40). -/
def wordOfBits (f : Nat → Bool) : Word32 := BitVec.ofNat 32 (natOfBits ((List.range 32).map f))

/-- The bits of a register word, bit 0 first. -/
def bitsOfWord (w : Word32) : List Bool := (List.range 32).map w.getLsbD

/-- The value of a register as the host port assembles it from its fields; CMD reads 0 (R15, R17, R47). RX_NEED reads as
the low nine bits of its formula (R36): in a BODY state that no run reaches the formula can be above 511, which NEED
[8:0] does not hold, and to keep the low bits there is the model's choice (DESIGN CHOICE, log 6). -/
def readReg (r : Reg) (s : State) : Word32 :=
  match r with
  | .cmd => 0
  | .cmdStatus => cmdStatusWord s
  | .encStatus => encStatusWord s
  | .cfgUid => s.req.uid.setWidth 32
  | .reqTid => s.req.tid.setWidth 32
  | .reqAddr => s.req.addr.setWidth 32
  | .reqCount => s.req.count.setWidth 32
  | .reqValue => s.req.value.setWidth 32
  | .expFc => s.expect.fc.setWidth 32
  | .expCount => s.expect.count.setWidth 32
  | .txLen => (BitVec.ofNat 9 s.tx.len.val).setWidth 32
  | .rxStatus => rxStatusWord s
  | .rxFill => (BitVec.ofNat 9 s.rx.fill.val).setWidth 32
  | .rxNeed => (BitVec.ofNat 9 s.rx.need).setWidth 32
  | .decOutcome => decOutcomeWord s
  | .decCount => s.dec.count.setWidth 32
  | .decExc => decExcWord s
  | .regv i => (s.req.reg i.val).setWidth 32
  | .coilvWord j => wordOfBits fun k => s.req.coil (32 * j.val + k)
  | .txBuf k => (s.tx.cell k.val).setWidth 32
  | .rxBuf k => (s.rx.cell k.val).setWidth 32
  | .decBitsWord j => wordOfBits fun k => s.dec.bit (32 * j.val + k)
  | .decRegs i => sext32 (s.dec.reg i.val)

/-- The fields of a request operand register take the written bits; no other register of R20 exists. -/
def Request.write (r : Reg) (v : Word32) (q : Request) : Request :=
  match r with
  | .cfgUid => { q with uid := v.extractLsb' 0 8 }
  | .reqTid => { q with tid := v.extractLsb' 0 16 }
  | .reqAddr => { q with addr := v.extractLsb' 0 16 }
  | .reqCount => { q with count := v.extractLsb' 0 16 }
  | .reqValue => { q with value := v.extractLsb' 0 16 }
  | .regv i => { q with regv := q.regv.patch i.val [v.extractLsb' 0 16] }
  | .coilvWord j => { q with coilv := q.coilv.patch (32 * j.val) (bitsOfWord v) }
  | _ => q

/-- A host write to a read-write register stores the written bits of its field; one to a read-only register is
ignored (R15, R16). A write to CMD runs a command, which the host port does, not this operation (R48). -/
def writeReg (r : Reg) (v : Word32) (s : State) : State :=
  match r with
  | .expFc => { s with expect := { s.expect with fc := v.extractLsb' 0 8 } }
  | .expCount => { s with expect := { s.expect with count := v.extractLsb' 0 16 } }
  | r => { s with req := s.req.write r v }

/-- The value sequence of WriteMultipleRegisters, REGV[0..c-1] (R26). -/
def Request.regValues (q : Request) (c : Nat) : List Word16 := q.regv.toList.take c

/-- The value sequence of WriteMultipleCoils, COILV[0..c-1] (R27). -/
def Request.coilValues (q : Request) (c : Nat) : List Bool := q.coilv.toList.take c

/-- `MemRead(offset, 4)`: an offset that holds no register returns 0 (R15, R47, R50). -/
def readWindow (offset : Nat) (s : State) : Word32 :=
  match regAt offset with
  | some r => readReg r s
  | none => 0

/-- `MemWrite(offset, 4, v)` at an offset other than CMD's: an offset that holds no register ignores it (R15, R48,
R50). -/
def writeWindow (offset : Nat) (v : Word32) (s : State) : State :=
  match regAt offset with
  | some r => writeReg r v s
  | none => s

/-- A host access the port accepts: an aligned 32-bit access inside the window (R46). -/
def accessLegal (offset width : Nat) : Bool :=
  width == 4 && offset % 4 == 0 && decide (offset ≤ 0x1FFC)

end Sys2Proof.Machine
end

