-- ==== Sys2Proof/Machine/Assembler.lean ====
section
/-! DEFINITION. The receive assembler's command and events: RX_ARM, RX_NONE, RX_BYTE, RX_EOS, RX_ERR
(spec/43_receive.md). -/

namespace Sys2Proof.Machine

/-- RX_ARM (R120). -/
def execRxArm (s : State) : Answer :=
  let s := beginCommand s
  .next { s with rx := s.rx.arm }

/-- RX_NONE: no event, no state change (R125). -/
def execRxNone (_ignored : Byte) (s : State) : Answer := .next s

/-- RX_BYTE (R122). -/
def execRxByte (data : Byte) (s : State) : Answer := .next { s with rx := s.rx.takeByte data }

/-- RX_EOS (R123). -/
def execRxEos (s : State) : Answer := .next { s with rx := s.rx.endWith .closed }

/-- RX_ERR (R124). -/
def execRxErr (s : State) : Answer := .next { s with rx := s.rx.endWith .ioerr }

end Sys2Proof.Machine
end

