-- ==== Sys2Proof/Machine/EncodeRead.lean ====
section
/-! DEFINITION. The read-request encoders ENC_RC, ENC_RDI, ENC_RHR, ENC_RIR (spec/40_encode_read.md), and the REQ-A
frames they emit (R67). A REQ row encodes the frame it stands for from the operands the frame carries, as the command
of the same rule does from the operand registers (log 3). -/

namespace Sys2Proof.Machine

/-- ENC_RC: `EncodeRead(0x01, 2000)` (R92, R93). -/
def execEncRc (s : State) : Answer :=
  .next (encodeRead 0x01 Config.maxReadBits s.req.tid s.req.uid s.req.addr s.req.count (beginCommand s))

/-- ENC_RDI: `EncodeRead(0x02, 2000)` (R92, R94). -/
def execEncRdi (s : State) : Answer :=
  .next (encodeRead 0x02 Config.maxReadBits s.req.tid s.req.uid s.req.addr s.req.count (beginCommand s))

/-- ENC_RHR: `EncodeRead(0x03, 125)` (R92, R95). -/
def execEncRhr (s : State) : Answer :=
  .next (encodeRead 0x03 Config.maxReadRegs s.req.tid s.req.uid s.req.addr s.req.count (beginCommand s))

/-- ENC_RIR: `EncodeRead(0x04, 125)` (R92, R96). -/
def execEncRir (s : State) : Answer :=
  .next (encodeRead 0x04 Config.maxReadRegs s.req.tid s.req.uid s.req.addr s.req.count (beginCommand s))

/-- REQ_READ_COILS: the REQ-A frame with function code 1 (R67, R93). -/
def execReqReadCoils (tid : Word16) (uid : Byte) (addr count : Word16) (s : State) : Answer :=
  .next (encodeRead 0x01 Config.maxReadBits tid uid addr count s)

/-- REQ_READ_DISCRETE_INPUTS: the REQ-A frame with function code 2 (R67, R94). -/
def execReqReadDiscreteInputs (tid : Word16) (uid : Byte) (addr count : Word16) (s : State) : Answer :=
  .next (encodeRead 0x02 Config.maxReadBits tid uid addr count s)

/-- REQ_READ_HOLDING_REGISTERS: the REQ-A frame with function code 3 (R67, R95). -/
def execReqReadHoldingRegisters (tid : Word16) (uid : Byte) (addr count : Word16) (s : State) : Answer :=
  .next (encodeRead 0x03 Config.maxReadRegs tid uid addr count s)

/-- REQ_READ_INPUT_REGISTERS: the REQ-A frame with function code 4 (R67, R96). -/
def execReqReadInputRegisters (tid : Word16) (uid : Byte) (addr count : Word16) (s : State) : Answer :=
  .next (encodeRead 0x04 Config.maxReadRegs tid uid addr count s)

end Sys2Proof.Machine
end

