-- ==== Sys2Proof/Machine/EncodeWrite.lean ====
section
/-! DEFINITION. The write-request encoders ENC_WSC, ENC_WSR, ENC_WMR, ENC_WMC (spec/41_encode_write.md), and the REQ-B
and REQ-C frames they emit (R68, R69; log 3). -/

namespace Sys2Proof.Machine

/-- ENC_WSC: REQ_VALUE 0 is false, 1 is true, anything else is refused (R97). -/
def execEncWsc (s : State) : Answer :=
  let s := beginCommand s
  if s.req.value = 0x0000 then .next (encodeSingle 0x05 s.req.tid s.req.uid s.req.addr 0x0000 s)
  else if s.req.value = 0x0001 then .next (encodeSingle 0x05 s.req.tid s.req.uid s.req.addr 0xFF00 s)
  else .next (refuse s)

/-- ENC_WSR: every 16-bit pattern is a legal value (R98). -/
def execEncWsr (s : State) : Answer :=
  .next (encodeSingle 0x06 s.req.tid s.req.uid s.req.addr s.req.value (beginCommand s))

/-- ENC_WMC: the packed bits of COILV[0..c-1] (R100). -/
def execEncWmc (s : State) : Answer :=
  let c := s.req.count.toNat
  .next (encodeMultiple 0x0F Config.maxWriteCoils s.req.tid s.req.uid s.req.addr c
    (packBits (s.req.coilValues c)) (beginCommand s))

/-- ENC_WMR: the big-endian values of REGV[0..c-1] (R99). -/
def execEncWmr (s : State) : Answer :=
  let c := s.req.count.toNat
  .next (encodeMultiple 0x10 Config.maxWriteRegs s.req.tid s.req.uid s.req.addr c
    (packRegs (s.req.regValues c)) (beginCommand s))

/-- REQ_WRITE_SINGLE_COIL: the REQ-B frame with function code 5 (R68, R97). -/
def execReqWriteSingleCoil (tid : Word16) (uid : Byte) (addr : Word16) (value : Bool) (s : State) : Answer :=
  .next (encodeSingle 0x05 tid uid addr (coilWord value) s)

/-- REQ_WRITE_SINGLE_REGISTER: the REQ-B frame with function code 6 (R68, R98). -/
def execReqWriteSingleRegister (tid : Word16) (uid : Byte) (addr value : Word16) (s : State) : Answer :=
  .next (encodeSingle 0x06 tid uid addr value s)

/-- REQ_WRITE_MULTIPLE_COILS: the REQ-C frame with function code 15 (R69, R100). -/
def execReqWriteMultipleCoils (tid : Word16) (uid : Byte) (addr : Word16) (values : List Bool) (s : State) : Answer :=
  .next (encodeMultiple 0x0F Config.maxWriteCoils tid uid addr values.length (packBits values) s)

/-- REQ_WRITE_MULTIPLE_REGISTERS: the REQ-C frame with function code 16 (R69, R99). -/
def execReqWriteMultipleRegisters (tid : Word16) (uid : Byte) (addr : Word16) (values : List Word16) (s : State) :
    Answer :=
  .next (encodeMultiple 0x10 Config.maxWriteRegs tid uid addr values.length (packRegs values) s)

end Sys2Proof.Machine
end

