-- ==== Sys2Proof/Machine/Parser.lean ====
section
/-! DEFINITION. DECODE, the response parser (spec/42_decode.md), and the response rows: what DECODE makes of one whole
frame (log 3). `decodeHeld` follows the pseudocode of R105 on the cells of RX_BUF; the response rows follow R108 to
R113 on the fields of a frame. That the two agree is a statement about the model, not a definition. -/

namespace Sys2Proof.Machine

/-- DECODE steps 2 to 5 on the frame held, with STATE = COMPLETE (R105, R107 to R113). -/
def decodeHeldFrame (s : State) : State :=
  let e := s.expect.fc
  let c := s.expect.count.toNat
  let n := s.rx.fill.val
  if n < 8 ∨ n ≠ 6 + s.rx.length then finish .malformedResponse s
  else
    let f := s.rx.cell 7
    if f.getLsbD 7 then
      if n < 9 then finish .malformedResponse s else finishException (s.rx.cell 8) s
    else if f ≠ e then finish .malformedResponse s
    else if isWrite e then finish .writeOk s
    else if n < 9 then finish .malformedResponse s
    else
      let bc := (s.rx.cell 8).toNat
      if n ≠ 9 + bc then finish .malformedResponse s
      else if isBitRead e then
        if bc ≠ ceil8 c then finish .malformedResponse s
        else finishBits s.expect.count
          ((List.range c).map fun i => bit (s.rx.cell (9 + i / 8)) (i % 8)) s
      else
        if bc ≠ 2 * c then finish .malformedResponse s
        else finishRegs s.expect.count
          ((List.range c).map fun i => be16 (s.rx.cell (9 + 2 * i)) (s.rx.cell (10 + 2 * i))) s

/-- DECODE: the arguments first, then the receive state, then the frame (R105 to R107, R115). -/
def decodeHeld (s : State) : State :=
  if !decodeArgsOk s.expect then finish .invalidArgument s
  else match s.rx.state with
    | .closed => finish .connectionClosed s
    | .ioerr => finish .ioError s
    | .malformed => finish .malformedResponse s
    | .idle => finish .notReady s
    | .header => finish .notReady s
    | .body => finish .notReady s
    | .complete => decodeHeldFrame s

/-- DECODE (R105). -/
def execDecode (s : State) : Answer := .next (decodeHeld (beginCommand s))

/-- RSP_EXCEPTION: an exception response, whatever its low seven bits and whatever EXP_FC is (R108, R110). -/
def execRspException (_tid _pid : Word16) (_uid : Byte) (_fc : BitVec 7) (code : Byte) (_rest : List Byte)
    (s : State) : Answer :=
  .next (if !decodeArgsOk s.expect then finish .invalidArgument s else finishException code s)

/-- RSP_READ_COILS: a bit-space read response with function code 1 (R112). -/
def execRspReadCoils (_tid _pid : Word16) (_uid : Byte) (data : List Byte) (s : State) : Answer :=
  .next (whenExpected 1 (decodeBitData data) s)

/-- RSP_READ_DISCRETE_INPUTS: a bit-space read response with function code 2 (R112). -/
def execRspReadDiscreteInputs (_tid _pid : Word16) (_uid : Byte) (data : List Byte) (s : State) : Answer :=
  .next (whenExpected 2 (decodeBitData data) s)

/-- RSP_READ_HOLDING_REGISTERS: a register-space read response with function code 3 (R113). -/
def execRspReadHoldingRegisters (_tid _pid : Word16) (_uid : Byte) (data : List Byte) (s : State) : Answer :=
  .next (whenExpected 3 (decodeRegData data) s)

/-- RSP_READ_INPUT_REGISTERS: a register-space read response with function code 4 (R113). -/
def execRspReadInputRegisters (_tid _pid : Word16) (_uid : Byte) (data : List Byte) (s : State) : Answer :=
  .next (whenExpected 4 (decodeRegData data) s)

/-- RSP_WRITE_SINGLE_COIL: a write acknowledgement with function code 5 (R111). -/
def execRspWriteSingleCoil (_tid _pid : Word16) (_uid : Byte) (_rest : List Byte) (s : State) : Answer :=
  .next (whenExpected 5 (finish .writeOk) s)

/-- RSP_WRITE_SINGLE_REGISTER: a write acknowledgement with function code 6 (R111). -/
def execRspWriteSingleRegister (_tid _pid : Word16) (_uid : Byte) (_rest : List Byte) (s : State) : Answer :=
  .next (whenExpected 6 (finish .writeOk) s)

/-- RSP_WRITE_MULTIPLE_COILS: a write acknowledgement with function code 15 (R111). -/
def execRspWriteMultipleCoils (_tid _pid : Word16) (_uid : Byte) (_rest : List Byte) (s : State) : Answer :=
  .next (whenExpected 15 (finish .writeOk) s)

/-- RSP_WRITE_MULTIPLE_REGISTERS: a write acknowledgement with function code 16 (R111). -/
def execRspWriteMultipleRegisters (_tid _pid : Word16) (_uid : Byte) (_rest : List Byte) (s : State) : Answer :=
  .next (whenExpected 16 (finish .writeOk) s)

end Sys2Proof.Machine
end

