-- ==== Sys2Proof/Machine/Dispatch.lean ====
section
/-! DEFINITION. The meaning of every instruction: one arm per constructor. -/

namespace Sys2Proof.Machine

def exec (i : Instr) (s : State) : Host.Outcome State Fault Refusal :=
  match i with
  | .encRc => Sys2Proof.Machine.execEncRc s
  | .encRdi => Sys2Proof.Machine.execEncRdi s
  | .encRhr => Sys2Proof.Machine.execEncRhr s
  | .encRir => Sys2Proof.Machine.execEncRir s
  | .encWsc => Sys2Proof.Machine.execEncWsc s
  | .encWsr => Sys2Proof.Machine.execEncWsr s
  | .encWmc => Sys2Proof.Machine.execEncWmc s
  | .encWmr => Sys2Proof.Machine.execEncWmr s
  | .decode => Sys2Proof.Machine.execDecode s
  | .rxArm => Sys2Proof.Machine.execRxArm s
  | .rxNone ignored => Sys2Proof.Machine.execRxNone ignored s
  | .rxByte data => Sys2Proof.Machine.execRxByte data s
  | .rxEos => Sys2Proof.Machine.execRxEos s
  | .rxErr => Sys2Proof.Machine.execRxErr s
  | .reqReadCoils tid uid addr count => Sys2Proof.Machine.execReqReadCoils tid uid addr count s
  | .reqReadDiscreteInputs tid uid addr count => Sys2Proof.Machine.execReqReadDiscreteInputs tid uid addr count s
  | .reqReadHoldingRegisters tid uid addr count => Sys2Proof.Machine.execReqReadHoldingRegisters tid uid addr count s
  | .reqReadInputRegisters tid uid addr count => Sys2Proof.Machine.execReqReadInputRegisters tid uid addr count s
  | .reqWriteSingleCoil tid uid addr value => Sys2Proof.Machine.execReqWriteSingleCoil tid uid addr value s
  | .reqWriteSingleRegister tid uid addr value => Sys2Proof.Machine.execReqWriteSingleRegister tid uid addr value s
  | .reqWriteMultipleCoils tid uid addr values => Sys2Proof.Machine.execReqWriteMultipleCoils tid uid addr values s
  | .reqWriteMultipleRegisters tid uid addr values => Sys2Proof.Machine.execReqWriteMultipleRegisters tid uid addr values s
  | .rspException tid pid uid fc code rest => Sys2Proof.Machine.execRspException tid pid uid fc code rest s
  | .rspReadCoils tid pid uid data => Sys2Proof.Machine.execRspReadCoils tid pid uid data s
  | .rspReadDiscreteInputs tid pid uid data => Sys2Proof.Machine.execRspReadDiscreteInputs tid pid uid data s
  | .rspReadHoldingRegisters tid pid uid data => Sys2Proof.Machine.execRspReadHoldingRegisters tid pid uid data s
  | .rspReadInputRegisters tid pid uid data => Sys2Proof.Machine.execRspReadInputRegisters tid pid uid data s
  | .rspWriteSingleCoil tid pid uid rest => Sys2Proof.Machine.execRspWriteSingleCoil tid pid uid rest s
  | .rspWriteSingleRegister tid pid uid rest => Sys2Proof.Machine.execRspWriteSingleRegister tid pid uid rest s
  | .rspWriteMultipleCoils tid pid uid rest => Sys2Proof.Machine.execRspWriteMultipleCoils tid pid uid rest s
  | .rspWriteMultipleRegisters tid pid uid rest => Sys2Proof.Machine.execRspWriteMultipleRegisters tid pid uid rest s

end Sys2Proof.Machine
end

