-- ==== Sys2Proof/Machine/Ports.lean ====
section
/-! DEFINITION. The ports of the block: what each input does (R13, R46 to R48, R79, R119, R147), and the inputs by
which the host's table words run (log 8). -/

namespace Sys2Proof.Machine

/-- A word written to CMD: a legal word runs its command; an illegal one sets CMD_STATUS.ILLEGAL to 1 and changes
nothing else (R17, R80, R81). -/
def runCommand (w : Word32) (s : State) : Answer :=
  match decodeCommand w with
  | .ok i => exec i s
  | .error _ => .next { s with cmdIllegal := true }

/-- A host write: at offset 0x000 it runs the command word, elsewhere it stores into the register (R46, R48). -/
def hostWrite (offset width : Nat) (v : Word32) (s : State) : Answer :=
  if accessLegal offset width = false then .refused (.hostAccess offset width)
  else if offset = 0x000 then runCommand v s
  else .next (writeWindow offset v s)

/-- A host read: the value goes to the host, and no register changes (R46, R47; log 2). -/
def hostRead (offset width : Nat) (s : State) : Answer :=
  if accessLegal offset width = false then .refused (.hostAccess offset width)
  else .next { s with hostReads := s.hostReads ++ [readWindow offset s] }

/-- A word on the RX port: a legal event word runs its event, an illegal one is refused (R79, R125). -/
def rxPort (w : EventWord) (s : State) : Answer :=
  match decodeEvent w with
  | .ok i => exec i s
  | .error _ => .refused (.eventWord w)

/-- The reset input: every register to its reset value (R147). The inputs yet to come and the values the host has
already read are outside the block and stay (log 9). -/
def resetInput (s : State) : State := { State.reset with inputs := s.inputs, hostReads := s.hostReads }

/-- What one input does (R56). -/
def accept (i : Input) (s : State) : Answer :=
  match i with
  | .read offset width => hostRead offset width s
  | .write offset width v => hostWrite offset width v s
  | .event w => rxPort w s
  | .reset => .next (resetInput s)

/-- The oldest pending input is taken; with none pending the block waits and nothing changes (R148, log 1). -/
def takeInput (s : State) : Answer :=
  match s.inputs with
  | [] => .next s
  | i :: rest => accept i { s with inputs := rest }

/-- The input that writes a command word to CMD. -/
def commandInput (w : Word32) : Input := .write 0x000 4 w

/-- A state in which the very next step decodes the table frame of function-code byte `fc`: the frame is held whole,
the expected values pass DECODE's argument check, and a DECODE command is the next input (log 8). -/
def withResponse (fc : Byte) (s : State) : State :=
  { s with
    rx := { s.rx with state := .complete, fill := 9, buf := s.rx.buf.patch 0 (tableFrame fc) },
    expect := { fc := if isFunctionCode fc then fc else 1, count := 1 },
    inputs := commandInput 0x00000020 :: s.inputs }

/-- The state in which the next step runs an opcode-table word (log 8). -/
def placeTableWord (s : State) (nbits w : Nat) : State :=
  if nbits ≤ 8 then withResponse (BitVec.ofNat 8 w) s
  else if nbits ≤ 16 then { s with inputs := .event (BitVec.ofNat 10 w) :: s.inputs }
  else { s with inputs := commandInput (BitVec.ofNat 32 w) :: s.inputs }

end Sys2Proof.Machine
end

