-- ==== Sys2Proof/Machine/Step.lean ====
section
/-! DEFINITION. One step of the block: it takes its oldest pending input. The block has no program counter and fetches
no instructions (R14, R61); the place where a step finds what to run is the list of pending inputs. -/

namespace Sys2Proof.Machine

/-- One atomic step (R13, R55, R57). -/
def step (s : State) : Host.Outcome State Fault Refusal := takeInput s

/-- The state whose very next step runs an opcode-table word (log 8). -/
def State.withFetchWord (s : State) (nbits w : Nat) : State := placeTableWord s nbits w

end Sys2Proof.Machine
end

