-- ==== Sys2Proof/Machine/Program.lean ====
section
/-! DEFINITION. Host programs (spec/30_encoding.md R86, R87): a program is a list of statements that expands to the
inputs of a run. Loading one is how a program comes to run from reset (log 8). -/

namespace Sys2Proof.Machine

/-- The statements of R86, with the pseudo-statements of R87. `CMD` carries the OP of its mnemonic (R78). The operands of
SETREQ and EXPECT are values of WR, which are 32 bits (R86); the register's field takes its own bits of them (R15).
DESIGN CHOICE (log 17): R86 does not name CMD as a register of WR and RD, and gives CMD a mnemonic; here WR and RD take
CMD too, and CMD takes any OP byte, so that a program can also write an illegal command word. -/
inductive Stmt where
  | wr (r : Reg) (value : Word32)
  | rd (r : Reg)
  | cmd (op : Byte)
  | rxb (bytes : List Byte)
  | rxeos
  | rxerr
  | setreq (tid addr count : Word32)
  | setregs (values : List Int)
  | setcoils (values : List Bool)
  | expect (fc count : Word32)
  deriving DecidableEq, Repr

/-- `MemWrite(offset(reg), 4, value)` (R86). -/
def writeTo (r : Reg) (v : Word32) : Input := .write r.offset 4 v

/-- The event word of one RX_BYTE, 0x100 + byte (R86). -/
def byteEvent (b : Byte) : Input := .event (0b01#2 ++ b)

/-- The offset of `REGV[i]` (R26); past the last register the same formula goes on (log 11). -/
def regvOffset (i : Nat) : Nat := 0x0400 + 4 * i

/-- The offset of `COILV.W[j]` (R27); past the last word the same formula goes on (log 11). -/
def coilvOffset (j : Nat) : Nat := 0x0600 + 4 * j

/-- `WR REGV[i], u16(vi)` from index `i` on (R87); a value outside [-32768, 32767] is refused (R145). -/
def setRegsFrom (i : Nat) : List Int → Except Refusal (List Input)
  | [] => .ok []
  | v :: vs =>
    if v < -32768 ∨ 32767 < v then .error (.signedValue v)
    else (setRegsFrom (i + 1) vs).map (.write (regvOffset i) 4 ((u16 v).setWidth 32) :: ·)

/-- The word `w_j` of SETCOILS: `s(32j + k)` at bit `k`, and 0 past the end of the sequence (R87). -/
def coilsWord (values : List Bool) (j : Nat) : Word32 := wordOfBits fun k => values.getD (32 * j + k) false

/-- `WR COILV.W[j], w_j` for the words that hold the sequence (R87). -/
def setCoils (values : List Bool) : List Input :=
  (List.range ((values.length + 31) / 32)).map fun j => .write (coilvOffset j) 4 (coilsWord values j)

/-- The inputs a statement stands for (R86, R87). -/
def Stmt.expand : Stmt → Except Refusal (List Input)
  | .wr r v => .ok [writeTo r v]
  | .rd r => .ok [.read r.offset 4]
  | .cmd op => .ok [commandInput (op.setWidth 32)]
  | .rxb bytes => .ok (bytes.map byteEvent)
  | .rxeos => .ok [.event 0x200]
  | .rxerr => .ok [.event 0x300]
  | .setreq tid addr count => .ok [writeTo .reqTid tid, writeTo .reqAddr addr, writeTo .reqCount count]
  | .setregs values =>
    (setRegsFrom 0 values).map (· ++ [writeTo .reqCount (BitVec.ofNat 32 values.length)])
  | .setcoils values => .ok (setCoils values ++ [writeTo .reqCount (BitVec.ofNat 32 values.length)])
  | .expect fc count => .ok [writeTo .expFc fc, writeTo .expCount count]

/-- The inputs of a program, in the order listed (R86). -/
def expandProgram : List Stmt → Except Refusal (List Input)
  | [] => .ok []
  | st :: rest =>
    match st.expand with
    | .error e => .error e
    | .ok inputs => (expandProgram rest).map (inputs ++ ·)

/-- A state with a program's inputs pending, after those already pending (log 8). -/
def State.load (s : State) (program : List Stmt) : Except Refusal State :=
  (expandProgram program).map fun inputs => { s with inputs := s.inputs ++ inputs }

/-- The inputs of one transaction, in the order of R151: the operands, the encode command, RX_ARM, the bytes the
transport delivers, DECODE. -/
def transaction (operands : List Input) (op : Byte) (response : List Byte) : List Input :=
  operands ++ [commandInput (op.setWidth 32), commandInput 0x00000021] ++ response.map byteEvent
    ++ [commandInput 0x00000020]

end Sys2Proof.Machine
end

