-- ==== Sys2Proof/Safety.lean ====
section
/-! DEFINITION. The terms claims are stated in: the invariants of the block, which inputs have a run, the transport's
duty, and what an encode command, a DECODE or an RX event writes and leaves alone. -/

namespace Sys2Proof.Machine

/-! ## Invariants -/

/-- The receive assembler's invariant, state by state (R129). -/
def Receive.Inv (r : Receive) : Prop :=
  match r.state with
  | .idle => r.fill.val = 0
  | .header => r.fill.val ≤ 5
  | .body => 6 ≤ r.fill.val ∧ r.fill.val < 6 + r.length ∧ 2 ≤ r.length ∧ r.length ≤ 254
  | .complete => r.fill.val = 6 + r.length ∧ 8 ≤ r.fill.val ∧ r.fill.val ≤ 260
  | .malformed => r.fill.val = 6
  | .closed => 6 ≤ r.fill.val → r.fill.val < 6 + r.length
  | .ioerr => 6 ≤ r.fill.val → r.fill.val < 6 + r.length

/-- The transmit state's invariant: there is a frame exactly when the last encode command succeeded, and the frame has
a legal length (R32), ProtocolId 0 (R64), a Length field that counts what follows it (R65), and a function code of
FCSET (R82). -/
structure Transmit.Inv (t : Transmit) : Prop where
  ok_iff : t.result = .ok ↔ t.len.val ≠ 0
  shortest : t.len.val ≠ 0 → 12 ≤ t.len.val
  protocol : t.len.val ≠ 0 → t.cell 2 = 0 ∧ t.cell 3 = 0
  length : t.len.val ≠ 0 → (be16 (t.cell 4) (t.cell 5)).toNat = t.len.val - 6
  functionCode : t.len.val ≠ 0 → isFunctionCode (t.cell 7) = true

/-- The decode results' invariant: values exist only after a successful read, within the read limits (R38), and an
exception class only after an exception response, with the class of its code (R39, R110). -/
structure Result.Inv (d : Result) : Prop where
  bits : d.outcome = .bits → 1 ≤ d.count.toNat ∧ d.count.toNat ≤ 2000
  regs : d.outcome = .registers → 1 ≤ d.count.toNat ∧ d.count.toNat ≤ 125
  noValues : d.outcome ≠ .bits → d.outcome ≠ .registers → d.count = 0
  exception : d.outcome = .protocolException → d.excKind = excKindOf d.excCode
  noException : d.outcome ≠ .protocolException → d.excCode = 0 ∧ d.excKind = .none

/-- The invariant of the block. -/
structure State.Inv (s : State) : Prop where
  tx : s.tx.Inv
  rx : s.rx.Inv
  dec : s.dec.Inv

/-! ## Inputs -/

/-- The RX event words that are legal (R79). -/
def eventLegal (w : EventWord) : Bool :=
  w.extractLsb' 8 2 == 0b00 || w.extractLsb' 8 2 == 0b01 || w.extractLsb' 0 8 == 0

/-- The inputs that have a run; a model refuses the others (R145). -/
def Input.legal : Input → Bool
  | .read offset width => accessLegal offset width
  | .write offset width _ => accessLegal offset width
  | .event w => eventLegal w
  | .reset => true

/-- The transport's duty as far as one state shows it: a byte is delivered only while RX_NEED asks for one
(R127, R157). -/
def Input.dutiful (s : State) : Input → Bool
  | .event w => w.extractLsb' 8 2 != 0b01 || decide (0 < s.rx.need)
  | .read _ _ => true
  | .write _ _ _ => true
  | .reset => true

/-- A command write of this command word is an input of the block. -/
def Input.isCommand (w : Word32) : Input → Prop
  | .write offset width v => offset = 0 ∧ width = 4 ∧ v = w
  | .read _ _ => False
  | .event _ => False
  | .reset => False

/-- A write of one of the eight encode command words to CMD (R78). -/
def Input.isEncode (i : Input) : Prop :=
  i.isCommand 1 ∨ i.isCommand 2 ∨ i.isCommand 3 ∨ i.isCommand 4 ∨ i.isCommand 5 ∨ i.isCommand 6
    ∨ i.isCommand 15 ∨ i.isCommand 16

/-- A write of the DECODE command word to CMD (R105). -/
def Input.isDecode (i : Input) : Prop := i.isCommand 0x20

/-- A write of the RX_ARM command word to CMD (R120). -/
def Input.isArm (i : Input) : Prop := i.isCommand 0x21

/-- A state some run from reset reaches, whatever the inputs. -/
def Reachable (t : State) : Prop :=
  ∃ inputs n, Host.Core.run core n { State.reset with inputs := inputs } = .next t

/-! ## What an operation writes and leaves alone -/

/-- A successful encode: the frame is in TX_BUF from cell 0 on, with its length, RESULT = OK, and the expected
function code and count; every other register is as before (R30, R31, R91). -/
structure Emitted (bytes : List Byte) (fc : Byte) (count : Word16) (s t : State) : Prop where
  result : t.tx.result = .ok
  len : t.tx.len.val = bytes.length
  sent : ∀ k, k < bytes.length → t.tx.cell k = bytes.getD k 0
  stale : ∀ k, bytes.length ≤ k → t.tx.cell k = s.tx.cell k
  expectFc : t.expect.fc = fc
  expectCount : t.expect.count = count
  req : t.req = s.req
  rx : t.rx = s.rx
  dec : t.dec = s.dec
  inputs : t.inputs = s.inputs
  hostReads : t.hostReads = s.hostReads

/-- A refused encode: no frame, RESULT = INVALID_ARGUMENT, and every other register as before, TX_BUF and the expected
values among them (R91, R138). -/
structure Refused (s t : State) : Prop where
  result : t.tx.result = .invalidArgument
  len : t.tx.len.val = 0
  stale : ∀ k, t.tx.cell k = s.tx.cell k
  expect : t.expect = s.expect
  req : t.req = s.req
  rx : t.rx = s.rx
  dec : t.dec = s.dec
  inputs : t.inputs = s.inputs
  hostReads : t.hostReads = s.hostReads

/-- Nothing but DEC_* differs, CMD_STATUS.ILLEGAL apart (R105). -/
structure DecodeOnly (s t : State) : Prop where
  req : t.req = s.req
  expect : t.expect = s.expect
  tx : t.tx = s.tx
  rx : t.rx = s.rx
  inputs : t.inputs = s.inputs
  hostReads : t.hostReads = s.hostReads

/-- A DECODE outcome without values: the outcome and exception registers as given, DEC_COUNT = 0, DEC_BITS and
DEC_REGS as before (R105, R114, R138). -/
structure Finished (o : DecOutcome) (code : Byte) (kind : ExcKind) (s t : State) : Prop where
  outcome : t.dec.outcome = o
  count : t.dec.count = 0
  excCode : t.dec.excCode = code
  excKind : t.dec.excKind = kind
  bits : ∀ i, t.dec.bit i = s.dec.bit i
  regs : ∀ i, t.dec.reg i = s.dec.reg i
  rest : DecodeOnly s t

/-- A DECODE with outcome BITS and `c` values: DEC_BITS[0..c-1] hold them, and the cells from `c` on and DEC_REGS are as
before (R112, R114). -/
structure DecodedBits (count : Word16) (value : Nat → Bool) (s t : State) : Prop where
  outcome : t.dec.outcome = .bits
  count_eq : t.dec.count = count
  excCode : t.dec.excCode = 0
  excKind : t.dec.excKind = .none
  values : ∀ i, i < count.toNat → t.dec.bit i = value i
  stale : ∀ i, count.toNat ≤ i → t.dec.bit i = s.dec.bit i
  regs : ∀ i, t.dec.reg i = s.dec.reg i
  rest : DecodeOnly s t

/-- A DECODE with outcome REGISTERS and `c` values: DEC_REGS[0..c-1] hold them, and the cells from `c` on and DEC_BITS
are as before (R113, R114). -/
structure DecodedRegs (count : Word16) (value : Nat → Word16) (s t : State) : Prop where
  outcome : t.dec.outcome = .registers
  count_eq : t.dec.count = count
  excCode : t.dec.excCode = 0
  excKind : t.dec.excKind = .none
  values : ∀ i, i < count.toNat → t.dec.reg i = value i
  stale : ∀ i, count.toNat ≤ i → t.dec.reg i = s.dec.reg i
  bits : ∀ i, t.dec.bit i = s.dec.bit i
  rest : DecodeOnly s t

/-- Nothing but the receive state differs (R122 to R124). -/
structure ReceiveOnly (s t : State) : Prop where
  cmdIllegal : t.cmdIllegal = s.cmdIllegal
  req : t.req = s.req
  expect : t.expect = s.expect
  tx : t.tx = s.tx
  dec : t.dec = s.dec
  inputs : t.inputs = s.inputs
  hostReads : t.hostReads = s.hostReads

end Sys2Proof.Machine
end

