-- ==== Sys2Proof/Certificates/Slice0/Obligations.lean ====
section
/-! DEFINITION. The statements about the model, for the provers. Each docstring names the rule of spec/ it formalises
or, where it rests on a choice of the model, the log entry. -/

open Sys2Proof Sys2Proof.Machine

/-! ## Reset and invariants -/

/-- R147: after the reset input every register of the window reads 0, which is every reset value of the table (the
codes of IDLE, NONE and so on are 0); so it is in `State.reset`; and no command restores a request register, so there
is no software reset. -/
def Obligations.ResetInputRestoresEveryRegister : Prop :=
  (∀ (s : State) (rest : List Input), s.inputs = .reset :: rest →
    ∃ t, step s = .next t ∧ ∀ r : Reg, readReg r t = 0) ∧
  (∀ r : Reg, readReg r State.reset = 0) ∧
  (∀ (w : Word32) (s : State), ∃ t, runCommand w s = .next t ∧ t.req = s.req)

/-- The state after reset meets the block's invariant. -/
def Obligations.ResetStateMeetsTheInvariant : Prop := State.reset.Inv

/-- R129: every step keeps the receive assembler's invariant; no transition enters IDLE but reset; and where a byte is
stored, the index is below 260. -/
def Obligations.StepKeepsReceiveInvariant : Prop :=
  ∀ s t : State, s.rx.Inv → step s = .next t →
    t.rx.Inv ∧
    (t.rx.state = .idle → s.rx.state = .idle ∨ s.inputs.head? = some .reset) ∧
    (s.rx.state = .header ∨ s.rx.state = .body → s.rx.fill.val < 260)

/-- Every step from a state that meets the block's invariant (receive, transmit and decode results) answers a state
that meets it. -/
def Obligations.StepKeepsTheInvariant : Prop :=
  ∀ s t : State, s.Inv → step s = .next t → t.Inv

/-- Every state that some sequence of inputs reaches from reset meets the invariant, whatever the inputs (R57). -/
def Obligations.ReachableStatesMeetTheInvariant : Prop :=
  ∀ t : State, Reachable t → t.Inv

/-! ## Encodings -/

/-- Decoding what a well-formed instruction encodes to gives it back, with every operand. -/
def Obligations.DecodeOfEncodeIsTheInstruction : Prop :=
  ∀ i : Instr, i.wellFormed = true → decode (encode i) = .ok i

/-- Each word and each frame has one meaning: what decodes to an instruction is that instruction's encoding, and the
instruction is well formed (for a response, where the frame fits RX_BUF). For a request frame this is the model's choice
(log 13): the block decodes no requests, and the model's request decoder takes only frames that an encode command emits,
with counts, byte counts and pad bits checked. -/
def Obligations.EncodeOfDecodeIsTheWord : Prop :=
  ∀ (w : Wire) (i : Instr), decode w = .ok i →
    encode i = w ∧ ((∀ bytes, w = .response bytes → bytes.length ≤ 260) → i.wellFormed = true)

/-- Words and frames written out from the spec's encodings decode to the instructions they stand for (R67 to R72, R78,
R79). -/
def Obligations.SpecWordsDecode : Prop :=
  decode (.command 0x00000010) = .ok .encWmr ∧
  decode (.command 0x00000020) = .ok .decode ∧
  decode (.event 0b0110001101) = .ok (.rxByte 0x8D) ∧
  decode (.event 0b1000000000) = .ok .rxEos ∧
  decode (.request [0x12, 0x34, 0x00, 0x00, 0x00, 0x06, 0x11, 0x01, 0x00, 0x13, 0x00, 0x13])
    = .ok (.reqReadCoils 0x1234 0x11 0x0013 0x0013) ∧
  decode (.request [0x00, 0x02, 0x00, 0x00, 0x00, 0x06, 0x01, 0x05, 0x00, 0x05, 0xFF, 0x00])
    = .ok (.reqWriteSingleCoil 0x0002 0x01 0x0005 true) ∧
  decode (.response [0x00, 0x01, 0x00, 0x00, 0x00, 0x03, 0x01, 0x83, 0x02])
    = .ok (.rspException 0x0001 0x0000 0x01 0x03 0x02 []) ∧
  decode (.response [0x00, 0x07, 0x00, 0x00, 0x00, 0x05, 0x01, 0x01, 0x02, 0x8D, 0x01])
    = .ok (.rspReadCoils 0x0007 0x0000 0x01 [0x8D, 0x01])

/-- R78, R80: a command word is legal exactly when bits [31:8] are 0 and OP is one of the ten values, and OP selects
the command. -/
def Obligations.CommandWordsAreExactlyTheTen : Prop :=
  ∀ (w : Word32) (i : Instr), decodeCommand w = .ok i ↔
    w.extractLsb' 8 24 = 0 ∧
    (w.extractLsb' 0 8, i) ∈
      [((0x01 : Byte), Instr.encRc), (0x02, .encRdi), (0x03, .encRhr), (0x04, .encRir), (0x05, .encWsc),
        (0x06, .encWsr), (0x0F, .encWmc), (0x10, .encWmr), (0x20, .decode), (0x21, .rxArm)]

/-- R79, R125: the event words by KIND and DATA; an event word of KIND 0 changes nothing; an RX_EOS or RX_ERR word with
DATA not 0 is refused. -/
def Obligations.EventWordsByKindAndData : Prop :=
  (∀ b : Byte, decodeEvent (0b00#2 ++ b) = .ok (.rxNone b) ∧ decodeEvent (0b01#2 ++ b) = .ok (.rxByte b)) ∧
  decodeEvent 0x200 = .ok .rxEos ∧ decodeEvent 0x300 = .ok .rxErr ∧
  (∀ (b : Byte) (s : State), exec (.rxNone b) s = .next s) ∧
  (∀ (b : Byte) (s : State), rxPort (0b00#2 ++ b) s = .next s) ∧
  (∀ (b : Byte) (s : State), b ≠ 0 →
    rxPort (0b10#2 ++ b) s = .refused (.eventWord (0b10#2 ++ b)) ∧
    rxPort (0b11#2 ++ b) s = .refused (.eventWord (0b11#2 ++ b)))

/-- The register summary (spec/10_state.md §3): the offset, the access rights and the field bits of every register. And the
map is one to one: every register stands at its offset, inside the window and aligned, and no other offset is a
register's. -/
def Obligations.RegisterMapIsOneToOne : Prop :=
  (∀ r : Reg, regAt r.offset = some r ∧ accessLegal r.offset 4 = true) ∧
  (∀ (offset : Nat) (r : Reg), accessLegal offset 4 = true → regAt offset = some r → r.offset = offset) ∧
  (Reg.cmd.offset = 0x000 ∧ Reg.cmd.access = .w) ∧
  (∀ (r : Reg) (offset : Nat) (access : Access) (fields : Word32), (r, offset, access, fields) ∈
      [(Reg.cmdStatus, 0x004, Access.r, (0x1 : Word32)), (.encStatus, 0x008, .r, 0x3), (.cfgUid, 0x010, .rw, 0xFF),
        (.reqTid, 0x014, .rw, 0xFFFF), (.reqAddr, 0x018, .rw, 0xFFFF), (.reqCount, 0x01C, .rw, 0xFFFF),
        (.reqValue, 0x020, .rw, 0xFFFF), (.expFc, 0x024, .rw, 0xFF), (.expCount, 0x028, .rw, 0xFFFF),
        (.txLen, 0x030, .r, 0x1FF), (.rxStatus, 0x034, .r, 0x107), (.rxFill, 0x038, .r, 0x1FF),
        (.rxNeed, 0x03C, .r, 0x1FF), (.decOutcome, 0x040, .r, 0xF), (.decCount, 0x044, .r, 0xFFFF),
        (.decExc, 0x048, .r, 0xFFF)] →
    r.offset = offset ∧ r.access = access ∧ r.mask = fields) ∧
  (∀ i, (Reg.regv i).offset = 0x0400 + 4 * i.val ∧ (Reg.regv i).access = .rw ∧ (Reg.regv i).mask = 0xFFFF) ∧
  (∀ j, (Reg.coilvWord j).offset = 0x0600 + 4 * j.val ∧ (Reg.coilvWord j).access = .rw ∧
    ∀ k, k < 32 → ((Reg.coilvWord j).mask.getLsbD k = true ↔ 32 * j.val + k < 1968)) ∧
  (∀ k, (Reg.txBuf k).offset = 0x0800 + 4 * k.val ∧ (Reg.txBuf k).access = .r ∧ (Reg.txBuf k).mask = 0xFF) ∧
  (∀ k, (Reg.rxBuf k).offset = 0x1000 + 4 * k.val ∧ (Reg.rxBuf k).access = .r ∧ (Reg.rxBuf k).mask = 0xFF) ∧
  (∀ j, (Reg.decBitsWord j).offset = 0x1800 + 4 * j.val ∧ (Reg.decBitsWord j).access = .r ∧
    ∀ k, k < 32 → ((Reg.decBitsWord j).mask.getLsbD k = true ↔ 32 * j.val + k < 2000)) ∧
  (∀ i, (Reg.decRegs i).offset = 0x1C00 + 4 * i.val ∧ (Reg.decRegs i).access = .r ∧ (Reg.decRegs i).mask = 0xFFFFFFFF)

/-! ## Values -/

/-- R4, R5: `sint16` and `u16` are inverse on [-32768, 32767]; and, of R6, `sext_32` read as a signed integer is
`sint16`: bits [15:0] are the value and bits [31:16] all equal bit 15. -/
def Obligations.SignedValuesWrapAndExtend : Prop :=
  (∀ v : Word16, -32768 ≤ sint16 v ∧ sint16 v ≤ 32767 ∧
    (v.toNat < 32768 → sint16 v = v.toNat) ∧ (32768 ≤ v.toNat → sint16 v = v.toNat - 65536)) ∧
  (∀ x : Int, -32768 ≤ x → x ≤ 32767 →
    (0 ≤ x → ((u16 x).toNat : Int) = x) ∧ (x < 0 → ((u16 x).toNat : Int) = x + 65536) ∧ sint16 (u16 x) = x) ∧
  (∀ v : Word16, (sext32 v).toInt = sint16 v ∧ (sext32 v).extractLsb' 0 16 = v ∧
    ∀ k, 16 ≤ k → k < 32 → (sext32 v).getLsbD k = v.getLsbD 15)

/-- R73, R74: bit `k` of packed byte `j` is element `8j + k` of the sequence and 0 past its end, the byte being the sum
of its bits' powers of two; a candidate bit of data bytes is `bit(d[i div 8], i mod 8)`; and unpacking what was packed,
truncated to the count, gives the sequence back. -/
def Obligations.PackedBitsAreLeastSignificantFirst : Prop :=
  (∀ s : List Bool, (packBits s).length = ceil8 s.length ∧
    ∀ j, j < ceil8 s.length →
      ((packBits s).getD j 0).toNat =
        ((List.range 8).map fun k => if s.getD (8 * j + k) false then 2 ^ k else 0).sum) ∧
  (∀ (d : List Byte) (n i : Nat), i < n → n ≤ 8 * d.length →
    ((unpackBits d n).getD i false = true ↔ (d.getD (i / 8) 0).toNat / 2 ^ (i % 8) % 2 = 1)) ∧
  (∀ (d : List Byte) (n : Nat), (unpackBits d n).length = n) ∧
  (∀ s : List Bool, unpackBits (packBits s) s.length = s)

/-! ## The step and the ports -/

/-- A step runs the decoded instruction: the oldest pending input is taken, and a command word or an event word that
decodes to an instruction runs exactly that instruction; with no input pending, the block waits (R17, R55, R119,
R148; the list of inputs is the model's own, log 1). -/
def Obligations.StepRunsTheDecodedInstruction : Prop :=
  (∀ (s : State) (rest : List Input) (w : Word32) (i : Instr),
    s.inputs = .write 0 4 w :: rest → decodeCommand w = .ok i → step s = exec i { s with inputs := rest }) ∧
  (∀ (s : State) (rest : List Input) (w : EventWord) (i : Instr),
    s.inputs = .event w :: rest → decodeEvent w = .ok i → step s = exec i { s with inputs := rest }) ∧
  (∀ s : State, s.inputs = [] → step s = .next s)

/-- No command and no RX event traps, halts or blocks (R131): every instruction, the rows of the wire formats among
them (log 3), answers a next state from every state. -/
def Obligations.EveryInstructionCompletes : Prop :=
  ∀ (i : Instr) (s : State), ∃ t, exec i s = .next t

/-- Every legal host access and every legal RX event has a next state; (a) a host access that is not an aligned
32-bit access inside the window and (b) an RX_EOS or RX_ERR word with DATA not 0 are refused; and (c) a host program
whose SETREGS needs a signed value outside [-32768, 32767] has no inputs to run (R145; that REQ_VALUE cannot hold such
a value either is its type). -/
def Obligations.LegalInputsRunAndTheOthersAreRefused : Prop :=
  (∀ (s : State) (i : Input) (rest : List Input), s.inputs = i :: rest →
    (i.legal = true → ∃ t, step s = .next t) ∧ (i.legal = false → ∃ r, step s = .refused r)) ∧
  (∀ values : List Int, (∃ v ∈ values, v < -32768 ∨ 32767 < v) → ∃ e, (Stmt.setregs values).expand = .error e)

/-- R46: a host access of another width, at an unaligned offset or outside the window is refused; an aligned 32-bit
access inside the window is accepted. -/
def Obligations.HostPortAcceptsAlignedWordsOnly : Prop :=
  ∀ (s : State) (offset width : Nat) (v : Word32) (i : Input) (rest : List Input),
    i = .read offset width ∨ i = .write offset width v → s.inputs = i :: rest →
    ((width = 4 ∧ offset % 4 = 0 ∧ offset ≤ 0x1FFC) → ∃ t, step s = .next t) ∧
    (¬(width = 4 ∧ offset % 4 = 0 ∧ offset ≤ 0x1FFC) → step s = .refused (.hostAccess offset width))

/-- A legal host read answers the register at its offset and changes no state of the block (R47); that the value is
kept in `hostReads` is the model's choice (log 2). -/
def Obligations.HostReadChangesNothing : Prop :=
  ∀ (s : State) (offset : Nat) (rest : List Input),
    offset % 4 = 0 → offset ≤ 0x1FFC → s.inputs = .read offset 4 :: rest →
    step s = .next { s with inputs := rest, hostReads := s.hostReads ++ [readWindow offset s] } ∧
    (∀ r : Reg, r.offset = offset → readWindow offset s = readReg r s)

/-- The value the host reads at each offset of the map, by the fields' bit positions and the fields' codes
(spec/10_state.md §3 to §9, R19, R34, R37, R39); RX_NEED, which is computed, where the receive assembler's invariant
holds (R36). -/
def Obligations.RegistersReadAsTheirFields : Prop :=
  ∀ s : State,
    readWindow 0x000 s = 0 ∧
    (readWindow 0x004 s).toNat = s.cmdIllegal.toNat ∧
    (s.tx.result, (readWindow 0x008 s).toNat) ∈ [(EncResult.none, 0), (.ok, 1), (.invalidArgument, 2)] ∧
    (readWindow 0x010 s).toNat = s.req.uid.toNat ∧
    (readWindow 0x014 s).toNat = s.req.tid.toNat ∧
    (readWindow 0x018 s).toNat = s.req.addr.toNat ∧
    (readWindow 0x01C s).toNat = s.req.count.toNat ∧
    (readWindow 0x020 s).toNat = s.req.value.toNat ∧
    (readWindow 0x024 s).toNat = s.expect.fc.toNat ∧
    (readWindow 0x028 s).toNat = s.expect.count.toNat ∧
    (readWindow 0x030 s).toNat = s.tx.len.val ∧
    (s.rx.state, (readWindow 0x034 s).toNat % 256) ∈ [(RxState.idle, 0), (.header, 1), (.body, 2), (.complete, 3),
      (.closed, 4), (.ioerr, 5), (.malformed, 6)] ∧
    (readWindow 0x034 s).toNat / 256 = s.rx.drop.toNat ∧
    (readWindow 0x038 s).toNat = s.rx.fill.val ∧
    (s.rx.Inv → (readWindow 0x03C s).toNat = match s.rx.state with
      | .header => 6 - s.rx.fill.val
      | .body => 6 + (be16 (s.rx.cell 4) (s.rx.cell 5)).toNat - s.rx.fill.val
      | .idle | .complete | .closed | .ioerr | .malformed => 0) ∧
    (s.dec.outcome, (readWindow 0x040 s).toNat) ∈ [(DecOutcome.none, 0), (.bits, 1), (.registers, 2), (.writeOk, 3),
      (.protocolException, 4), (.malformedResponse, 5), (.connectionClosed, 6), (.ioError, 7), (.invalidArgument, 8),
      (.notReady, 9)] ∧
    (readWindow 0x044 s).toNat = s.dec.count.toNat ∧
    (readWindow 0x048 s).toNat % 256 = s.dec.excCode.toNat ∧
    (s.dec.excKind, (readWindow 0x048 s).toNat / 256) ∈ [(ExcKind.none, 0), (.illegalFunction, 1),
      (.illegalDataAddress, 2), (.illegalDataValue, 3), (.serverDeviceFailure, 4), (.unknown, 15)] ∧
    (∀ i, i < 123 → (readWindow (0x0400 + 4 * i) s).toNat = (s.req.reg i).toNat) ∧
    (∀ j k, j < 62 → k < 32 → (readWindow (0x0600 + 4 * j) s).getLsbD k = s.req.coil (32 * j + k)) ∧
    (∀ k, k < 259 → (readWindow (0x0800 + 4 * k) s).toNat = (s.tx.cell k).toNat) ∧
    (∀ k, k < 260 → (readWindow (0x1000 + 4 * k) s).toNat = (s.rx.cell k).toNat) ∧
    (∀ j k, j < 63 → k < 32 → (readWindow (0x1800 + 4 * j) s).getLsbD k = s.dec.bit (32 * j + k)) ∧
    (∀ i, i < 125 → (readWindow (0x1C00 + 4 * i) s).toInt = sint16 (s.dec.reg i))

/-- R16: a host write to a read-write register stores the written bits of its field and changes nothing else; it starts
no operation. -/
def Obligations.HostWriteStoresItsFieldAlone : Prop :=
  ∀ (s : State) (r : Reg) (v : Word32) (rest : List Input),
    r.access = .rw → s.inputs = .write r.offset 4 v :: rest →
    ∃ t, step s = .next t ∧ readReg r t = v &&& r.mask ∧ (∀ q : Reg, q ≠ r → readReg q t = readReg q s) ∧
      t.cmdIllegal = s.cmdIllegal ∧ t.tx = s.tx ∧ t.rx = s.rx ∧ t.dec = s.dec ∧
      t.inputs = rest ∧ t.hostReads = s.hostReads

/-- R15: bits outside every field read 0 and ignore writes; a write to a read-only register is ignored; a read of a
write-only register returns 0; an offset that holds no register reads 0 and ignores writes. -/
def Obligations.WindowDefaults : Prop :=
  (∀ (r : Reg) (s : State), readReg r s &&& ~~~r.mask = 0) ∧
  (∀ (r : Reg) (v : Word32) (s : State), writeReg r v s = writeReg r (v &&& r.mask) s) ∧
  (∀ (s : State) (r : Reg) (v : Word32) (rest : List Input), r.access = .r →
    s.inputs = .write r.offset 4 v :: rest → step s = .next { s with inputs := rest }) ∧
  (∀ (r : Reg) (s : State), r.access = .w → readReg r s = 0) ∧
  (∀ (s : State) (offset : Nat) (v : Word32) (rest : List Input), regAt offset = none → offset % 4 = 0 →
    offset ≤ 0x1FFC →
    readWindow offset s = 0 ∧ (s.inputs = .write offset 4 v :: rest → step s = .next { s with inputs := rest }))

/-- R50: the offsets of the window that hold no register; they read 0 and ignore writes. -/
def Obligations.WindowHoles : Prop :=
  ∀ offset : Nat, offset % 4 = 0 → offset ≤ 0x1FFC →
    (regAt offset = none ↔
      offset = 0x00C ∨ offset = 0x02C ∨ (0x04C ≤ offset ∧ offset ≤ 0x03FC) ∨ (0x05EC ≤ offset ∧ offset ≤ 0x05FC) ∨
      (0x06F8 ≤ offset ∧ offset ≤ 0x07FC) ∨ (0x0C0C ≤ offset ∧ offset ≤ 0x0FFC) ∨
      (0x1410 ≤ offset ∧ offset ≤ 0x17FC) ∨ (0x18FC ≤ offset ∧ offset ≤ 0x1BFC) ∨
      (0x1DF4 ≤ offset ∧ offset ≤ 0x1FFC)) ∧
    (regAt offset = none → ∀ (s : State) (v : Word32) (rest : List Input),
      readWindow offset s = 0 ∧
      (s.inputs = .write offset 4 v :: rest → step s = .next { s with inputs := rest }))

/-- R48: a host write stores into the fields of a read-write register, runs the command word at offset 0x000, and is
ignored at any other offset. -/
def Obligations.HostWriteByOffset : Prop :=
  ∀ (s : State) (offset : Nat) (v : Word32) (rest : List Input),
    offset % 4 = 0 → offset ≤ 0x1FFC → s.inputs = .write offset 4 v :: rest →
    (offset = 0x000 → step s = runCommand v { s with inputs := rest }) ∧
    (∀ r : Reg, r.offset = offset → r.access = .rw →
      ∃ t, step s = .next t ∧ readReg r t = v &&& r.mask ∧ ∀ q : Reg, q ≠ r → readReg q t = readReg q s) ∧
    (offset ≠ 0x000 → (∀ r : Reg, r.offset = offset → r.access ≠ .rw) → step s = .next { s with inputs := rest })

/-- R81: an illegal command word sets CMD_STATUS.ILLEGAL to 1 and changes nothing else, and is no trap; a legal one
runs with CMD_STATUS.ILLEGAL at 0. -/
def Obligations.IllegalCommandOnlySetsItsFlag : Prop :=
  ∀ (s : State) (w : Word32) (rest : List Input), s.inputs = .write 0 4 w :: rest →
    ((∀ i, decodeCommand w ≠ .ok i) → step s = .next { s with inputs := rest, cmdIllegal := true }) ∧
    (∀ i, decodeCommand w = .ok i →
      (∃ t, step s = .next t ∧ t.cmdIllegal = false) ∧ step s = exec i { s with inputs := rest, cmdIllegal := false })

/-- R18: every write to CMD writes ILLEGAL (1 when the word is not a legal command, 0 when it is), at bit 0 of
CMD_STATUS; no other event writes it; its reset value is 0. -/
def Obligations.IllegalFlagIsWrittenByEveryCommand : Prop :=
  (∀ (s t : State) (i : Input) (rest : List Input), s.inputs = i :: rest → step s = .next t →
    (∀ w, i = .write 0 4 w → (t.cmdIllegal = true ↔ ∀ j, decodeCommand w ≠ .ok j)) ∧
    ((∀ w, i ≠ .write 0 4 w) → i ≠ .reset → t.cmdIllegal = s.cmdIllegal) ∧
    (i = .reset → t.cmdIllegal = false)) ∧
  (∀ s : State, readReg .cmdStatus s = if s.cmdIllegal then 1 else 0) ∧
  State.reset.cmdIllegal = false

/-- R20: only host writes change the request operand registers (and reset restores them, R147); no command and no
event writes them. -/
def Obligations.OnlyHostWritesChangeOperands : Prop :=
  (∀ (i : Instr) (s t : State), exec i s = .next t → t.req = s.req) ∧
  (∀ s t : State, step s = .next t → t.req ≠ s.req →
    s.inputs.head? = some .reset ∨
    ∃ (r : Reg) (v : Word32), r.access = .rw ∧ s.inputs.head? = some (.write r.offset 4 v))

/-- R58: a byte of the current frame keeps its value until RX_ARM or reset; DEC_* change only at a DECODE; TX_BUF,
TX_LEN and ENC_STATUS change only at an encode command. -/
def Obligations.ResultsChangeOnlyAtTheirCommand : Prop :=
  ∀ (s t : State) (i : Input) (rest : List Input), s.inputs = i :: rest → step s = .next t → i ≠ .reset →
    (¬i.isArm → s.rx.fill.val ≤ t.rx.fill.val ∧ ∀ k, k < s.rx.fill.val → t.rx.cell k = s.rx.cell k) ∧
    (t.dec ≠ s.dec → i.isDecode) ∧
    (t.tx ≠ s.tx → i.isEncode)

/-- R128: COMPLETE, CLOSED, IOERR and MALFORMED are held until RX_ARM or reset, and IDLE until RX_ARM: no RX event
leaves them. -/
def Obligations.TerminalReceiveStatesAreHeld : Prop :=
  (∀ (s t : State) (i : Input) (rest : List Input), s.inputs = i :: rest → step s = .next t →
    s.rx.state ≠ .header → s.rx.state ≠ .body → t.rx.state ≠ s.rx.state → i.isArm ∨ i = .reset) ∧
  (∀ (s : State) (e : Instr) (b : Byte), e ∈ [Instr.rxNone b, .rxByte b, .rxEos, .rxErr] →
    s.rx.state ≠ .header → s.rx.state ≠ .body → ∃ t, exec e s = .next t ∧ t.rx.state = s.rx.state)

/-! ## The encode commands -/

/-- R92 to R96: the four read encoders, for every state. Within the limits they send the REQ-A frame of the operand
registers; a count of 0 or above the limit is refused. -/
def Obligations.ReadCommandsEncodeTheirRequest : Prop :=
  ∀ (i : Instr) (w : Word32) (fc : Byte) (max : Nat),
    (i, w, fc, max) ∈ [(Instr.encRc, (0x00000001 : Word32), (0x01 : Byte), 2000),
      (.encRdi, 0x00000002, 0x02, 2000), (.encRhr, 0x00000003, 0x03, 125), (.encRir, 0x00000004, 0x04, 125)] →
    decodeCommand w = .ok i ∧
    ∀ s : State, ∃ t, exec i s = .next t ∧ t.cmdIllegal = false ∧
      (1 ≤ s.req.count.toNat → s.req.count.toNat ≤ max →
        Emitted [hi8 s.req.tid, lo8 s.req.tid, 0x00, 0x00, 0x00, 0x06, s.req.uid, fc,
          hi8 s.req.addr, lo8 s.req.addr, hi8 s.req.count, lo8 s.req.count] fc s.req.count s t) ∧
      (s.req.count.toNat = 0 ∨ max < s.req.count.toNat → Refused s t)

/-- R97: ENC_WSC sends 0x0000 for REQ_VALUE 0 and 0xFF00 for 1, refuses any other value, and ignores REQ_COUNT. -/
def Obligations.WriteSingleCoilEncodesABoolean : Prop :=
  decodeCommand 0x00000005 = .ok .encWsc ∧
  ∀ s : State, ∃ t, exec .encWsc s = .next t ∧ t.cmdIllegal = false ∧
    (s.req.value = 0x0000 →
      Emitted [hi8 s.req.tid, lo8 s.req.tid, 0x00, 0x00, 0x00, 0x06, s.req.uid, 0x05,
        hi8 s.req.addr, lo8 s.req.addr, 0x00, 0x00] 0x05 1 s t) ∧
    (s.req.value = 0x0001 →
      Emitted [hi8 s.req.tid, lo8 s.req.tid, 0x00, 0x00, 0x00, 0x06, s.req.uid, 0x05,
        hi8 s.req.addr, lo8 s.req.addr, 0xFF, 0x00] 0x05 1 s t) ∧
    (s.req.value ≠ 0x0000 → s.req.value ≠ 0x0001 → Refused s t)

/-- R98: ENC_WSR sends the 16-bit pattern of REQ_VALUE, every one of which is legal, and ignores REQ_COUNT. -/
def Obligations.WriteSingleRegisterEncodesAnyValue : Prop :=
  decodeCommand 0x00000006 = .ok .encWsr ∧
  ∀ s : State, ∃ t, exec .encWsr s = .next t ∧ t.cmdIllegal = false ∧
    Emitted [hi8 s.req.tid, lo8 s.req.tid, 0x00, 0x00, 0x00, 0x06, s.req.uid, 0x06,
      hi8 s.req.addr, lo8 s.req.addr, hi8 s.req.value, lo8 s.req.value] 0x06 1 s t

/-- R99: ENC_WMR sends REGV[0..c-1], two bytes each, high byte first, after the count and the byte count 2c; a count of
0 or above 123 is refused. -/
def Obligations.WriteMultipleRegistersEncodesItsValues : Prop :=
  decodeCommand 0x00000010 = .ok .encWmr ∧
  ∀ s : State, ∃ t, exec .encWmr s = .next t ∧ t.cmdIllegal = false ∧
    (1 ≤ s.req.count.toNat → s.req.count.toNat ≤ 123 →
      Emitted ([hi8 s.req.tid, lo8 s.req.tid, 0x00, 0x00, 0x00, BitVec.ofNat 8 (7 + 2 * s.req.count.toNat),
          s.req.uid, 0x10, hi8 s.req.addr, lo8 s.req.addr, hi8 s.req.count, lo8 s.req.count,
          BitVec.ofNat 8 (2 * s.req.count.toNat)] ++
        (List.range s.req.count.toNat).flatMap fun i => [hi8 (s.req.reg i), lo8 (s.req.reg i)])
        0x10 s.req.count s t) ∧
    (s.req.count.toNat = 0 ∨ 123 < s.req.count.toNat → Refused s t)

/-- R100: ENC_WMC sends COILV[0..c-1] packed least significant bit first, with pad bits 0, after the count and the byte
count ceil8(c); a count of 0 or above 1968 is refused. -/
def Obligations.WriteMultipleCoilsEncodesItsBits : Prop :=
  decodeCommand 0x0000000F = .ok .encWmc ∧
  ∀ s : State, ∃ t, exec .encWmc s = .next t ∧ t.cmdIllegal = false ∧
    (1 ≤ s.req.count.toNat → s.req.count.toNat ≤ 1968 →
      ∃ data : List Byte, data.length = (s.req.count.toNat + 7) / 8 ∧
        (∀ j k, j < data.length → k < 8 → (data.getD j 0).getLsbD k =
          (decide (8 * j + k < s.req.count.toNat) && s.req.coil (8 * j + k))) ∧
        Emitted ([hi8 s.req.tid, lo8 s.req.tid, 0x00, 0x00, 0x00, BitVec.ofNat 8 (7 + data.length),
            s.req.uid, 0x0F, hi8 s.req.addr, lo8 s.req.addr, hi8 s.req.count, lo8 s.req.count,
            BitVec.ofNat 8 data.length] ++ data)
          0x0F s.req.count s t) ∧
    (s.req.count.toNat = 0 ∨ 1968 < s.req.count.toNat → Refused s t)

/-- R102: for every frame ENC_WMR or ENC_WMC produces, TX[12] = TX_LEN - 13 and be16(TX[4], TX[5]) = TX_LEN - 6. And, of
R103, the byte count is twice the register count, or the number of bytes that hold the coils; for two elements or more
it is not the element count (for one coil it is: log 15). -/
def Obligations.MultipleWriteFieldsAgree : Prop :=
  ∀ (i : Instr) (s : State), i ∈ [Instr.encWmr, .encWmc] → ∃ t, exec i s = .next t ∧
    (t.tx.result = .ok →
      (t.tx.cell 12).toNat = t.tx.len.val - 13 ∧ 13 ≤ t.tx.len.val ∧
      (be16 (t.tx.cell 4) (t.tx.cell 5)).toNat = t.tx.len.val - 6 ∧
      (i = .encWmr → (t.tx.cell 12).toNat = 2 * s.req.count.toNat) ∧
      (i = .encWmc → (t.tx.cell 12).toNat = (s.req.count.toNat + 7) / 8) ∧
      (2 ≤ s.req.count.toNat → (t.tx.cell 12).toNat ≠ s.req.count.toNat))

/-- R101: ENC_WSC and ENC_WSR ignore REQ_COUNT, REGV and COILV; ENC_WMR ignores REQ_VALUE and COILV; ENC_WMC ignores
REQ_VALUE and REGV: two states that differ only in what a command ignores get the same transmit state and expected
values from it. -/
def Obligations.WriteEncodersIgnoreTheOtherOperands : Prop :=
  ∀ (i : Instr) (s : State) (count value : Word16) (regv : Cells Word16 123) (coilv : Cells Bool 1968) (q : Request),
    ((i = .encWsc ∨ i = .encWsr) ∧ q = { s.req with count := count, regv := regv, coilv := coilv }) ∨
    (i = .encWmr ∧ q = { s.req with value := value, coilv := coilv }) ∨
    (i = .encWmc ∧ q = { s.req with value := value, regv := regv }) →
    ∃ t u, exec i s = .next t ∧ exec i { s with req := q } = .next u ∧ t.tx = u.tx ∧ t.expect = u.expect

/-- Every encode command is a function of the request operand registers: from two states with the same operands it
gives the same result, the same length and byte-identical frames (R91, R65, R9). -/
def Obligations.EncodersDependOnOperandsAlone : Prop :=
  ∀ (i : Instr) (s₁ s₂ : State),
    i ∈ [Instr.encRc, .encRdi, .encRhr, .encRir, .encWsc, .encWsr, .encWmc, .encWmr] → s₁.req = s₂.req →
    ∃ t₁ t₂, exec i s₁ = .next t₁ ∧ exec i s₂ = .next t₂ ∧ t₁.tx.result = t₂.tx.result ∧
      t₁.tx.frame = t₂.tx.frame ∧ t₁.tx.frame.length = t₁.tx.len.val

/-- The encode commands run the request rows of the opcode table on the operand registers: each command's next state is
that of the request frame its operands stand for, with CMD_STATUS.ILLEGAL cleared (log 3). -/
def Obligations.EncodeCommandsRunTheirRequestRow : Prop :=
  ∀ s : State,
    exec .encRc s = exec (.reqReadCoils s.req.tid s.req.uid s.req.addr s.req.count) { s with cmdIllegal := false } ∧
    exec .encRdi s =
      exec (.reqReadDiscreteInputs s.req.tid s.req.uid s.req.addr s.req.count) { s with cmdIllegal := false } ∧
    exec .encRhr s =
      exec (.reqReadHoldingRegisters s.req.tid s.req.uid s.req.addr s.req.count) { s with cmdIllegal := false } ∧
    exec .encRir s =
      exec (.reqReadInputRegisters s.req.tid s.req.uid s.req.addr s.req.count) { s with cmdIllegal := false } ∧
    (∀ b : Bool, s.req.value = (if b then 1 else 0) →
      exec .encWsc s = exec (.reqWriteSingleCoil s.req.tid s.req.uid s.req.addr b) { s with cmdIllegal := false }) ∧
    exec .encWsr s =
      exec (.reqWriteSingleRegister s.req.tid s.req.uid s.req.addr s.req.value) { s with cmdIllegal := false } ∧
    (∀ values : List Bool, values.length = s.req.count.toNat → s.req.count.toNat ≤ 1968 →
      (∀ k, k < values.length → values.getD k false = s.req.coil k) →
      exec .encWmc s =
        exec (.reqWriteMultipleCoils s.req.tid s.req.uid s.req.addr values) { s with cmdIllegal := false }) ∧
    (∀ values : List Word16, values.length = s.req.count.toNat → s.req.count.toNat ≤ 123 →
      (∀ k, k < values.length → values.getD k 0 = s.req.reg k) →
      exec .encWmr s =
        exec (.reqWriteMultipleRegisters s.req.tid s.req.uid s.req.addr values) { s with cmdIllegal := false })

/-- A request row encodes the frame it stands for: a well-formed one puts its own encoding in TX_BUF, with its function
code and count expected; an ill-formed one is refused. That a request frame is run as an instruction of its own is the
model's reading of the table (log 3). -/
def Obligations.RequestRowsEmitTheirEncoding : Prop :=
  ∀ (i : Instr) (bytes : List Byte) (s : State), encode i = .request bytes →
    ∃ t, exec i s = .next t ∧ t.cmdIllegal = s.cmdIllegal ∧
      (i.wellFormed = true → ∃ count : Word16, Emitted bytes (bytes.getD 7 0) count s t ∧
        ((bytes.getD 7 0 = 5 ∨ bytes.getD 7 0 = 6) → count = 1) ∧
        (bytes.getD 7 0 ≠ 5 → bytes.getD 7 0 ≠ 6 → count = be16 (bytes.getD 10 0) (bytes.getD 11 0))) ∧
      (i.wellFormed = false → Refused s t)

/-- Running a command twice, with nothing in between, leaves the state that running it once leaves (R56, R91, R105,
R120). -/
def Obligations.CommandsAreIdempotent : Prop :=
  ∀ (w : Word32) (i : Instr) (s : State), decodeCommand w = .ok i →
    ∃ t, exec i s = .next t ∧ exec i t = .next t

/-! ## DECODE -/

/-- R106: DECODE ends with INVALID_ARGUMENT, before it looks at the receive state, when EXP_FC is not a function code or
a read's EXP_COUNT is out of range; EXP_COUNT is not checked for writes. -/
def Obligations.DecodeChecksItsArgumentsFirst : Prop :=
  ∀ s : State, ∃ t, exec .decode s = .next t ∧
    ((s.expect.fc ∉ [1, 2, 3, 4, 5, 6, 15, 16] ∨
      (s.expect.fc = 1 ∨ s.expect.fc = 2) ∧ (s.expect.count.toNat = 0 ∨ 2000 < s.expect.count.toNat) ∨
      (s.expect.fc = 3 ∨ s.expect.fc = 4) ∧ (s.expect.count.toNat = 0 ∨ 125 < s.expect.count.toNat)) ↔
      t.dec.outcome = .invalidArgument) ∧
    (t.dec.outcome = .invalidArgument → Finished .invalidArgument 0 .none s t)

/-- R107: past the argument check, the receive state decides: CLOSED, IOERR, MALFORMED and the unfinished states end
DECODE with their outcome; with COMPLETE a frame shorter than 8 bytes or not of 6 + Length bytes is MALFORMED_RESPONSE,
which the assembler's invariant rules out. -/
def Obligations.DecodeByReceiveState : Prop :=
  ∀ s : State, decodeArgsOk s.expect = true → ∃ t, exec .decode s = .next t ∧
    (s.rx.state = .closed → Finished .connectionClosed 0 .none s t) ∧
    (s.rx.state = .ioerr → Finished .ioError 0 .none s t) ∧
    (s.rx.state = .malformed → Finished .malformedResponse 0 .none s t) ∧
    (s.rx.state = .idle ∨ s.rx.state = .header ∨ s.rx.state = .body → Finished .notReady 0 .none s t) ∧
    (s.rx.state = .complete → s.rx.fill.val < 8 ∨ s.rx.fill.val ≠ 6 + (be16 (s.rx.cell 4) (s.rx.cell 5)).toNat →
      Finished .malformedResponse 0 .none s t) ∧
    (s.rx.state = .complete → s.rx.Inv →
      8 ≤ s.rx.fill.val ∧ s.rx.fill.val = 6 + (be16 (s.rx.cell 4) (s.rx.cell 5)).toNat)

/-- R108, R110: a whole frame whose byte 7 has bit 7 set is an exception response whatever its low seven bits and
whatever EXP_FC is; its code is the byte at offset 8, with the class of R110; without a ninth byte it is
MALFORMED_RESPONSE. -/
def Obligations.DecodeReportsExceptions : Prop :=
  (∀ s : State, decodeArgsOk s.expect = true → s.rx.state = .complete → 8 ≤ s.rx.fill.val →
    s.rx.fill.val = 6 + (be16 (s.rx.cell 4) (s.rx.cell 5)).toNat → (s.rx.cell 7).getLsbD 7 = true →
    ∃ t, exec .decode s = .next t ∧
      (s.rx.fill.val < 9 → Finished .malformedResponse 0 .none s t) ∧
      (9 ≤ s.rx.fill.val →
        Finished .protocolException (s.rx.cell 8) (excKindOf (s.rx.cell 8)) s t)) ∧
  (∀ x : Byte, (excKindOf x).code = if x = 1 ∨ x = 2 ∨ x = 3 ∨ x = 4 then x.extractLsb' 0 4 else 15) ∧
  excKindOf 1 = .illegalFunction ∧ excKindOf 2 = .illegalDataAddress ∧ excKindOf 3 = .illegalDataValue ∧
  excKindOf 4 = .serverDeviceFailure

/-- R109: with bit 7 clear, a function code other than EXP_FC is MALFORMED_RESPONSE. -/
def Obligations.DecodeRejectsAnotherFunctionCode : Prop :=
  ∀ s : State, decodeArgsOk s.expect = true → s.rx.state = .complete → 8 ≤ s.rx.fill.val →
    s.rx.fill.val = 6 + (be16 (s.rx.cell 4) (s.rx.cell 5)).toNat → (s.rx.cell 7).getLsbD 7 = false →
    s.rx.cell 7 ≠ s.expect.fc →
    ∃ t, exec .decode s = .next t ∧ Finished .malformedResponse 0 .none s t

/-- R111: a write acknowledgement with the expected function code is WRITE_OK, whatever the bytes after offset 7. -/
def Obligations.DecodeAcceptsWriteAcknowledgements : Prop :=
  ∀ s : State, s.expect.fc ∈ [5, 6, 15, 16] → s.rx.state = .complete → 8 ≤ s.rx.fill.val →
    s.rx.fill.val = 6 + (be16 (s.rx.cell 4) (s.rx.cell 5)).toNat → s.rx.cell 7 = s.expect.fc →
    ∃ t, exec .decode s = .next t ∧ Finished .writeOk 0 .none s t

/-- R112: a bit-space read response decodes to EXP_COUNT bits, least significant bit first, when its byte count is that
of the frame and that of the count; else it is MALFORMED_RESPONSE. -/
def Obligations.DecodeUnpacksBits : Prop :=
  ∀ s : State, s.expect.fc = 1 ∨ s.expect.fc = 2 → 1 ≤ s.expect.count.toNat → s.expect.count.toNat ≤ 2000 →
    s.rx.state = .complete → 8 ≤ s.rx.fill.val →
    s.rx.fill.val = 6 + (be16 (s.rx.cell 4) (s.rx.cell 5)).toNat → s.rx.cell 7 = s.expect.fc →
    ∃ t, exec .decode s = .next t ∧
      (s.rx.fill.val < 9 ∨ s.rx.fill.val ≠ 9 + (s.rx.cell 8).toNat ∨
        (s.rx.cell 8).toNat ≠ (s.expect.count.toNat + 7) / 8 → Finished .malformedResponse 0 .none s t) ∧
      (9 ≤ s.rx.fill.val → s.rx.fill.val = 9 + (s.rx.cell 8).toNat →
        (s.rx.cell 8).toNat = (s.expect.count.toNat + 7) / 8 →
        DecodedBits s.expect.count (fun i => (s.rx.cell (9 + i / 8)).getLsbD (i % 8)) s t)

/-- R113: a register-space read response decodes to EXP_COUNT values, two bytes each, high byte first, when its byte
count is that of the frame and twice the count; else it is MALFORMED_RESPONSE. The host reads each value sign-extended
to 32 bits. -/
def Obligations.DecodeSignExtendsRegisters : Prop :=
  ∀ s : State, s.expect.fc = 3 ∨ s.expect.fc = 4 → 1 ≤ s.expect.count.toNat → s.expect.count.toNat ≤ 125 →
    s.rx.state = .complete → 8 ≤ s.rx.fill.val →
    s.rx.fill.val = 6 + (be16 (s.rx.cell 4) (s.rx.cell 5)).toNat → s.rx.cell 7 = s.expect.fc →
    ∃ t, exec .decode s = .next t ∧
      (s.rx.fill.val < 9 ∨ s.rx.fill.val ≠ 9 + (s.rx.cell 8).toNat ∨
        (s.rx.cell 8).toNat ≠ 2 * s.expect.count.toNat → Finished .malformedResponse 0 .none s t) ∧
      (9 ≤ s.rx.fill.val → s.rx.fill.val = 9 + (s.rx.cell 8).toNat →
        (s.rx.cell 8).toNat = 2 * s.expect.count.toNat →
        DecodedRegs s.expect.count (fun i => be16 (s.rx.cell (9 + 2 * i)) (s.rx.cell (10 + 2 * i))) s t ∧
        ∀ i, i < s.expect.count.toNat →
          readWindow (0x1C00 + 4 * i) t = sext32 (be16 (s.rx.cell (9 + 2 * i)) (s.rx.cell (10 + 2 * i))))

/-- What each outcome of DECODE writes to DEC_COUNT and DEC_EXC, which cells of DEC_BITS and DEC_REGS it leaves, and that
nothing outside DEC_* changes but CMD_STATUS.ILLEGAL (R114 but for the values a read writes, which DecodeUnpacksBits and
DecodeSignExtendsRegisters give). -/
def Obligations.DecodeWritesItsResultsAlone : Prop :=
  ∀ s : State, ∃ t, exec .decode s = .next t ∧ t.cmdIllegal = false ∧ DecodeOnly s t ∧
    (∀ i, t.dec.count.toNat ≤ i → t.dec.bit i = s.dec.bit i ∧ t.dec.reg i = s.dec.reg i) ∧
    (t.dec.outcome = .bits → t.dec.count = s.expect.count ∧ t.dec.excCode = 0 ∧ t.dec.excKind = .none ∧
      ∀ i, t.dec.reg i = s.dec.reg i) ∧
    (t.dec.outcome = .registers → t.dec.count = s.expect.count ∧ t.dec.excCode = 0 ∧ t.dec.excKind = .none ∧
      ∀ i, t.dec.bit i = s.dec.bit i) ∧
    (t.dec.outcome = .protocolException → t.dec.count = 0 ∧ t.dec.excCode = s.rx.cell 8 ∧
      t.dec.excKind = excKindOf (s.rx.cell 8)) ∧
    (t.dec.outcome ≠ .bits → t.dec.outcome ≠ .registers → t.dec.outcome ≠ .protocolException →
      t.dec.count = 0 ∧ t.dec.excCode = 0 ∧ t.dec.excKind = .none)

/-- DECODE runs the response row its frame decodes to: with the arguments in order and a whole frame held, what the
pseudocode of R105 does with the cells of RX_BUF is what the row of the opcode table does with the fields of the frame;
and a frame that decodes to no row is MALFORMED_RESPONSE (R105, R108 to R113; log 3). -/
def Obligations.DecodeRunsTheResponseRow : Prop :=
  ∀ s : State, decodeArgsOk s.expect = true → s.rx.state = .complete →
    (∀ i, decodeResponse s.rx.frame = .ok i → exec .decode s = exec i { s with cmdIllegal := false }) ∧
    (∀ e, decodeResponse s.rx.frame = .error e →
      ∃ t, exec .decode s = .next t ∧ t.cmdIllegal = false ∧ Finished .malformedResponse 0 .none s t)

/-- The exception row and the write-acknowledgement rows, from every state: bad arguments first (R106), then for a write
the function code (R109), then PROTOCOL_EXCEPTION with the class of the code (R108, R110) or WRITE_OK (R111). That a
response frame is run as an instruction of its own is the model's reading of the table (log 3). -/
def Obligations.ExceptionAndWriteRows : Prop :=
  (∀ (s : State) (tid pid : Word16) (uid : Byte) (fc : BitVec 7) (code : Byte) (rest : List Byte),
    ∃ t, exec (.rspException tid pid uid fc code rest) s = .next t ∧ t.cmdIllegal = s.cmdIllegal ∧
      (decodeArgsOk s.expect = false → Finished .invalidArgument 0 .none s t) ∧
      (decodeArgsOk s.expect = true → Finished .protocolException code (excKindOf code) s t)) ∧
  (∀ (s : State) (tid pid : Word16) (uid : Byte) (rest : List Byte) (i : Instr) (fc : Byte),
    (i, fc) ∈ [(Instr.rspWriteSingleCoil tid pid uid rest, (5 : Byte)), (.rspWriteSingleRegister tid pid uid rest, 6),
      (.rspWriteMultipleCoils tid pid uid rest, 15), (.rspWriteMultipleRegisters tid pid uid rest, 16)] →
    ∃ t, exec i s = .next t ∧ t.cmdIllegal = s.cmdIllegal ∧
      (decodeArgsOk s.expect = false → Finished .invalidArgument 0 .none s t) ∧
      (decodeArgsOk s.expect = true → s.expect.fc ≠ fc → Finished .malformedResponse 0 .none s t) ∧
      (s.expect.fc = fc → Finished .writeOk 0 .none s t))

/-- The read rows, from every state: bad arguments first (R106), then the function code (R109), then the byte count
against EXP_COUNT, then the values (R112, R113). That a response frame is run as an instruction of its own is the
model's reading of the table (log 3). -/
def Obligations.ReadResponseRows : Prop :=
  ∀ (s : State) (tid pid : Word16) (uid : Byte) (data : List Byte) (i : Instr) (fc : Byte),
    (i, fc) ∈ [(Instr.rspReadCoils tid pid uid data, (1 : Byte)), (.rspReadDiscreteInputs tid pid uid data, 2),
      (.rspReadHoldingRegisters tid pid uid data, 3), (.rspReadInputRegisters tid pid uid data, 4)] →
    ∃ t, exec i s = .next t ∧ t.cmdIllegal = s.cmdIllegal ∧
      (decodeArgsOk s.expect = false → Finished .invalidArgument 0 .none s t) ∧
      (decodeArgsOk s.expect = true → s.expect.fc ≠ fc → Finished .malformedResponse 0 .none s t) ∧
      (decodeArgsOk s.expect = true → s.expect.fc = fc → fc = 1 ∨ fc = 2 →
        (data.length ≠ (s.expect.count.toNat + 7) / 8 → Finished .malformedResponse 0 .none s t) ∧
        (data.length = (s.expect.count.toNat + 7) / 8 →
          DecodedBits s.expect.count (fun k => (data.getD (k / 8) 0).getLsbD (k % 8)) s t)) ∧
      (decodeArgsOk s.expect = true → s.expect.fc = fc → fc = 3 ∨ fc = 4 →
        (data.length ≠ 2 * s.expect.count.toNat → Finished .malformedResponse 0 .none s t) ∧
        (data.length = 2 * s.expect.count.toNat →
          DecodedRegs s.expect.count (fun k => be16 (data.getD (2 * k) 0) (data.getD (2 * k + 1) 0)) s t))

/-- R118: DECODE never reads RX_BUF at or above RX_FILL: two states whose RX_BUF differ only there get the same
results; and a read response whose declared byte count exceeds the bytes held is MALFORMED_RESPONSE. -/
def Obligations.DecodeReadsOnlyTheFrame : Prop :=
  (∀ (s : State) (buf : Cells Byte 260), (∀ k, k < s.rx.fill.val → buf.get 0 k = s.rx.cell k) →
    ∃ t u, exec .decode s = .next t ∧ exec .decode { s with rx := { s.rx with buf := buf } } = .next u ∧
      u.dec = t.dec) ∧
  (∀ s : State, decodeArgsOk s.expect = true → s.expect.fc ∈ [1, 2, 3, 4] → s.rx.state = .complete → 9 ≤ s.rx.fill.val →
    s.rx.cell 7 = s.expect.fc → s.rx.fill.val < 9 + (s.rx.cell 8).toNat →
    ∃ t, exec .decode s = .next t ∧ Finished .malformedResponse 0 .none s t)

/-- R116: DECODE does not examine the response's TransactionId, ProtocolId and UnitIdentifier, nor REQ_TID and CFG_UID:
two states that differ only in RX_BUF[0..3], RX_BUF[6] and the request operands get the same results. -/
def Obligations.DecodeIgnoresTheIdentifiers : Prop :=
  ∀ (s : State) (buf : Cells Byte 260) (req : Request),
    (∀ k, k ≠ 0 → k ≠ 1 → k ≠ 2 → k ≠ 3 → k ≠ 6 → buf.get 0 k = s.rx.cell k) →
    ∃ t u, exec .decode s = .next t ∧ exec .decode { s with req := req, rx := { s.rx with buf := buf } } = .next u ∧
      u.dec = t.dec

/-! ## The receive assembler -/

/-- R120: RX_ARM from every state: HEADER, DROP = 0, FILL = 0, RX_NEED = 6, RX_BUF kept, nothing else but
CMD_STATUS.ILLEGAL = 0; twice is once. -/
def Obligations.ArmStartsANewFrame : Prop :=
  decodeCommand 0x00000021 = .ok .rxArm ∧
  ∀ s : State, ∃ t, exec .rxArm s = .next t ∧
    t.rx.state = .header ∧ t.rx.drop = false ∧ t.rx.fill.val = 0 ∧ (∀ k, t.rx.cell k = s.rx.cell k) ∧
    t.rx.need = 6 ∧ t.cmdIllegal = false ∧ t.req = s.req ∧ t.expect = s.expect ∧ t.tx = s.tx ∧ t.dec = s.dec ∧
    t.inputs = s.inputs ∧ t.hostReads = s.hostReads ∧ exec .rxArm t = .next t

/-- R122: RX_BYTE, in every state of the assembler that meets its invariant: in HEADER and BODY the byte is stored at
RX_FILL and the checks of the Length field and of a whole frame move STATE; elsewhere it is dropped with DROP = 1. -/
def Obligations.ByteIsStoredOrDropped : Prop :=
  ∀ (s : State) (b : Byte), s.rx.Inv → ∃ t, exec (.rxByte b) s = .next t ∧ ReceiveOnly s t ∧
    (s.rx.state = .header ∨ s.rx.state = .body →
      t.rx.fill.val = s.rx.fill.val + 1 ∧ t.rx.drop = s.rx.drop ∧ t.rx.cell s.rx.fill.val = b ∧
      ∀ k, k ≠ s.rx.fill.val → t.rx.cell k = s.rx.cell k) ∧
    (s.rx.state = .header → t.rx.fill.val ≠ 6 → t.rx.state = .header) ∧
    (s.rx.state = .header → t.rx.fill.val = 6 →
      ((be16 (t.rx.cell 4) (t.rx.cell 5)).toNat < 2 ∨ 260 < 6 + (be16 (t.rx.cell 4) (t.rx.cell 5)).toNat →
        t.rx.state = .malformed) ∧
      (2 ≤ (be16 (t.rx.cell 4) (t.rx.cell 5)).toNat → 6 + (be16 (t.rx.cell 4) (t.rx.cell 5)).toNat ≤ 260 →
        t.rx.state = .body)) ∧
    (s.rx.state = .body →
      (t.rx.fill.val = 6 + (be16 (t.rx.cell 4) (t.rx.cell 5)).toNat → t.rx.state = .complete) ∧
      (t.rx.fill.val ≠ 6 + (be16 (t.rx.cell 4) (t.rx.cell 5)).toNat → t.rx.state = .body)) ∧
    (s.rx.state ≠ .header → s.rx.state ≠ .body → t.rx = { s.rx with drop := true })

/-- R123, R124: RX_EOS and RX_ERR, from every state: in HEADER and BODY they set STATE to CLOSED and IOERR and leave
RX_FILL and RX_BUF; elsewhere they set DROP and change nothing else. -/
def Obligations.EndOfStreamAndErrorEndAReception : Prop :=
  ∀ (s : State) (i : Instr) (final : RxState), (i, final) ∈ [(Instr.rxEos, RxState.closed), (.rxErr, .ioerr)] →
    ∃ t, exec i s = .next t ∧ ReceiveOnly s t ∧
      (s.rx.state = .header ∨ s.rx.state = .body → t.rx = { s.rx with state := final }) ∧
      (s.rx.state ≠ .header → s.rx.state ≠ .body → t.rx = { s.rx with drop := true })

/-- R36: RX_NEED is computed from the other receive state on every read: 6 - FILL in HEADER, 6 + Length - FILL in BODY,
0 elsewhere, in every state that meets the assembler's invariant; and it is 0 after reset. -/
def Obligations.NeedIsComputedFromTheReceiveState : Prop :=
  (∀ s : State, s.rx.Inv →
    (s.rx.state = .header → (readWindow 0x03C s).toNat + s.rx.fill.val = 6) ∧
    (s.rx.state = .body →
      (readWindow 0x03C s).toNat + s.rx.fill.val = 6 + (be16 (s.rx.cell 4) (s.rx.cell 5)).toNat) ∧
    (s.rx.state ≠ .header → s.rx.state ≠ .body → readWindow 0x03C s = 0)) ∧
  readWindow 0x03C State.reset = 0

/-- A transport that keeps its duty has no byte dropped: in a state that meets the assembler's invariant, RX_NEED asks
for a byte exactly while one would be stored; a byte delivered while RX_NEED is 0 is dropped and sets DROP (R127). -/
def Obligations.DutifulBytesAreNeverDropped : Prop :=
  ∀ (s : State) (b : Byte), s.rx.Inv → ∃ t, exec (.rxByte b) s = .next t ∧
    (Input.dutiful s (byteEvent b) = true →
      t.rx.drop = s.rx.drop ∧ t.rx.fill.val = s.rx.fill.val + 1 ∧ t.rx.cell s.rx.fill.val = b) ∧
    (Input.dutiful s (byteEvent b) = false → t.rx = { s.rx with drop := true })

/-- The length field alone says where a frame ends, however the stream is cut: from a freshly armed state, the bytes of
any frame whose Length is in bounds, delivered one event each, leave exactly that frame held, COMPLETE, and change
nothing but the receive state and the inputs taken (R84, R119, R122, R126, R157). -/
def Obligations.WholeFrameIsReceived : Prop :=
  ∀ (s : State) (bytes : List Byte) (rest : List Input),
    s.rx.state = .header → s.rx.fill.val = 0 → 8 ≤ bytes.length → bytes.length ≤ 260 →
    bytes.length = 6 + (be16 (bytes.getD 4 0) (bytes.getD 5 0)).toNat → s.inputs = bytes.map byteEvent ++ rest →
    ∃ t, Host.Core.run core bytes.length s = .next t ∧
      t.rx.state = .complete ∧ t.rx.frame = bytes ∧ t.rx.drop = s.rx.drop ∧ t.inputs = rest ∧
      t.cmdIllegal = s.cmdIllegal ∧ t.req = s.req ∧ t.expect = s.expect ∧ t.tx = s.tx ∧ t.dec = s.dec ∧
      t.hostReads = s.hostReads

/-- R117: encoding a read and decoding a matching response yields exactly `count` values in ascending address order.
From every state whose operands a read encoder accepts, with these inputs pending (the encode command, RX_ARM, the
bytes of a response frame that carries the values, DECODE), the run ends with DEC_COUNT = count and the values in
DEC_REGS or DEC_BITS. -/
def Obligations.ReadRoundTripYieldsItsValues : Prop :=
  (∀ (s : State) (op : Byte) (tid pid : Word16) (uid : Byte) (values : List Word16) (rest : List Input),
    op = 3 ∨ op = 4 → 1 ≤ values.length → values.length ≤ 125 → s.req.count.toNat = values.length →
    s.inputs = transaction [] op (readResponse op tid pid uid (packRegs values)) ++ rest →
    ∃ t, Host.Core.run core (12 + 2 * values.length) s = .next t ∧
      t.dec.outcome = .registers ∧ t.dec.count.toNat = values.length ∧ t.inputs = rest ∧
      ∀ k, k < values.length → t.dec.reg k = values.getD k 0) ∧
  (∀ (s : State) (op : Byte) (tid pid : Word16) (uid : Byte) (values : List Bool) (rest : List Input),
    op = 1 ∨ op = 2 → 1 ≤ values.length → values.length ≤ 2000 → s.req.count.toNat = values.length →
    s.inputs = transaction [] op (readResponse op tid pid uid (packBits values)) ++ rest →
    ∃ t, Host.Core.run core (12 + ceil8 values.length) s = .next t ∧
      t.dec.outcome = .bits ∧ t.dec.count.toNat = values.length ∧ t.inputs = rest ∧
      ∀ k, k < values.length → t.dec.bit k = values.getD k false)

/-! ## Host programs -/

/-- Running what SETREGS and SETCOILS expand to writes their sequences and REQ_COUNT and changes nothing else, for every
sequence that REGV or the words of COILV hold; SETREGS expands when every value is a signed 16-bit one (R86, R87, R145).
SETCOILS writes whole words: the coils of its last word past the sequence become 0, and the sixteen bits that stand for
no coil are ignored (R27). -/
def Obligations.SetStatementsWriteTheirSequences : Prop :=
  (∀ values : List Int, (∀ v ∈ values, -32768 ≤ v ∧ v ≤ 32767) → ∃ inputs, (Stmt.setregs values).expand = .ok inputs) ∧
  (∀ (s : State) (values : List Int) (inputs rest : List Input), values.length ≤ 123 →
    (Stmt.setregs values).expand = .ok inputs → s.inputs = inputs ++ rest →
    ∃ t, Host.Core.run core inputs.length s = .next t ∧
      (∀ i, i < values.length → sint16 (t.req.reg i) = values.getD i 0) ∧
      (∀ i, values.length ≤ i → t.req.reg i = s.req.reg i) ∧ t.req.count.toNat = values.length ∧
      t = { s with inputs := rest, req := { s.req with regv := t.req.regv, count := t.req.count } }) ∧
  (∀ (s : State) (values : List Bool) (rest : List Input), values.length ≤ 1984 →
    ∃ inputs, (Stmt.setcoils values).expand = .ok inputs ∧ (s.inputs = inputs ++ rest →
      ∃ t, Host.Core.run core inputs.length s = .next t ∧
        (∀ k, k < 1968 → k < 32 * ((values.length + 31) / 32) → t.req.coil k = values.getD k false) ∧
        (∀ k, 32 * ((values.length + 31) / 32) ≤ k → t.req.coil k = s.req.coil k) ∧
        t.req.count.toNat = values.length ∧
        t = { s with inputs := rest, req := { s.req with coilv := t.req.coilv, count := t.req.count } }))
end

