-- ==== Sys2Proof/Laws/Bytes.lean ====
section
/-! SUPPORT. The laws of the byte and bit helpers: what the two bytes of a 16-bit field are, what a packed bit is, how
long an encoding is. -/

namespace Sys2Proof

@[simp] theorem countInRange_iff (max count : Nat) : countInRange max count = true ↔ 1 ≤ count ∧ count ≤ max := by
  simp [countInRange]

@[simp] theorem countInRange_false_iff (max count : Nat) :
    countInRange max count = false ↔ count = 0 ∨ max < count := by
  rw [← Bool.not_eq_true, countInRange_iff]
  omega

@[simp] theorem fitsRx_iff (at_ n : Nat) : fitsRx at_ n = true ↔ at_ + n ≤ 260 := by
  show decide (at_ + n ≤ 260) = true ↔ _
  simp

theorem be16_toNat (h l : Byte) : (be16 h l).toNat = h.toNat * 256 + l.toNat := by
  have hl : l.toNat < 2 ^ 8 := l.isLt
  rw [be16, BitVec.toNat_append, Nat.shiftLeft_eq, Nat.mul_comm, ← Nat.two_pow_add_eq_or_of_lt hl]

theorem hi8_toNat (v : Word16) : (hi8 v).toNat = v.toNat / 256 := by
  have := v.isLt
  simp [hi8, BitVec.extractLsb'_toNat, Nat.shiftRight_eq_div_pow]
  omega

theorem lo8_toNat (v : Word16) : (lo8 v).toNat = v.toNat % 256 := by
  simp [lo8, BitVec.extractLsb'_toNat]

@[simp] theorem be16_hi8_lo8 (v : Word16) : be16 (hi8 v) (lo8 v) = v := by
  apply BitVec.eq_of_toNat_eq
  rw [be16_toNat, hi8_toNat, lo8_toNat]
  omega

@[simp] theorem hi8_be16 (h l : Byte) : hi8 (be16 h l) = h := by
  apply BitVec.eq_of_toNat_eq
  have := l.isLt
  rw [hi8_toNat, be16_toNat]
  omega

@[simp] theorem lo8_be16 (h l : Byte) : lo8 (be16 h l) = l := by
  apply BitVec.eq_of_toNat_eq
  have := l.isLt
  rw [lo8_toNat, be16_toNat]
  omega

@[simp] theorem length_beBytes (v : Word16) : (beBytes v).length = 2 := rfl

@[simp] theorem length_mbap (tid pid length : Word16) (uid : Byte) : (mbap tid pid length uid).length = 7 := rfl

/-- A frame is the seven bytes of its header, its function code and its body. -/
@[simp] theorem length_frame (tid pid : Word16) (uid fc : Byte) (body : List Byte) :
    (frame tid pid uid fc body).length = 8 + body.length := by
  simp [frame]
  omega

@[simp] theorem length_readRequest (fc : Byte) (tid : Word16) (uid : Byte) (addr count : Word16) :
    (readRequest fc tid uid addr count).length = 12 := by
  simp [readRequest]

@[simp] theorem length_singleRequest (fc : Byte) (tid : Word16) (uid : Byte) (addr value : Word16) :
    (singleRequest fc tid uid addr value).length = 12 := by
  simp [singleRequest]

@[simp] theorem length_multipleRequest (fc : Byte) (tid : Word16) (uid : Byte) (addr : Word16) (count : Nat)
    (data : List Byte) : (multipleRequest fc tid uid addr count data).length = 13 + data.length := by
  simp [multipleRequest]
  omega

@[simp] theorem length_readResponse (fc : Byte) (tid pid : Word16) (uid : Byte) (data : List Byte) :
    (readResponse fc tid pid uid data).length = 9 + data.length := by
  simp [readResponse]
  omega

@[simp] theorem length_packBits (s : List Bool) : (packBits s).length = ceil8 s.length := by
  simp [packBits]

@[simp] theorem length_unpackBits (data : List Byte) (n : Nat) : (unpackBits data n).length = n := by
  simp [unpackBits]

@[simp] theorem length_packRegs (values : List Word16) : (packRegs values).length = 2 * values.length := by
  induction values with
  | nil => rfl
  | cons v vs ih =>
    simp only [packRegs, List.flatMap_cons, List.length_append, length_beBytes, List.length_cons] at ih ⊢
    omega

/-- Unmarshalling what was marshalled gives the values back. -/
@[simp] theorem unpackRegs_packRegs (values : List Word16) : unpackRegs (packRegs values) = values := by
  induction values with
  | nil => rfl
  | cons v vs ih =>
    simp only [packRegs, List.flatMap_cons, beBytes, List.cons_append, List.nil_append, unpackRegs, be16_hi8_lo8]
      at ih ⊢
    rw [ih]

/-- `unpackRegs` takes two bytes at a time, from the first on. -/
theorem unpackRegs_getD (data : List Byte) (i : Nat) (h : 2 * i + 1 < data.length) :
    (unpackRegs data).getD i 0 = be16 (data.getD (2 * i) 0) (data.getD (2 * i + 1) 0) := by
  induction i generalizing data with
  | zero =>
    match data, h with
    | a :: b :: rest, _ => simp [unpackRegs]
  | succ i ih =>
    match data, h with
    | a :: b :: rest, h =>
      have := ih rest (by simp at h; omega)
      simp only [unpackRegs, List.getD_cons_succ, this, Nat.mul_add]

theorem length_unpackRegs (data : List Byte) : (unpackRegs data).length = data.length / 2 := by
  induction data using unpackRegs.induct with
  | case1 h l rest ih =>
    simp only [unpackRegs, List.length_cons, ih]
    omega
  | case2 data hne =>
    match data, hne with
    | [], _ => simp [unpackRegs]
    | [a], _ => simp [unpackRegs]
    | a :: b :: rest, hne => exact absurd rfl (hne a b rest)

/-- Bit `k` of the number of a bit list is element `k`. -/
theorem testBit_natOfBits (s : List Bool) (k : Nat) : (natOfBits s).testBit k = s.getD k false := by
  induction s generalizing k with
  | nil => simp [natOfBits]
  | cons b bs ih =>
    cases k with
    | zero =>
      simp only [natOfBits, Nat.testBit_zero, List.getD_cons_zero]
      cases b <;> simp
    | succ k =>
      rw [List.getD_cons_succ, ← ih, natOfBits, Nat.testBit_succ]
      congr 1
      cases b
      · simp
      · simp
        omega

/-- Bit `k` of byte `j` of a packed sequence is element `8j + k`, and 0 past the end (R73). -/
theorem bit_packByte (s : List Bool) (j : Nat) {k : Nat} (h : k < 8) :
    bit (packByte s j) k = s.getD (8 * j + k) false := by
  simp only [bit, packByte, BitVec.getLsbD_ofNat, h, decide_true, Bool.true_and, testBit_natOfBits]
  simp [List.getD, List.getElem?_take_of_lt h, List.getElem?_drop]

theorem packBits_getD (s : List Bool) (j : Nat) (h : j < ceil8 s.length) : (packBits s).getD j 0 = packByte s j := by
  simp [packBits, List.getD, h]

/-- Unpacking what was packed gives the bits back (R73, R74). -/
@[simp] theorem unpackBits_packBits (s : List Bool) : unpackBits (packBits s) s.length = s := by
  apply List.ext_getElem (by simp)
  intro i h1 h2
  have hj : i / 8 < ceil8 s.length := by unfold ceil8; omega
  simp only [unpackBits, List.getElem_map, List.getElem_range, unpackBit]
  rw [packBits_getD _ _ hj, bit_packByte _ _ (Nat.mod_lt _ (by decide))]
  rw [Nat.div_add_mod]
  simp [List.getD, h2]

@[simp] theorem beBytes_be16 (h l : Byte) : beBytes (be16 h l) = [h, l] := by simp [beBytes]

/-- A 16-bit field below 256 has a zero high byte. -/
theorem beBytes_ofNat {n : Nat} (h : n ≤ 255) : beBytes (BitVec.ofNat 16 n) = [0x00, BitVec.ofNat 8 n] := by
  have h1 : hi8 (BitVec.ofNat 16 n) = 0 := by
    apply BitVec.eq_of_toNat_eq
    rw [hi8_toNat, BitVec.toNat_ofNat]
    show n % 65536 / 256 = 0
    omega
  have h2 : lo8 (BitVec.ofNat 16 n) = BitVec.ofNat 8 n := by
    apply BitVec.eq_of_toNat_eq
    rw [lo8_toNat]
    simp
  rw [beBytes, h1, h2]

/-- The bytes of a REQ-A frame (R67). -/
theorem readRequest_bytes (fc : Byte) (tid : Word16) (uid : Byte) (addr count : Word16) :
    readRequest fc tid uid addr count =
      [hi8 tid, lo8 tid, 0x00, 0x00, 0x00, 0x06, uid, fc, hi8 addr, lo8 addr, hi8 count, lo8 count] := by
  unfold readRequest frame mbap
  rw [beBytes_ofNat (by simp)]
  simp [beBytes, hi8, lo8]

/-- The bytes of a REQ-B frame (R68). -/
theorem singleRequest_bytes (fc : Byte) (tid : Word16) (uid : Byte) (addr value : Word16) :
    singleRequest fc tid uid addr value =
      [hi8 tid, lo8 tid, 0x00, 0x00, 0x00, 0x06, uid, fc, hi8 addr, lo8 addr, hi8 value, lo8 value] :=
  readRequest_bytes fc tid uid addr value

/-- The bytes of a REQ-C frame (R69). -/
theorem multipleRequest_bytes (fc : Byte) (tid : Word16) (uid : Byte) (addr count : Word16) (data : List Byte)
    (h : data.length ≤ 246) :
    multipleRequest fc tid uid addr count.toNat data =
      [hi8 tid, lo8 tid, 0x00, 0x00, 0x00, BitVec.ofNat 8 (7 + data.length), uid, fc, hi8 addr, lo8 addr,
        hi8 count, lo8 count, BitVec.ofNat 8 data.length] ++ data := by
  unfold multipleRequest frame mbap
  rw [BitVec.ofNat_toNat, beBytes_ofNat (by simp; omega)]
  simp [beBytes, hi8, lo8]
  congr 1
  omega

/-- Marshalling what was unmarshalled from whole pairs gives the bytes back. -/
theorem packRegs_unpackRegs (data : List Byte) (h : data.length % 2 = 0) : packRegs (unpackRegs data) = data := by
  induction data using unpackRegs.induct with
  | case1 a b rest ih =>
    have := ih (by simp at h; omega)
    simp only [unpackRegs, packRegs, List.flatMap_cons, beBytes_be16] at this ⊢
    rw [this]
    rfl
  | case2 data hne =>
    match data, hne with
    | [], _ => rfl
    | [a], _ => simp at h
    | a :: b :: rest, hne => exact absurd rfl (hne a b rest)

/-- The number of a bit list is the sum of its powers of two (R73). -/
theorem natOfBits_eq_sum (s : List Bool) (n : Nat) (h : s.length ≤ n) :
    natOfBits s = ((List.range n).map fun k => if s.getD k false then 2 ^ k else 0).sum := by
  induction s generalizing n with
  | nil => simp [natOfBits]
  | cons b bs ih =>
    rcases n with _ | n
    · simp at h
    · rw [List.range_succ_eq_map, List.map_cons, List.sum_cons, List.map_map, natOfBits, ih n (by simpa using h),
        ← List.sum_map_mul_left]
      congr 1
      · cases b <;> simp
      · congr 1
        apply List.map_congr_left
        intro k _
        simp [Nat.pow_succ, Nat.mul_comm]

end Sys2Proof
end

