-- ==== Sys2Proof/Laws/Cells.lean ====
section
/-! SUPPORT. The laws of arrays: a read after a write gives what was written, and a write leaves every other cell
alone. -/

namespace Sys2Proof.Machine

variable {α : Type} {n : Nat}

theorem Cells.eq_of_toList_eq {u v : Cells α n} (h : u.toList = v.toList) : u = v := by
  cases u; cases v; simp_all

/-- Two arrays with the same cells are the same array, whatever the default. -/
theorem Cells.eq_of_get_eq {u v : Cells α n} (d : α) (h : ∀ k, k < n → u.get d k = v.get d k) : u = v := by
  apply Cells.eq_of_toList_eq
  apply List.ext_getElem (u.length_eq.trans v.length_eq.symm)
  intro k hu hv
  have hk : k < n := u.length_eq ▸ hu
  simpa [Cells.get, List.getD, hu, hv] using h k hk

@[simp] theorem Cells.get_fill (d : α) (k : Nat) : (Cells.fill n d).get d k = d := by
  simp only [Cells.get, Cells.fill, List.getD, List.getElem?_replicate]
  split <;> rfl

/-- Past the end, the default answers. -/
theorem Cells.get_of_le (v : Cells α n) (d : α) {k : Nat} (h : n ≤ k) : v.get d k = d := by
  have := v.length_eq
  simp [Cells.get, List.getD, List.getElem?_eq_none (by omega : v.toList.length ≤ k)]

/-- Reading a patched array. -/
theorem Cells.get_patch (v : Cells α n) (d : α) (at_ : Nat) (xs : List α) (k : Nat) :
    (v.patch at_ xs).get d k =
      if at_ ≤ k ∧ k < at_ + xs.length ∧ k < n then xs.getD (k - at_) d else v.get d k := by
  have hv := v.length_eq
  unfold Cells.get Cells.patch List.getD
  by_cases hn : k < n
  · rw [List.getElem?_take_of_lt hn]
    by_cases h1 : k < at_
    · rw [if_neg (by omega), List.append_assoc, List.getElem?_append_left (by simp; omega),
        List.getElem?_take_of_lt h1]
    · have ht : (v.toList.take at_).length = at_ := by simp; omega
      by_cases h2 : k < at_ + xs.length
      · rw [if_pos (by omega), List.getElem?_append_left (by simp; omega),
          List.getElem?_append_right (by omega), ht]
      · rw [if_neg (by omega), List.getElem?_append_right (by simp; omega), List.getElem?_drop]
        congr 2
        simp only [List.length_append, ht]
        omega
  · rw [if_neg (by omega), List.getElem?_eq_none (by simp; omega), List.getElem?_eq_none (by omega)]

/-- Reading a cell that a patch wrote. -/
theorem Cells.get_patch_of_mem (v : Cells α n) (d : α) {at_ : Nat} {xs : List α} {k : Nat}
    (h1 : at_ ≤ k) (h2 : k < at_ + xs.length) (h3 : k < n) :
    (v.patch at_ xs).get d k = xs.getD (k - at_) d := by
  rw [Cells.get_patch, if_pos ⟨h1, h2, h3⟩]

/-- Reading a cell that a patch did not write. -/
theorem Cells.get_patch_of_not_mem (v : Cells α n) (d : α) {at_ : Nat} {xs : List α} {k : Nat}
    (h : k < at_ ∨ at_ + xs.length ≤ k) : (v.patch at_ xs).get d k = v.get d k := by
  rw [Cells.get_patch, if_neg (by omega)]

/-- The same patch twice is the patch once. -/
theorem Cells.patch_patch (v : Cells α n) (at_ : Nat) (xs : List α) :
    (v.patch at_ xs).patch at_ xs = v.patch at_ xs := by
  rcases n with _ | n
  · apply Cells.eq_of_toList_eq
    simp [Cells.patch]
  · have d : α := v.toList.head (by
      intro h
      have := v.length_eq
      simp [h] at this)
    apply Cells.eq_of_get_eq d
    intro k _
    rw [Cells.get_patch]
    split
    · next h => rw [Cells.get_patch, if_pos h]
    · rfl

/-- The first `m` cells of an array, as a list. -/
theorem Cells.take_getD (v : Cells α n) (d : α) (m k : Nat) (h : k < m) :
    (v.toList.take m).getD k d = v.get d k := by
  simp [Cells.get, List.getD, List.getElem?_take_of_lt h]

/-- The first `m` cells of an array of at least `m` are `m`. -/
theorem Cells.length_take (v : Cells α n) {m : Nat} (h : m ≤ n) : (v.toList.take m).length = m := by
  have := v.length_eq
  simp
  omega

end Sys2Proof.Machine
end

