-- ==== Sys2Proof/Laws/Decode.lean ====
section
/-! SUPPORT. The laws of the decoder: when a command word is legal, what an event word made of KIND and DATA decodes
to, and what a frame's header is cut into. -/

namespace Sys2Proof

/-- A command word decodes by its OP, with bits [31:8] at 0 (R78, R80). -/
theorem decodeCommand_eq_ok_iff (w : Word32) (i : Instr) :
    decodeCommand w = .ok i ↔ w.extractLsb' 8 24 = 0 ∧ commandOfOp (w.extractLsb' 0 8) = some i := by
  unfold decodeCommand
  split
  · next h => exact ⟨fun h2 => (nomatch h2), fun h2 => absurd h2.1 h⟩
  · next h =>
    simp only [not_not.1 h, true_and]
    cases commandOfOp (w.extractLsb' 0 8) <;> simp

@[simp] theorem kind_append (k : BitVec 2) (b : Byte) : (k ++ b).extractLsb' 8 2 = k := by
  apply BitVec.eq_of_getLsbD_eq
  intro i hi
  rw [BitVec.getLsbD_extractLsb', BitVec.getLsbD_append]
  simp [hi]

@[simp] theorem data_append (k : BitVec 2) (b : Byte) : (k ++ b).extractLsb' 0 8 = b := by
  apply BitVec.eq_of_getLsbD_eq
  intro i hi
  rw [BitVec.getLsbD_extractLsb', BitVec.getLsbD_append]
  simp [hi]

/-- Every event word is a KIND and a DATA. -/
theorem kind_append_data (w : EventWord) : w.extractLsb' 8 2 ++ w.extractLsb' 0 8 = w := by
  apply BitVec.eq_of_getLsbD_eq
  intro i hi
  rw [BitVec.getLsbD_append]
  split
  · next h => simp [h]
  · next h =>
    rw [BitVec.getLsbD_extractLsb']
    simp [show 8 + (i - 8) = i by omega, show i - 8 < 2 by omega]

/-- An event word by its KIND (R79). -/
theorem decodeEvent_append (k : BitVec 2) (b : Byte) :
    decodeEvent (k ++ b) =
      if k = 0b00 then .ok (.rxNone b)
      else if k = 0b01 then .ok (.rxByte b)
      else if b ≠ 0 then .error .eventDataNotZero
      else if k = 0b10 then .ok .rxEos
      else .ok .rxErr := by
  unfold decodeEvent
  rw [kind_append, data_append]

/-- What a frame of the encoder is cut into (R63, R84). -/
theorem decodeHeader_frame (tid pid : Word16) (uid fc : Byte) (body : List Byte) (h : body.length ≤ 65533) :
    decodeHeader (frame tid pid uid fc body) =
      .ok { tid := tid, pid := pid, uid := uid, fc := fc, body := body } := by
  simp only [frame, mbap, beBytes, List.cons_append, List.nil_append, decodeHeader, be16_hi8_lo8]
  rw [if_pos]
  simp
  omega

/-- A header that decodes is that of a frame of the encoder. -/
theorem frame_of_decodeHeader {bytes : List Byte} {f : Frame} (h : decodeHeader bytes = .ok f) :
    bytes = frame f.tid f.pid f.uid f.fc f.body ∧ f.body.length ≤ 65533 := by
  unfold decodeHeader at h
  split at h
  · next t1 t0 p1 p0 l1 l0 uid fc body =>
    split at h
    · next hl =>
      cases h
      have hb := (be16 l1 l0).isLt
      have hlen : BitVec.ofNat 16 (2 + body.length) = be16 l1 l0 := by
        apply BitVec.eq_of_toNat_eq
        simp at hl ⊢
        omega
      refine ⟨?_, ?_⟩
      · simp only [frame, mbap, beBytes, hlen, hi8_be16, lo8_be16, List.cons_append, List.nil_append]
      · simp at hl ⊢
        omega
    · cases h
  · cases h

end Sys2Proof
end

