-- ==== Sys2Proof/Laws/State.lean ====
section
/-! SUPPORT. One lemma per field per update, true by rfl, so that no proof unfolds a record update. -/

namespace Sys2Proof.Machine

/-! ### beginCommand -/

@[simp] theorem beginCommand_cmdIllegal (s : State) : (beginCommand s).cmdIllegal = false := rfl
@[simp] theorem beginCommand_req (s : State) : (beginCommand s).req = s.req := rfl
@[simp] theorem beginCommand_expect (s : State) : (beginCommand s).expect = s.expect := rfl
@[simp] theorem beginCommand_tx (s : State) : (beginCommand s).tx = s.tx := rfl
@[simp] theorem beginCommand_rx (s : State) : (beginCommand s).rx = s.rx := rfl
@[simp] theorem beginCommand_dec (s : State) : (beginCommand s).dec = s.dec := rfl
@[simp] theorem beginCommand_inputs (s : State) : (beginCommand s).inputs = s.inputs := rfl
@[simp] theorem beginCommand_hostReads (s : State) : (beginCommand s).hostReads = s.hostReads := rfl

/-! ### refuse -/

@[simp] theorem refuse_cmdIllegal (s : State) : (refuse s).cmdIllegal = s.cmdIllegal := rfl
@[simp] theorem refuse_req (s : State) : (refuse s).req = s.req := rfl
@[simp] theorem refuse_expect (s : State) : (refuse s).expect = s.expect := rfl
@[simp] theorem refuse_rx (s : State) : (refuse s).rx = s.rx := rfl
@[simp] theorem refuse_dec (s : State) : (refuse s).dec = s.dec := rfl
@[simp] theorem refuse_inputs (s : State) : (refuse s).inputs = s.inputs := rfl
@[simp] theorem refuse_hostReads (s : State) : (refuse s).hostReads = s.hostReads := rfl
@[simp] theorem refuse_tx_result (s : State) : (refuse s).tx.result = .invalidArgument := rfl
@[simp] theorem refuse_tx_len (s : State) : (refuse s).tx.len = 0 := rfl
@[simp] theorem refuse_tx_buf (s : State) : (refuse s).tx.buf = s.tx.buf := rfl

/-! ### emit -/

@[simp] theorem emit_cmdIllegal (bytes : List Byte) (fc : Byte) (count : Word16) (s : State) :
    (emit bytes fc count s).cmdIllegal = s.cmdIllegal := rfl
@[simp] theorem emit_req (bytes : List Byte) (fc : Byte) (count : Word16) (s : State) :
    (emit bytes fc count s).req = s.req := rfl
@[simp] theorem emit_rx (bytes : List Byte) (fc : Byte) (count : Word16) (s : State) :
    (emit bytes fc count s).rx = s.rx := rfl
@[simp] theorem emit_dec (bytes : List Byte) (fc : Byte) (count : Word16) (s : State) :
    (emit bytes fc count s).dec = s.dec := rfl
@[simp] theorem emit_inputs (bytes : List Byte) (fc : Byte) (count : Word16) (s : State) :
    (emit bytes fc count s).inputs = s.inputs := rfl
@[simp] theorem emit_hostReads (bytes : List Byte) (fc : Byte) (count : Word16) (s : State) :
    (emit bytes fc count s).hostReads = s.hostReads := rfl
@[simp] theorem emit_tx_result (bytes : List Byte) (fc : Byte) (count : Word16) (s : State) :
    (emit bytes fc count s).tx.result = .ok := rfl
@[simp] theorem emit_tx_len (bytes : List Byte) (fc : Byte) (count : Word16) (s : State) :
    (emit bytes fc count s).tx.len = Fin.ofNat 260 bytes.length := rfl
@[simp] theorem emit_tx_buf (bytes : List Byte) (fc : Byte) (count : Word16) (s : State) :
    (emit bytes fc count s).tx.buf = s.tx.buf.patch 0 bytes := rfl
@[simp] theorem emit_expect_fc (bytes : List Byte) (fc : Byte) (count : Word16) (s : State) :
    (emit bytes fc count s).expect.fc = fc := rfl
@[simp] theorem emit_expect_count (bytes : List Byte) (fc : Byte) (count : Word16) (s : State) :
    (emit bytes fc count s).expect.count = count := rfl

/-! ### finish -/

@[simp] theorem finish_cmdIllegal (o : DecOutcome) (s : State) : (finish o s).cmdIllegal = s.cmdIllegal := rfl
@[simp] theorem finish_req (o : DecOutcome) (s : State) : (finish o s).req = s.req := rfl
@[simp] theorem finish_expect (o : DecOutcome) (s : State) : (finish o s).expect = s.expect := rfl
@[simp] theorem finish_tx (o : DecOutcome) (s : State) : (finish o s).tx = s.tx := rfl
@[simp] theorem finish_rx (o : DecOutcome) (s : State) : (finish o s).rx = s.rx := rfl
@[simp] theorem finish_inputs (o : DecOutcome) (s : State) : (finish o s).inputs = s.inputs := rfl
@[simp] theorem finish_hostReads (o : DecOutcome) (s : State) : (finish o s).hostReads = s.hostReads := rfl
@[simp] theorem finish_dec_outcome (o : DecOutcome) (s : State) : (finish o s).dec.outcome = o := rfl
@[simp] theorem finish_dec_count (o : DecOutcome) (s : State) : (finish o s).dec.count = 0 := rfl
@[simp] theorem finish_dec_excCode (o : DecOutcome) (s : State) : (finish o s).dec.excCode = 0 := rfl
@[simp] theorem finish_dec_excKind (o : DecOutcome) (s : State) : (finish o s).dec.excKind = .none := rfl
@[simp] theorem finish_dec_bits (o : DecOutcome) (s : State) : (finish o s).dec.bits = s.dec.bits := rfl
@[simp] theorem finish_dec_regs (o : DecOutcome) (s : State) : (finish o s).dec.regs = s.dec.regs := rfl

/-! ### finishException -/

@[simp] theorem finishException_cmdIllegal (code : Byte) (s : State) :
    (finishException code s).cmdIllegal = s.cmdIllegal := rfl
@[simp] theorem finishException_req (code : Byte) (s : State) : (finishException code s).req = s.req := rfl
@[simp] theorem finishException_expect (code : Byte) (s : State) : (finishException code s).expect = s.expect := rfl
@[simp] theorem finishException_tx (code : Byte) (s : State) : (finishException code s).tx = s.tx := rfl
@[simp] theorem finishException_rx (code : Byte) (s : State) : (finishException code s).rx = s.rx := rfl
@[simp] theorem finishException_inputs (code : Byte) (s : State) : (finishException code s).inputs = s.inputs := rfl
@[simp] theorem finishException_hostReads (code : Byte) (s : State) :
    (finishException code s).hostReads = s.hostReads := rfl
@[simp] theorem finishException_dec_outcome (code : Byte) (s : State) :
    (finishException code s).dec.outcome = .protocolException := rfl
@[simp] theorem finishException_dec_count (code : Byte) (s : State) : (finishException code s).dec.count = 0 := rfl
@[simp] theorem finishException_dec_excCode (code : Byte) (s : State) :
    (finishException code s).dec.excCode = code := rfl
@[simp] theorem finishException_dec_excKind (code : Byte) (s : State) :
    (finishException code s).dec.excKind = excKindOf code := rfl
@[simp] theorem finishException_dec_bits (code : Byte) (s : State) :
    (finishException code s).dec.bits = s.dec.bits := rfl
@[simp] theorem finishException_dec_regs (code : Byte) (s : State) :
    (finishException code s).dec.regs = s.dec.regs := rfl

/-! ### finishBits -/

@[simp] theorem finishBits_cmdIllegal (count : Word16) (values : List Bool) (s : State) :
    (finishBits count values s).cmdIllegal = s.cmdIllegal := rfl
@[simp] theorem finishBits_req (count : Word16) (values : List Bool) (s : State) :
    (finishBits count values s).req = s.req := rfl
@[simp] theorem finishBits_expect (count : Word16) (values : List Bool) (s : State) :
    (finishBits count values s).expect = s.expect := rfl
@[simp] theorem finishBits_tx (count : Word16) (values : List Bool) (s : State) :
    (finishBits count values s).tx = s.tx := rfl
@[simp] theorem finishBits_rx (count : Word16) (values : List Bool) (s : State) :
    (finishBits count values s).rx = s.rx := rfl
@[simp] theorem finishBits_inputs (count : Word16) (values : List Bool) (s : State) :
    (finishBits count values s).inputs = s.inputs := rfl
@[simp] theorem finishBits_hostReads (count : Word16) (values : List Bool) (s : State) :
    (finishBits count values s).hostReads = s.hostReads := rfl
@[simp] theorem finishBits_dec_outcome (count : Word16) (values : List Bool) (s : State) :
    (finishBits count values s).dec.outcome = .bits := rfl
@[simp] theorem finishBits_dec_count (count : Word16) (values : List Bool) (s : State) :
    (finishBits count values s).dec.count = count := rfl
@[simp] theorem finishBits_dec_excCode (count : Word16) (values : List Bool) (s : State) :
    (finishBits count values s).dec.excCode = 0 := rfl
@[simp] theorem finishBits_dec_excKind (count : Word16) (values : List Bool) (s : State) :
    (finishBits count values s).dec.excKind = .none := rfl
@[simp] theorem finishBits_dec_bits (count : Word16) (values : List Bool) (s : State) :
    (finishBits count values s).dec.bits = s.dec.bits.patch 0 values := rfl
@[simp] theorem finishBits_dec_regs (count : Word16) (values : List Bool) (s : State) :
    (finishBits count values s).dec.regs = s.dec.regs := rfl

/-! ### finishRegs -/

@[simp] theorem finishRegs_cmdIllegal (count : Word16) (values : List Word16) (s : State) :
    (finishRegs count values s).cmdIllegal = s.cmdIllegal := rfl
@[simp] theorem finishRegs_req (count : Word16) (values : List Word16) (s : State) :
    (finishRegs count values s).req = s.req := rfl
@[simp] theorem finishRegs_expect (count : Word16) (values : List Word16) (s : State) :
    (finishRegs count values s).expect = s.expect := rfl
@[simp] theorem finishRegs_tx (count : Word16) (values : List Word16) (s : State) :
    (finishRegs count values s).tx = s.tx := rfl
@[simp] theorem finishRegs_rx (count : Word16) (values : List Word16) (s : State) :
    (finishRegs count values s).rx = s.rx := rfl
@[simp] theorem finishRegs_inputs (count : Word16) (values : List Word16) (s : State) :
    (finishRegs count values s).inputs = s.inputs := rfl
@[simp] theorem finishRegs_hostReads (count : Word16) (values : List Word16) (s : State) :
    (finishRegs count values s).hostReads = s.hostReads := rfl
@[simp] theorem finishRegs_dec_outcome (count : Word16) (values : List Word16) (s : State) :
    (finishRegs count values s).dec.outcome = .registers := rfl
@[simp] theorem finishRegs_dec_count (count : Word16) (values : List Word16) (s : State) :
    (finishRegs count values s).dec.count = count := rfl
@[simp] theorem finishRegs_dec_excCode (count : Word16) (values : List Word16) (s : State) :
    (finishRegs count values s).dec.excCode = 0 := rfl
@[simp] theorem finishRegs_dec_excKind (count : Word16) (values : List Word16) (s : State) :
    (finishRegs count values s).dec.excKind = .none := rfl
@[simp] theorem finishRegs_dec_bits (count : Word16) (values : List Word16) (s : State) :
    (finishRegs count values s).dec.bits = s.dec.bits := rfl
@[simp] theorem finishRegs_dec_regs (count : Word16) (values : List Word16) (s : State) :
    (finishRegs count values s).dec.regs = s.dec.regs.patch 0 values := rfl

/-! ### The receive assembler -/

@[simp] theorem Receive.arm_state (r : Receive) : r.arm.state = .header := rfl
@[simp] theorem Receive.arm_drop (r : Receive) : r.arm.drop = false := rfl
@[simp] theorem Receive.arm_fill (r : Receive) : r.arm.fill = 0 := rfl
@[simp] theorem Receive.arm_buf (r : Receive) : r.arm.buf = r.buf := rfl
@[simp] theorem Receive.dropEvent_state (r : Receive) : r.dropEvent.state = r.state := rfl
@[simp] theorem Receive.dropEvent_drop (r : Receive) : r.dropEvent.drop = true := rfl
@[simp] theorem Receive.dropEvent_fill (r : Receive) : r.dropEvent.fill = r.fill := rfl
@[simp] theorem Receive.dropEvent_buf (r : Receive) : r.dropEvent.buf = r.buf := rfl

/-! ### The state after reset (R147) -/

@[simp] theorem reset_cmdIllegal : State.reset.cmdIllegal = false := rfl
@[simp] theorem reset_req : State.reset.req = Request.reset := rfl
@[simp] theorem reset_expect : State.reset.expect = Expect.reset := rfl
@[simp] theorem reset_tx : State.reset.tx = Transmit.reset := rfl
@[simp] theorem reset_rx : State.reset.rx = Receive.reset := rfl
@[simp] theorem reset_dec : State.reset.dec = Result.reset := rfl
@[simp] theorem reset_inputs : State.reset.inputs = [] := rfl
@[simp] theorem reset_hostReads : State.reset.hostReads = [] := rfl

end Sys2Proof.Machine
end

