-- ==== Sys2Proof/Laws/Ops.lean ====
section
/-! SUPPORT. One lemma per shared operation that says everything it can do; proofs cite it instead of unfolding the
operation. -/

namespace Sys2Proof.Machine

/-! ## Encoding -/

/-- `EncodeRead` refuses a count of 0 or above its limit and emits a REQ-A frame otherwise (R92). -/
theorem encodeRead_cases (fc : Byte) (max : Nat) (tid : Word16) (uid : Byte) (addr count : Word16) (s : State) :
    ((count.toNat = 0 ∨ max < count.toNat) ∧ encodeRead fc max tid uid addr count s = refuse s) ∨
    ((1 ≤ count.toNat ∧ count.toNat ≤ max) ∧
      encodeRead fc max tid uid addr count s = emit (readRequest fc tid uid addr count) fc count s) := by
  unfold encodeRead
  split
  · next h => exact .inl ⟨h, rfl⟩
  · next h => exact .inr ⟨by omega, rfl⟩

/-- A multiple write refuses a count of 0 or above its limit and emits a REQ-C frame otherwise (R99, R100). -/
theorem encodeMultiple_cases (fc : Byte) (max : Nat) (tid : Word16) (uid : Byte) (addr : Word16) (count : Nat)
    (data : List Byte) (s : State) :
    ((count = 0 ∨ max < count) ∧ encodeMultiple fc max tid uid addr count data s = refuse s) ∨
    ((1 ≤ count ∧ count ≤ max) ∧
      encodeMultiple fc max tid uid addr count data s =
        emit (multipleRequest fc tid uid addr count data) fc (BitVec.ofNat 16 count) s) := by
  unfold encodeMultiple
  split
  · next h => exact .inl ⟨h, rfl⟩
  · next h => exact .inr ⟨by omega, rfl⟩

/-- ENC_WSC emits the wire form of its boolean, or refuses (R97). -/
theorem execEncWsc_cases (s : State) :
    (∃ b : Bool, s.req.value = (if b then 0x0001 else 0x0000) ∧
      execEncWsc s = .next (encodeSingle 0x05 s.req.tid s.req.uid s.req.addr (coilWord b) (beginCommand s))) ∨
    (s.req.value ≠ 0x0000 ∧ s.req.value ≠ 0x0001 ∧ execEncWsc s = .next (refuse (beginCommand s))) := by
  by_cases h0 : s.req.value = 0x0000
  · exact .inl ⟨false, h0, by simp [execEncWsc, h0, coilWord]⟩
  · by_cases h1 : s.req.value = 0x0001
    · exact .inl ⟨true, h1, by simp [execEncWsc, h1, coilWord]⟩
    · exact .inr ⟨h0, h1, (if_neg h0).trans (if_neg h1)⟩

/-- TX_LEN after a frame of at most 259 bytes is its length (R32). -/
theorem emit_len (bytes : List Byte) (fc : Byte) (count : Word16) (s : State) (h : bytes.length ≤ 259) :
    (emit bytes fc count s).tx.len.val = bytes.length := by
  show bytes.length % 260 = bytes.length
  omega

/-- TX_BUF after a frame: the frame, then what was there (R31). -/
theorem emit_cell (bytes : List Byte) (fc : Byte) (count : Word16) (s : State) (k : Nat) :
    (emit bytes fc count s).tx.cell k =
      if k < bytes.length ∧ k < 259 then bytes.getD k 0 else s.tx.cell k := by
  simp [Transmit.cell, Cells.get_patch]

theorem length_coilValues (q : Request) {c : Nat} (h : c ≤ 1968) : (q.coilValues c).length = c :=
  q.coilv.length_take h

theorem length_regValues (q : Request) {c : Nat} (h : c ≤ 123) : (q.regValues c).length = c :=
  q.regv.length_take h

/-! ## DECODE -/

/-- A response of the wrong function code, or with bad arguments, ends before its own rule (R106, R109). -/
theorem whenExpected_cases (fc : Byte) (k : State → State) (s : State) :
    (decodeArgsOk s.expect = false ∧ whenExpected fc k s = finish .invalidArgument s) ∨
    (decodeArgsOk s.expect = true ∧ s.expect.fc ≠ fc ∧ whenExpected fc k s = finish .malformedResponse s) ∨
    (decodeArgsOk s.expect = true ∧ s.expect.fc = fc ∧ whenExpected fc k s = k s) := by
  unfold whenExpected
  cases h : decodeArgsOk s.expect
  · simp
  · by_cases h1 : s.expect.fc = fc <;> simp [h1]

/-- What DECODE can do: record an outcome without values, an exception, or the values of a read (R105). The bit values
and register values come from RX_BUF as R112 and R113 say. -/
theorem decodeHeld_cases (s : State) :
    (∃ o, o ≠ .bits ∧ o ≠ .registers ∧ o ≠ .protocolException ∧ decodeHeld s = finish o s) ∨
    (decodeHeld s = finishException (s.rx.cell 8) s) ∨
    (isBitRead s.expect.fc = true ∧ decodeArgsOk s.expect = true ∧
      decodeHeld s = finishBits s.expect.count
        ((List.range s.expect.count.toNat).map fun i => bit (s.rx.cell (9 + i / 8)) (i % 8)) s) ∨
    (isRegRead s.expect.fc = true ∧ decodeArgsOk s.expect = true ∧
      decodeHeld s = finishRegs s.expect.count
        ((List.range s.expect.count.toNat).map
          fun i => be16 (s.rx.cell (9 + 2 * i)) (s.rx.cell (10 + 2 * i))) s) := by
  cases ha : decodeArgsOk s.expect
  case false =>
    exact .inl ⟨.invalidArgument, by decide, by decide, by decide, by simp [decodeHeld, ha]⟩
  case true =>
    cases hst : s.rx.state
    case complete =>
      simp only [decodeHeld, ha, hst, decodeHeldFrame, Bool.not_true, Bool.false_eq_true, if_false]
      split
      · exact .inl ⟨.malformedResponse, by decide, by decide, by decide, rfl⟩
      split
      · split
        · exact .inl ⟨.malformedResponse, by decide, by decide, by decide, rfl⟩
        · exact .inr (.inl rfl)
      split
      · exact .inl ⟨.malformedResponse, by decide, by decide, by decide, rfl⟩
      split
      · exact .inl ⟨.writeOk, by decide, by decide, by decide, rfl⟩
      split
      · exact .inl ⟨.malformedResponse, by decide, by decide, by decide, rfl⟩
      split
      · exact .inl ⟨.malformedResponse, by decide, by decide, by decide, rfl⟩
      split
      · next hb =>
        split
        · exact .inl ⟨.malformedResponse, by decide, by decide, by decide, rfl⟩
        · exact .inr (.inr (.inl ⟨hb, trivial, rfl⟩))
      · next hw _ _ hb =>
        have hr : isRegRead s.expect.fc = true := by
          cases hrr : isRegRead s.expect.fc
          · simp [decodeArgsOk, hb, hrr, hw] at ha
          · rfl
        split
        · exact .inl ⟨.malformedResponse, by decide, by decide, by decide, rfl⟩
        · exact .inr (.inr (.inr ⟨hr, trivial, rfl⟩))
    case closed => exact .inl ⟨.connectionClosed, by decide, by decide, by decide, by simp [decodeHeld, ha, hst]⟩
    case ioerr => exact .inl ⟨.ioError, by decide, by decide, by decide, by simp [decodeHeld, ha, hst]⟩
    case malformed => exact .inl ⟨.malformedResponse, by decide, by decide, by decide, by simp [decodeHeld, ha, hst]⟩
    all_goals exact .inl ⟨.notReady, by decide, by decide, by decide, by simp [decodeHeld, ha, hst]⟩

/-- An argument check that passes bounds the count of a bit read (R106). -/
theorem bitRead_count {e : Expect} (h : isBitRead e.fc = true) (ha : decodeArgsOk e = true) :
    1 ≤ e.count.toNat ∧ e.count.toNat ≤ 2000 := by
  simpa [decodeArgsOk, h] using ha

/-- An argument check that passes bounds the count of a register read (R106). -/
theorem regRead_count {e : Expect} (h : isRegRead e.fc = true) (ha : decodeArgsOk e = true) :
    1 ≤ e.count.toNat ∧ e.count.toNat ≤ 125 := by
  have hb : isBitRead e.fc = false := by
    simp only [isRegRead, Bool.or_eq_true, beq_iff_eq] at h
    rcases h with h | h <;> simp [isBitRead, h]
  simpa [decodeArgsOk, h, hb] using ha

/-! ## The receive assembler -/

/-- The receive state is collecting bytes. -/
def Receive.collecting (r : Receive) : Bool := r.state == .header || r.state == .body

/-- An event outside HEADER and BODY is dropped (R121). -/
theorem takeByte_of_not_collecting (r : Receive) (b : Byte) (h : r.collecting = false) :
    r.takeByte b = r.dropEvent := by
  cases hs : r.state <;> simp_all [Receive.takeByte, Receive.collecting]

/-- An ending event outside HEADER and BODY is dropped; in them it only sets STATE (R121, R123, R124). -/
theorem endWith_cases (r : Receive) (final : RxState) :
    (r.collecting = true ∧ r.endWith final = { r with state := final }) ∨
    (r.collecting = false ∧ r.endWith final = r.dropEvent) := by
  cases hs : r.state <;> simp [Receive.endWith, Receive.collecting, hs]

/-- Storing a byte below the end of RX_BUF (R122). -/
theorem store_of_lt (r : Receive) (b : Byte) (h : r.fill.val < 260) :
    (r.store b).fill.val = r.fill.val + 1 ∧ (r.store b).state = r.state ∧ (r.store b).drop = r.drop ∧
      (r.store b).buf = r.buf.patch r.fill.val [b] := by
  simp [Receive.store, h]

/-- The cells after a byte is stored: the new byte at RX_FILL, every other cell as before (R58, R122). -/
theorem store_cell (r : Receive) (b : Byte) (h : r.fill.val < 260) (k : Nat) :
    (r.store b).cell k = if k = r.fill.val then b else r.cell k := by
  obtain ⟨_, _, _, hb⟩ := store_of_lt r b h
  simp only [Receive.cell, hb, Cells.get_patch]
  by_cases hk : k = r.fill.val
  · subst hk
    simp [h]
  · rw [if_neg (by simp; omega), if_neg hk]

/-- The checks after a byte change STATE alone. -/
theorem checkLength_fields (r : Receive) :
    r.checkLength.fill = r.fill ∧ r.checkLength.drop = r.drop ∧ r.checkLength.buf = r.buf := by
  unfold Receive.checkLength
  split
  · split <;> exact ⟨rfl, rfl, rfl⟩
  · exact ⟨rfl, rfl, rfl⟩

theorem checkWhole_fields (r : Receive) :
    r.checkWhole.fill = r.fill ∧ r.checkWhole.drop = r.drop ∧ r.checkWhole.buf = r.buf := by
  unfold Receive.checkWhole
  split <;> exact ⟨rfl, rfl, rfl⟩

/-- A byte accepted while collecting: RX_FILL, DROP and RX_BUF are those of the store (R122). -/
theorem takeByte_fields (r : Receive) (b : Byte) (h : r.collecting = true) :
    (r.takeByte b).fill = (r.store b).fill ∧ (r.takeByte b).drop = (r.store b).drop ∧
      (r.takeByte b).buf = (r.store b).buf := by
  cases hs : r.state <;> simp [Receive.collecting, hs] at h
  · simpa [Receive.takeByte, hs] using checkLength_fields (r.store b)
  · simpa [Receive.takeByte, hs] using checkWhole_fields (r.store b)

end Sys2Proof.Machine
end

