-- ==== Sys2Proof/Laws/Effects.lean ====
section
/-! SUPPORT. The operations meet the shapes of effect that claims are stated in (`Emitted`, `Refused`, `Finished`,
`DecodedBits`, `DecodedRegs`), run by a command or by a row of their own. -/

namespace Sys2Proof.Machine

/-- The state an operation starts from: as it is, or with a command begun (R81). -/
def Begins (s₀ s : State) : Prop := s₀ = s ∨ s₀ = beginCommand s

theorem emitted_emit {s₀ s : State} (hs : Begins s₀ s) (bytes : List Byte) (fc : Byte) (count : Word16)
    (hl : bytes.length ≤ 259) : Emitted bytes fc count s (emit bytes fc count s₀) := by
  have hr : s₀.req = s.req ∧ s₀.rx = s.rx ∧ s₀.dec = s.dec ∧ s₀.inputs = s.inputs ∧ s₀.hostReads = s.hostReads ∧
      s₀.tx = s.tx := by
    rcases hs with rfl | rfl <;> exact ⟨rfl, rfl, rfl, rfl, rfl, rfl⟩
  refine ⟨rfl, emit_len _ _ _ _ hl, fun k hk => ?_, fun k hk => ?_, rfl, rfl, hr.1, hr.2.1, hr.2.2.1, hr.2.2.2.1,
    hr.2.2.2.2.1⟩
  · rw [emit_cell, if_pos (by omega)]
  · rw [emit_cell, if_neg (by omega), hr.2.2.2.2.2]

theorem refused_refuse {s₀ s : State} (hs : Begins s₀ s) : Refused s (refuse s₀) := by
  rcases hs with rfl | rfl <;> exact ⟨rfl, rfl, fun _ => rfl, rfl, rfl, rfl, rfl, rfl, rfl⟩

theorem finished_finish {s₀ s : State} (hs : Begins s₀ s) (o : DecOutcome) :
    Finished o 0 .none s (finish o s₀) := by
  rcases hs with rfl | rfl <;>
    exact ⟨rfl, rfl, rfl, rfl, fun _ => rfl, fun _ => rfl, ⟨rfl, rfl, rfl, rfl, rfl, rfl⟩⟩

theorem finished_finishException {s₀ s : State} (hs : Begins s₀ s) (code : Byte) :
    Finished .protocolException code (excKindOf code) s (finishException code s₀) := by
  rcases hs with rfl | rfl <;>
    exact ⟨rfl, rfl, rfl, rfl, fun _ => rfl, fun _ => rfl, ⟨rfl, rfl, rfl, rfl, rfl, rfl⟩⟩

theorem decodedBits_finishBits {s₀ s : State} (hs : Begins s₀ s) {count : Word16} {value : Nat → Bool}
    {values : List Bool} (hl : values.length = count.toNat) (hc : count.toNat ≤ 2000)
    (hv : ∀ i, i < count.toNat → values.getD i false = value i) :
    DecodedBits count value s (finishBits count values s₀) := by
  have hd : s₀.dec = s.dec ∧ DecodeOnly s (finishBits count values s₀) := by
    rcases hs with rfl | rfl <;> exact ⟨rfl, ⟨rfl, rfl, rfl, rfl, rfl, rfl⟩⟩
  refine ⟨rfl, rfl, rfl, rfl, fun i hi => ?_, fun i hi => ?_, fun i => ?_, hd.2⟩
  · show (s₀.dec.bits.patch 0 values).get false i = _
    rw [Cells.get_patch_of_mem _ _ (Nat.zero_le _) (by omega) (by omega)]
    exact hv i hi
  · show (s₀.dec.bits.patch 0 values).get false i = _
    rw [Cells.get_patch_of_not_mem _ _ (by omega), hd.1]
    rfl
  · show s₀.dec.reg i = _
    rw [hd.1]

theorem decodedRegs_finishRegs {s₀ s : State} (hs : Begins s₀ s) {count : Word16} {value : Nat → Word16}
    {values : List Word16} (hl : values.length = count.toNat) (hc : count.toNat ≤ 125)
    (hv : ∀ i, i < count.toNat → values.getD i 0 = value i) :
    DecodedRegs count value s (finishRegs count values s₀) := by
  have hd : s₀.dec = s.dec ∧ DecodeOnly s (finishRegs count values s₀) := by
    rcases hs with rfl | rfl <;> exact ⟨rfl, ⟨rfl, rfl, rfl, rfl, rfl, rfl⟩⟩
  refine ⟨rfl, rfl, rfl, rfl, fun i hi => ?_, fun i hi => ?_, fun i => ?_, hd.2⟩
  · show (s₀.dec.regs.patch 0 values).get 0 i = _
    rw [Cells.get_patch_of_mem _ _ (Nat.zero_le _) (by omega) (by omega)]
    exact hv i hi
  · show (s₀.dec.regs.patch 0 values).get 0 i = _
    rw [Cells.get_patch_of_not_mem _ _ (by omega), hd.1]
    rfl
  · show s₀.dec.bit i = _
    rw [hd.1]

/-- When the argument check of DECODE fails, field by field (R106). -/
theorem decodeArgsOk_eq_false_iff (e : Expect) :
    decodeArgsOk e = false ↔
      e.fc ∉ [1, 2, 3, 4, 5, 6, 15, 16] ∨
      (e.fc = 1 ∨ e.fc = 2) ∧ (e.count.toNat = 0 ∨ 2000 < e.count.toNat) ∨
      (e.fc = 3 ∨ e.fc = 4) ∧ (e.count.toNat = 0 ∨ 125 < e.count.toNat) := by
  unfold decodeArgsOk
  cases hb : isBitRead e.fc
  · cases hr : isRegRead e.fc
    · simp only [Bool.false_eq_true, if_false]
      simp [isBitRead, isRegRead, isWrite] at *
      grind
    · simp only [Bool.false_eq_true, if_false, if_true]
      rw [countInRange_false_iff]
      simp only [Config.maxReadRegs_eq]
      simp [isBitRead, isRegRead] at *
      grind
  · simp only [if_true]
    rw [countInRange_false_iff]
    simp only [Config.maxReadBits_eq]
    simp [isBitRead] at *
    grind

end Sys2Proof.Machine
end

