-- ==== Sys2Proof/Laws/Exec.lean ====
section
/-! SUPPORT. What any instruction can do, said once: the inversion lemma of `exec`, over five small shapes of effect. -/

namespace Sys2Proof.Machine

/-- An encode result on top of `s`: refused, or a request frame emitted with a function code of FCSET (R91). -/
def Encodes (s t : State) : Prop :=
  t = refuse s ∨
  ∃ (tid : Word16) (uid fc : Byte) (body : List Byte) (count : Word16),
    isFunctionCode fc = true ∧ 4 ≤ body.length ∧ body.length ≤ 251 ∧ t = emit (frame tid 0 uid fc body) fc count s

/-- A decode result on top of `s` (R105): an outcome without values, an exception, or the values of a read whose count
the argument check has passed. -/
def Decodes (s t : State) : Prop :=
  (∃ o : DecOutcome, o ≠ .bits ∧ o ≠ .registers ∧ o ≠ .protocolException ∧ t = finish o s) ∨
  (∃ code : Byte, t = finishException code s) ∨
  (∃ values : List Bool, 1 ≤ s.expect.count.toNat ∧ s.expect.count.toNat ≤ 2000 ∧
    values.length = s.expect.count.toNat ∧ t = finishBits s.expect.count values s) ∨
  (∃ values : List Word16, 1 ≤ s.expect.count.toNat ∧ s.expect.count.toNat ≤ 125 ∧
    values.length = s.expect.count.toNat ∧ t = finishRegs s.expect.count values s)

/-- A change of the receive state by an event (R122 to R125). -/
def Receives (s t : State) : Prop :=
  t = s ∨ (∃ b : Byte, t = { s with rx := s.rx.takeByte b }) ∨
  (∃ final : RxState, (final = .closed ∨ final = .ioerr) ∧ t = { s with rx := s.rx.endWith final })

theorem encodes_encodeRead (fc : Byte) (max : Nat) (tid : Word16) (uid : Byte) (addr count : Word16) (s : State)
    (hf : isFunctionCode fc = true) : Encodes s (encodeRead fc max tid uid addr count s) := by
  rcases encodeRead_cases fc max tid uid addr count s with ⟨_, h⟩ | ⟨_, h⟩
  · exact .inl h
  · exact .inr ⟨tid, uid, fc, _, count, hf, by simp, by simp, h⟩

theorem encodes_encodeSingle (fc : Byte) (tid : Word16) (uid : Byte) (addr value : Word16) (s : State)
    (hf : isFunctionCode fc = true) : Encodes s (encodeSingle fc tid uid addr value s) :=
  .inr ⟨tid, uid, fc, _, 1, hf, by simp, by simp, rfl⟩

theorem encodes_encodeMultiple (fc : Byte) (max : Nat) (tid : Word16) (uid : Byte) (addr : Word16) (count : Nat)
    (data : List Byte) (s : State) (hf : isFunctionCode fc = true)
    (hd : 1 ≤ count → count ≤ max → data.length ≤ 246) :
    Encodes s (encodeMultiple fc max tid uid addr count data s) := by
  rcases encodeMultiple_cases fc max tid uid addr count data s with ⟨_, h⟩ | ⟨hc, h⟩
  · exact .inl h
  · have := hd hc.1 hc.2
    refine .inr ⟨tid, uid, fc, _, _, hf, ?_, ?_, h⟩
    · simp
      omega
    · simp
      omega

theorem decodes_whenExpected (fc : Byte) (k : State → State) (s : State)
    (hk : decodeArgsOk s.expect = true → s.expect.fc = fc → Decodes s (k s)) : Decodes s (whenExpected fc k s) := by
  rcases whenExpected_cases fc k s with ⟨_, h⟩ | ⟨_, _, h⟩ | ⟨ha, hf, h⟩
  · exact .inl ⟨_, by decide, by decide, by decide, h⟩
  · exact .inl ⟨_, by decide, by decide, by decide, h⟩
  · rw [h]
    exact hk ha hf

theorem decodes_decodeBitData (data : List Byte) (s : State) (ha : decodeArgsOk s.expect = true)
    (hf : isBitRead s.expect.fc = true) : Decodes s (decodeBitData data s) := by
  unfold decodeBitData
  have hc := bitRead_count hf ha
  simp only
  split
  · exact .inl ⟨_, by decide, by decide, by decide, rfl⟩
  · exact .inr (.inr (.inl ⟨_, hc.1, hc.2, by simp, rfl⟩))

theorem decodes_decodeRegData (data : List Byte) (s : State) (ha : decodeArgsOk s.expect = true)
    (hf : isRegRead s.expect.fc = true) : Decodes s (decodeRegData data s) := by
  unfold decodeRegData
  have hc := regRead_count hf ha
  split
  · exact .inl ⟨_, by decide, by decide, by decide, rfl⟩
  · next h =>
    refine .inr (.inr (.inr ⟨_, hc.1, hc.2, ?_, rfl⟩))
    rw [length_unpackRegs]
    omega

theorem decodes_decodeHeld (s : State) : Decodes s (decodeHeld s) := by
  rcases decodeHeld_cases s with ⟨o, h1, h2, h3, h⟩ | h | ⟨hf, ha, h⟩ | ⟨hf, ha, h⟩
  · exact .inl ⟨o, h1, h2, h3, h⟩
  · exact .inr (.inl ⟨_, h⟩)
  · have hc := bitRead_count hf ha
    exact .inr (.inr (.inl ⟨_, hc.1, hc.2, by simp, h⟩))
  · have hc := regRead_count hf ha
    exact .inr (.inr (.inr ⟨_, hc.1, hc.2, by simp, h⟩))

/-- Whatever an instruction does, it is one of five shapes: an encode or a decode, begun by a command or not, an arming,
or an event of the RX port. -/
theorem exec_cases {i : Instr} {s t : State} (h : exec i s = .next t) :
    ((∃ s₀, (s₀ = s ∨ s₀ = beginCommand s) ∧ Encodes s₀ t) ∧ (∀ bytes, encode i ≠ .response bytes) ∧
      (∀ w, encode i ≠ .event w) ∧ i ≠ .decode ∧ i ≠ .rxArm) ∨
    ((∃ s₀, (s₀ = s ∨ s₀ = beginCommand s) ∧ Decodes s₀ t) ∧
      (i = .decode ∨ ∃ bytes, encode i = .response bytes)) ∨
    (i = .rxArm ∧ t = { beginCommand s with rx := s.rx.arm }) ∨
    (Receives s t ∧ ∃ w, encode i = .event w) := by
  cases i
  case encRc | encRdi | encRhr | encRir =>
    cases h
    exact .inl ⟨⟨_, .inr rfl, encodes_encodeRead _ _ _ _ _ _ _ rfl⟩, by simp [encode]⟩
  case encWsc =>
    refine .inl ⟨⟨_, .inr rfl, ?_⟩, by simp [encode]⟩
    rcases execEncWsc_cases s with ⟨b, _, hb⟩ | ⟨_, _, hb⟩
    · cases hb.symm.trans h
      exact encodes_encodeSingle _ _ _ _ _ _ rfl
    · cases hb.symm.trans h
      exact .inl rfl
  case encWsr =>
    cases h
    exact .inl ⟨⟨_, .inr rfl, encodes_encodeSingle _ _ _ _ _ _ rfl⟩, by simp [encode]⟩
  case encWmc =>
    cases h
    refine .inl ⟨⟨_, .inr rfl, encodes_encodeMultiple _ _ _ _ _ _ _ _ rfl fun _ hc => ?_⟩, by simp [encode]⟩
    simp only [Config.maxWriteCoils_eq] at hc
    rw [length_packBits, length_coilValues _ hc]
    unfold ceil8
    omega
  case encWmr =>
    cases h
    refine .inl ⟨⟨_, .inr rfl, encodes_encodeMultiple _ _ _ _ _ _ _ _ rfl fun _ hc => ?_⟩, by simp [encode]⟩
    simp only [Config.maxWriteRegs_eq] at hc
    rw [length_packRegs, length_regValues _ hc]
    omega
  case decode =>
    cases h
    exact .inr (.inl ⟨⟨_, .inr rfl, decodes_decodeHeld _⟩, .inl rfl⟩)
  case rxArm =>
    cases h
    exact .inr (.inr (.inl ⟨rfl, rfl⟩))
  case rxNone =>
    cases h
    exact .inr (.inr (.inr ⟨.inl rfl, _, rfl⟩))
  case rxByte b =>
    cases h
    exact .inr (.inr (.inr ⟨.inr (.inl ⟨b, rfl⟩), _, rfl⟩))
  case rxEos | rxErr =>
    cases h
    exact .inr (.inr (.inr ⟨.inr (.inr ⟨_, by simp, rfl⟩), _, rfl⟩))
  case reqReadCoils | reqReadDiscreteInputs | reqReadHoldingRegisters | reqReadInputRegisters =>
    cases h
    exact .inl ⟨⟨_, .inl rfl, encodes_encodeRead _ _ _ _ _ _ _ rfl⟩, by simp [encode]⟩
  case reqWriteSingleCoil | reqWriteSingleRegister =>
    cases h
    exact .inl ⟨⟨_, .inl rfl, encodes_encodeSingle _ _ _ _ _ _ rfl⟩, by simp [encode]⟩
  case reqWriteMultipleCoils values =>
    cases h
    refine .inl ⟨⟨_, .inl rfl, encodes_encodeMultiple _ _ _ _ _ _ _ _ rfl fun _ hc => ?_⟩, by simp [encode]⟩
    simp only [Config.maxWriteCoils_eq] at hc
    rw [length_packBits]
    unfold ceil8
    omega
  case reqWriteMultipleRegisters values =>
    cases h
    refine .inl ⟨⟨_, .inl rfl, encodes_encodeMultiple _ _ _ _ _ _ _ _ rfl fun _ hc => ?_⟩, by simp [encode]⟩
    simp only [Config.maxWriteRegs_eq] at hc
    rw [length_packRegs]
    omega
  case rspException =>
    cases h
    refine .inr (.inl ⟨⟨_, .inl rfl, ?_⟩, .inr ⟨_, rfl⟩⟩)
    split
    · exact .inl ⟨_, by decide, by decide, by decide, rfl⟩
    · exact .inr (.inl ⟨_, rfl⟩)
  case rspReadCoils | rspReadDiscreteInputs =>
    cases h
    refine .inr (.inl ⟨⟨_, .inl rfl, decodes_whenExpected _ _ _ fun ha hf => ?_⟩, .inr ⟨_, rfl⟩⟩)
    exact decodes_decodeBitData _ _ ha (by rw [hf]; rfl)
  case rspReadHoldingRegisters | rspReadInputRegisters =>
    cases h
    refine .inr (.inl ⟨⟨_, .inl rfl, decodes_whenExpected _ _ _ fun ha hf => ?_⟩, .inr ⟨_, rfl⟩⟩)
    exact decodes_decodeRegData _ _ ha (by rw [hf]; rfl)
  case rspWriteSingleCoil | rspWriteSingleRegister | rspWriteMultipleCoils | rspWriteMultipleRegisters =>
    cases h
    refine .inr (.inl ⟨⟨_, .inl rfl, decodes_whenExpected _ _ _ fun _ _ => ?_⟩, .inr ⟨_, rfl⟩⟩)
    exact .inl ⟨_, by decide, by decide, by decide, rfl⟩

/-- An encode result changes only TX_* and EXP_* (R91). -/
theorem Encodes.frame {s t : State} (h : Encodes s t) :
    t.cmdIllegal = s.cmdIllegal ∧ t.req = s.req ∧ t.rx = s.rx ∧ t.dec = s.dec ∧ t.inputs = s.inputs ∧
      t.hostReads = s.hostReads := by
  rcases h with rfl | ⟨_, _, _, _, _, _, _, _, rfl⟩ <;> exact ⟨rfl, rfl, rfl, rfl, rfl, rfl⟩

/-- A decode result changes only DEC_* (R105). -/
theorem Decodes.frame {s t : State} (h : Decodes s t) :
    t.cmdIllegal = s.cmdIllegal ∧ t.req = s.req ∧ t.expect = s.expect ∧ t.tx = s.tx ∧ t.rx = s.rx ∧
      t.inputs = s.inputs ∧ t.hostReads = s.hostReads := by
  rcases h with ⟨_, _, _, _, rfl⟩ | ⟨_, rfl⟩ | ⟨_, _, _, _, rfl⟩ | ⟨_, _, _, _, rfl⟩ <;>
    exact ⟨rfl, rfl, rfl, rfl, rfl, rfl, rfl⟩

/-- An event of the RX port changes only the receive state (R122 to R125). -/
theorem Receives.frame {s t : State} (h : Receives s t) :
    t.cmdIllegal = s.cmdIllegal ∧ t.req = s.req ∧ t.expect = s.expect ∧ t.tx = s.tx ∧ t.dec = s.dec ∧
      t.inputs = s.inputs ∧ t.hostReads = s.hostReads := by
  rcases h with rfl | ⟨_, rfl⟩ | ⟨_, _, rfl⟩ <;> exact ⟨rfl, rfl, rfl, rfl, rfl, rfl, rfl⟩

end Sys2Proof.Machine
end

