-- ==== Sys2Proof/Laws/PerInstr.lean ====
section
/-! SUPPORT. Statements about each instruction as syntax, one lemma per constructor. `Fits`: the encoding of a
well-formed instruction stands on the port of its table row and fits it. A command word uses only its OP byte (R78); an
event word is legal (R79); a request frame has 12 to 259 bytes (R32), ProtocolId 0 (R64) and a function code of FCSET at
offset 7 (R82); a response frame has 8 to 260 bytes (R126). -/

namespace Sys2Proof.Laws

/-- The encoding of a well-formed instruction fits the port it stands on. -/
def Fits.Statement (i : Instr) : Prop :=
  i.wellFormed = true →
  match encode i with
  | .command w => w.toNat < 256
  | .event w => w.toNat < 512 ∨ w.toNat = 512 ∨ w.toNat = 768
  | .request bytes =>
    12 ≤ bytes.length ∧ bytes.length ≤ 259 ∧ bytes.getD 2 1 = 0 ∧ bytes.getD 3 1 = 0 ∧
      isFunctionCode (bytes.getD 7 0) = true
  | .response bytes => 8 ≤ bytes.length ∧ bytes.length ≤ 260

theorem Fits.encRc : Fits.Statement .encRc := fun _ => (by decide : 1 < 256)

theorem Fits.encRdi : Fits.Statement .encRdi := fun _ => (by decide : 2 < 256)

theorem Fits.encRhr : Fits.Statement .encRhr := fun _ => (by decide : 3 < 256)

theorem Fits.encRir : Fits.Statement .encRir := fun _ => (by decide : 4 < 256)

theorem Fits.encWsc : Fits.Statement .encWsc := fun _ => (by decide : 5 < 256)

theorem Fits.encWsr : Fits.Statement .encWsr := fun _ => (by decide : 6 < 256)

theorem Fits.encWmc : Fits.Statement .encWmc := fun _ => (by decide : 15 < 256)

theorem Fits.encWmr : Fits.Statement .encWmr := fun _ => (by decide : 16 < 256)

theorem Fits.decode : Fits.Statement .decode := fun _ => (by decide : 32 < 256)

theorem Fits.rxArm : Fits.Statement .rxArm := fun _ => (by decide : 33 < 256)

theorem Fits.rxNone (ignored : Byte) : Fits.Statement (.rxNone ignored) := fun _ => by
  have h := ignored.isLt
  refine .inl ?_
  show ((0b00#2 ++ ignored : BitVec 10)).toNat < 512
  rw [BitVec.toNat_append, Nat.shiftLeft_eq, Nat.mul_comm, ← Nat.two_pow_add_eq_or_of_lt h]
  simp
  omega

theorem Fits.rxByte (data : Byte) : Fits.Statement (.rxByte data) := fun _ => by
  have h := data.isLt
  refine .inl ?_
  show ((0b01#2 ++ data : BitVec 10)).toNat < 512
  rw [BitVec.toNat_append, Nat.shiftLeft_eq, Nat.mul_comm, ← Nat.two_pow_add_eq_or_of_lt h]
  simp
  omega

theorem Fits.rxEos : Fits.Statement .rxEos := fun _ => .inr (.inl rfl)

theorem Fits.rxErr : Fits.Statement .rxErr := fun _ => .inr (.inr rfl)

/-- A REQ-A frame fits (R67). -/
theorem fits_readRequest (fc : Byte) (tid : Word16) (uid : Byte) (addr count : Word16) (h : isFunctionCode fc = true) :
    12 ≤ (readRequest fc tid uid addr count).length ∧ (readRequest fc tid uid addr count).length ≤ 259 ∧
      (readRequest fc tid uid addr count).getD 2 1 = 0 ∧ (readRequest fc tid uid addr count).getD 3 1 = 0 ∧
      isFunctionCode ((readRequest fc tid uid addr count).getD 7 0) = true := by
  rw [readRequest_bytes]
  exact ⟨by simp, by simp, rfl, rfl, h⟩

/-- A REQ-C frame whose data fits TX_BUF fits (R69). -/
theorem fits_multipleRequest (fc : Byte) (tid : Word16) (uid : Byte) (addr : Word16) (count : Nat)
    (data : List Byte) (h : isFunctionCode fc = true) (hd : data.length ≤ 246) :
    12 ≤ (multipleRequest fc tid uid addr count data).length ∧
      (multipleRequest fc tid uid addr count data).length ≤ 259 ∧
      (multipleRequest fc tid uid addr count data).getD 2 1 = 0 ∧
      (multipleRequest fc tid uid addr count data).getD 3 1 = 0 ∧
      isFunctionCode ((multipleRequest fc tid uid addr count data).getD 7 0) = true := by
  refine ⟨?_, ?_, rfl, rfl, h⟩
  · rw [length_multipleRequest]
    omega
  · rw [length_multipleRequest]
    omega

theorem Fits.reqReadCoils (tid : Word16) (uid : Byte) (addr count : Word16) :
    Fits.Statement (.reqReadCoils tid uid addr count) := fun _ => fits_readRequest 1 tid uid addr count rfl

theorem Fits.reqReadDiscreteInputs (tid : Word16) (uid : Byte) (addr count : Word16) :
    Fits.Statement (.reqReadDiscreteInputs tid uid addr count) := fun _ => fits_readRequest 2 tid uid addr count rfl

theorem Fits.reqReadHoldingRegisters (tid : Word16) (uid : Byte) (addr count : Word16) :
    Fits.Statement (.reqReadHoldingRegisters tid uid addr count) := fun _ => fits_readRequest 3 tid uid addr count rfl

theorem Fits.reqReadInputRegisters (tid : Word16) (uid : Byte) (addr count : Word16) :
    Fits.Statement (.reqReadInputRegisters tid uid addr count) := fun _ => fits_readRequest 4 tid uid addr count rfl

theorem Fits.reqWriteSingleCoil (tid : Word16) (uid : Byte) (addr : Word16) (value : Bool) :
    Fits.Statement (.reqWriteSingleCoil tid uid addr value) := fun _ =>
  fits_readRequest 5 tid uid addr (coilWord value) rfl

theorem Fits.reqWriteSingleRegister (tid : Word16) (uid : Byte) (addr value : Word16) :
    Fits.Statement (.reqWriteSingleRegister tid uid addr value) := fun _ => fits_readRequest 6 tid uid addr value rfl

theorem Fits.reqWriteMultipleCoils (tid : Word16) (uid : Byte) (addr : Word16) (values : List Bool) :
    Fits.Statement (.reqWriteMultipleCoils tid uid addr values) := fun h => by
  have hc : 1 ≤ values.length ∧ values.length ≤ 1968 := (countInRange_iff _ _).1 h
  refine fits_multipleRequest 15 tid uid addr values.length (packBits values) rfl ?_
  rw [length_packBits, ceil8]
  omega

theorem Fits.reqWriteMultipleRegisters (tid : Word16) (uid : Byte) (addr : Word16) (values : List Word16) :
    Fits.Statement (.reqWriteMultipleRegisters tid uid addr values) := fun h => by
  have hc : 1 ≤ values.length ∧ values.length ≤ 123 := (countInRange_iff _ _).1 h
  refine fits_multipleRequest 16 tid uid addr values.length (packRegs values) rfl ?_
  rw [length_packRegs]
  omega

theorem Fits.rspException (tid pid : Word16) (uid : Byte) (fc : BitVec 7) (code : Byte) (rest : List Byte) :
    Fits.Statement (.rspException tid pid uid fc code rest) := fun h => by
  have hr : 9 + rest.length ≤ 260 := (fitsRx_iff _ _).1 h
  show 8 ≤ (frame tid pid uid (1#1 ++ fc) (code :: rest)).length ∧ _ ≤ 260
  simp
  omega

theorem Fits.rspReadCoils (tid pid : Word16) (uid : Byte) (data : List Byte) :
    Fits.Statement (.rspReadCoils tid pid uid data) := fun h => by
  have hr : 9 + data.length ≤ 260 := (fitsRx_iff _ _).1 h
  show 8 ≤ (readResponse 1 tid pid uid data).length ∧ (readResponse 1 tid pid uid data).length ≤ 260
  rw [length_readResponse]
  omega

theorem Fits.rspReadDiscreteInputs (tid pid : Word16) (uid : Byte) (data : List Byte) :
    Fits.Statement (.rspReadDiscreteInputs tid pid uid data) := fun h => by
  have hr : 9 + data.length ≤ 260 := (fitsRx_iff _ _).1 h
  show 8 ≤ (readResponse 2 tid pid uid data).length ∧ (readResponse 2 tid pid uid data).length ≤ 260
  rw [length_readResponse]
  omega

theorem Fits.rspReadHoldingRegisters (tid pid : Word16) (uid : Byte) (data : List Byte) :
    Fits.Statement (.rspReadHoldingRegisters tid pid uid data) := fun h => by
  have hr : 9 + data.length ≤ 260 := (fitsRx_iff _ _).1 h
  show 8 ≤ (readResponse 3 tid pid uid data).length ∧ (readResponse 3 tid pid uid data).length ≤ 260
  rw [length_readResponse]
  omega

theorem Fits.rspReadInputRegisters (tid pid : Word16) (uid : Byte) (data : List Byte) :
    Fits.Statement (.rspReadInputRegisters tid pid uid data) := fun h => by
  have hr : 9 + data.length ≤ 260 := (fitsRx_iff _ _).1 h
  show 8 ≤ (readResponse 4 tid pid uid data).length ∧ (readResponse 4 tid pid uid data).length ≤ 260
  rw [length_readResponse]
  omega

theorem Fits.rspWriteSingleCoil (tid pid : Word16) (uid : Byte) (rest : List Byte) :
    Fits.Statement (.rspWriteSingleCoil tid pid uid rest) := fun h => by
  have hr : 8 + rest.length ≤ 260 := (fitsRx_iff _ _).1 h
  show 8 ≤ (frame tid pid uid 5 rest).length ∧ (frame tid pid uid 5 rest).length ≤ 260
  rw [length_frame]
  omega

theorem Fits.rspWriteSingleRegister (tid pid : Word16) (uid : Byte) (rest : List Byte) :
    Fits.Statement (.rspWriteSingleRegister tid pid uid rest) := fun h => by
  have hr : 8 + rest.length ≤ 260 := (fitsRx_iff _ _).1 h
  show 8 ≤ (frame tid pid uid 6 rest).length ∧ (frame tid pid uid 6 rest).length ≤ 260
  rw [length_frame]
  omega

theorem Fits.rspWriteMultipleCoils (tid pid : Word16) (uid : Byte) (rest : List Byte) :
    Fits.Statement (.rspWriteMultipleCoils tid pid uid rest) := fun h => by
  have hr : 8 + rest.length ≤ 260 := (fitsRx_iff _ _).1 h
  show 8 ≤ (frame tid pid uid 15 rest).length ∧ (frame tid pid uid 15 rest).length ≤ 260
  rw [length_frame]
  omega

theorem Fits.rspWriteMultipleRegisters (tid pid : Word16) (uid : Byte) (rest : List Byte) :
    Fits.Statement (.rspWriteMultipleRegisters tid pid uid rest) := fun h => by
  have hr : 8 + rest.length ≤ 260 := (fitsRx_iff _ _).1 h
  show 8 ≤ (frame tid pid uid 16 rest).length ∧ (frame tid pid uid 16 rest).length ≤ 260
  rw [length_frame]
  omega

end Sys2Proof.Laws
end

