-- ==== Sys2Proof/Laws/Window.lean ====
section
/-! SUPPORT. The laws of the register window: which accesses are legal, which element of a register array an offset
is, and the bits of a register word. -/

namespace Sys2Proof.Machine

theorem accessLegal_iff (offset width : Nat) :
    accessLegal offset width = true ↔ width = 4 ∧ offset % 4 = 0 ∧ offset ≤ 0x1FFC := by
  unfold accessLegal
  rw [Bool.and_eq_true, Bool.and_eq_true, beq_iff_eq, beq_iff_eq, decide_eq_true_eq, and_assoc]

theorem accessLegal_four {offset : Nat} (h4 : offset % 4 = 0) (h : offset ≤ 0x1FFC) : accessLegal offset 4 = true :=
  (accessLegal_iff offset 4).2 ⟨rfl, h4, h⟩

/-- Element `i` of an array stands at four bytes times `i` from its base. -/
theorem arrayIndex_eq_some_iff {base n offset : Nat} {i : Fin n} :
    arrayIndex base n offset = some i ↔ offset = base + 4 * i.val := by
  have hi := i.isLt
  unfold arrayIndex
  split
  · next h =>
    rw [Option.some.injEq, Fin.ext_iff]
    simp only
    omega
  · next h =>
    constructor
    · intro h2
      cases h2
    · intro h2
      omega

theorem arrayIndex_eq_none_iff {base n offset : Nat} :
    arrayIndex base n offset = none ↔ ¬(base ≤ offset ∧ (offset - base) / 4 < n ∧ (offset - base) % 4 = 0) := by
  unfold arrayIndex
  split <;> simp_all

/-- A register below 0x400 stands at its own offset. -/
theorem offset_of_scalarAt {offset : Nat} {r : Reg} (hl : offset < 0x400) (h : scalarAt offset = some r) :
    r.offset = offset := by
  have table : ∀ o, o < 0x400 → (scalarAt o).all (fun r => r.offset == o) = true := by decide +kernel
  have := table offset hl
  rw [h] at this
  simpa using this

/-- The aligned offsets below 0x400 without a register (R50). -/
theorem scalarAt_eq_none_iff {offset : Nat} (hl : offset < 0x400) (h4 : offset % 4 = 0) :
    scalarAt offset = none ↔ offset = 0x00C ∨ offset = 0x02C ∨ 0x04C ≤ offset := by
  have table : ∀ o, o < 0x400 → o % 4 = 0 → (scalarAt o = none ↔ o = 0x00C ∨ o = 0x02C ∨ 0x04C ≤ o) := by
    decide +kernel
  exact table offset hl h4

/-- Bit `k` of a word made of 32 bits is bit `k` (R27, R40). -/
theorem getLsbD_wordOfBits (f : Nat → Bool) {k : Nat} (h : k < 32) : (wordOfBits f).getLsbD k = f k := by
  rw [wordOfBits, BitVec.getLsbD_ofNat, testBit_natOfBits]
  simp [List.getD, h]

@[simp] theorem length_bitsOfWord (w : Word32) : (bitsOfWord w).length = 32 := by simp [bitsOfWord]

theorem getD_bitsOfWord (w : Word32) (k : Nat) : (bitsOfWord w).getD k false = w.getLsbD k := by
  by_cases h : k < 32
  · simp [bitsOfWord, List.getD, h]
  · simp [bitsOfWord, List.getD, h, BitVec.getLsbD_of_ge w k (by omega)]

/-- A host write to a register changes no more than REQ_* and EXP_* (R16, R20). -/
theorem writeReg_frame (r : Reg) (v : Word32) (s : State) :
    (writeReg r v s).cmdIllegal = s.cmdIllegal ∧ (writeReg r v s).tx = s.tx ∧ (writeReg r v s).rx = s.rx ∧
      (writeReg r v s).dec = s.dec ∧ (writeReg r v s).inputs = s.inputs ∧
      (writeReg r v s).hostReads = s.hostReads := by
  cases r <;> exact ⟨rfl, rfl, rfl, rfl, rfl, rfl⟩

theorem writeWindow_frame (offset : Nat) (v : Word32) (s : State) :
    (writeWindow offset v s).cmdIllegal = s.cmdIllegal ∧ (writeWindow offset v s).tx = s.tx ∧
      (writeWindow offset v s).rx = s.rx ∧ (writeWindow offset v s).dec = s.dec ∧
      (writeWindow offset v s).inputs = s.inputs ∧ (writeWindow offset v s).hostReads = s.hostReads := by
  unfold writeWindow
  split
  · exact writeReg_frame _ _ _
  · exact ⟨rfl, rfl, rfl, rfl, rfl, rfl⟩

/-- A register that is not read-write stores nothing. -/
theorem writeReg_of_not_rw {r : Reg} (v : Word32) (s : State) (h : r.access ≠ .rw) : writeReg r v s = s := by
  cases r <;> first | rfl | exact absurd rfl h

/-- The low 16 bits of a word, as the mask takes them. -/
theorem and_low16 (v : Word32) : v &&& 0xFFFF = (v.extractLsb' 0 16).setWidth 32 := by
  apply BitVec.eq_of_toNat_eq
  simp only [BitVec.toNat_and, BitVec.toNat_setWidth, BitVec.extractLsb'_toNat]
  rw [show BitVec.toNat (0xFFFF : Word32) = 2 ^ 16 - 1 from rfl, Nat.and_two_pow_sub_one_eq_mod]
  omega

/-- The low 8 bits of a word, as the mask takes them. -/
theorem and_low8 (v : Word32) : v &&& 0xFF = (v.extractLsb' 0 8).setWidth 32 := by
  apply BitVec.eq_of_toNat_eq
  simp only [BitVec.toNat_and, BitVec.toNat_setWidth, BitVec.extractLsb'_toNat]
  rw [show BitVec.toNat (0xFF : Word32) = 2 ^ 8 - 1 from rfl, Nat.and_two_pow_sub_one_eq_mod]
  omega

/-- A coil that does not exist reads 0 (R27). -/
theorem coil_of_le (q : Request) {k : Nat} (h : 1968 ≤ k) : q.coil k = false := Cells.get_of_le _ _ h

/-- A result bit that does not exist reads 0 (R40). -/
theorem bit_of_le (d : Result) {k : Nat} (h : 2000 ≤ k) : d.bit k = false := Cells.get_of_le _ _ h

end Sys2Proof.Machine
end

