-- ==== Sys2Proof/Machine/Platform.lean ====
section
/-! DEFINITION. Several instances of the block side by side (R142): each has its own MBT_BASE, its own transport and its
own register state, and they share no state. A host access goes out by its host address (R49). `step` is the step of one
instance; here a platform says which instance takes it (log 16). -/

namespace Sys2Proof.Machine

/-- One instance of the block: where its window sits and its state (R49, R142). -/
structure Instance where
  base : Nat
  block : State
  deriving DecidableEq, Repr

/-- The instances of a platform, side by side (R142). -/
structure Platform where
  instances : List Instance
  deriving DecidableEq, Repr

/-- A host access by host address (R46, R49). -/
inductive HostAccess where
  | read (address width : Nat)
  | write (address width : Nat) (value : Word32)
  deriving DecidableEq, Repr

/-- Where a host access goes. -/
def HostAccess.address : HostAccess → Nat
  | .read address _ => address
  | .write address _ _ => address

/-- How many bytes a host access is of. -/
def HostAccess.width : HostAccess → Nat
  | .read _ width => width
  | .write _ width _ => width

/-- The input that a host access is at an offset of a window (R47, R48). -/
def HostAccess.atOffset (offset : Nat) : HostAccess → Input
  | .read _ width => .read offset width
  | .write _ width v => .write offset width v

/-- The input that a host access is to an instance with this MBT_BASE: an aligned 32-bit access inside its window is one,
and nothing else is (R46, R49). -/
def HostAccess.inputAt (base : Nat) (a : HostAccess) : Option Input :=
  match Config.windowOffset base a.address with
  | some offset => if accessLegal offset a.width then some (a.atOffset offset) else none
  | none => none

/-- One more input pending on an instance, after those it has (R57). -/
def Instance.enqueue (i : Input) (x : Instance) : Instance :=
  { x with block := { x.block with inputs := x.block.inputs ++ [i] } }

/-- What an instance sees of a host access: one that is no input of its own leaves it as it is. -/
def Instance.see (a : HostAccess) (x : Instance) : Instance :=
  match a.inputAt x.base with
  | some i => x.enqueue i
  | none => x

/-- A host access on the bus of the platform. One that is an input of no instance is refused: it has another width, is
unaligned, or reaches outside the windows (R46, R142, R145 (a)). -/
def Platform.access (a : HostAccess) (p : Platform) : Host.Outcome Platform Fault Refusal :=
  if p.instances.any fun x => (a.inputAt x.base).isSome then .next { instances := p.instances.map (Instance.see a) }
  else .refused (.busAccess a.address a.width)

/-- An event word from the transport of instance `k` (R119, R142). -/
def Platform.event (k : Nat) (w : EventWord) (p : Platform) : Platform :=
  { instances := p.instances.modify k (Instance.enqueue (.event w)) }

/-- Instance `k` takes one step; where there is no such instance, nothing happens (R142). -/
def Platform.stepAt (k : Nat) (p : Platform) : Host.Outcome Platform Fault Refusal :=
  match p.instances[k]? with
  | some x =>
    match step x.block with
    | .next t => .next { instances := p.instances.set k { x with block := t } }
    | .fault r => .fault r
    | .refused r => .refused r
  | none => .next p

/-- The windows of the instances do not overlap: where each sits is the platform's choice (R49). -/
def Platform.Disjoint (p : Platform) : Prop :=
  p.instances.Pairwise fun x y => x.base + Config.windowSize ≤ y.base ∨ y.base + Config.windowSize ≤ x.base

end Sys2Proof.Machine
end

