-- ==== Sys2Proof/Laws/Platform.lean ====
section
/-! SUPPORT. Instances side by side are independent (R142): what a step, an event or a host access does to one leaves the
others as they are, and depends on that one alone. -/

namespace Sys2Proof.Machine

/-- An offset and its host address are one another's inverse, for each MBT_BASE. -/
theorem windowOffset_eq_some_iff {base address offset : Nat} :
    Config.windowOffset base address = some offset ↔
      offset < Config.windowSize ∧ address = Config.busAddress base offset := by
  unfold Config.windowOffset Config.busAddress
  split
  · rw [Option.some.injEq]
    omega
  · constructor
    · rintro ⟨⟩
    · omega

/-- What a step of instance `k` does: that instance takes its own step and keeps its base, and nothing else changes. -/
theorem Platform.stepAt_eq_next_iff {k : Nat} {p q : Platform} {x : Instance} (hx : p.instances[k]? = some x) :
    p.stepAt k = .next q ↔
      ∃ t, step x.block = .next t ∧ q = { instances := p.instances.set k { x with block := t } } := by
  simp only [Platform.stepAt, hx]
  cases step x.block <;> simp [eq_comm]

/-- R142: nothing that instance `k` does affects another one. -/
theorem Platform.stepAt_frame {k j : Nat} {p q : Platform} (h : p.stepAt k = .next q) (hj : j ≠ k) :
    q.instances[j]? = p.instances[j]? := by
  cases hx : p.instances[k]? with
  | none =>
    rw [Platform.stepAt, hx] at h
    cases h
    rfl
  | some x =>
    obtain ⟨t, -, rfl⟩ := (Platform.stepAt_eq_next_iff hx).1 h
    exact List.getElem?_set_ne (Ne.symm hj)

/-- R142: what instance `k` becomes depends on no other one. -/
theorem Platform.stepAt_congr {k : Nat} {p p' q : Platform} (hk : p.instances[k]? = p'.instances[k]?)
    (h : p.stepAt k = .next q) : ∃ q', p'.stepAt k = .next q' ∧ q'.instances[k]? = q.instances[k]? := by
  cases hx : p.instances[k]? with
  | none =>
    refine ⟨p', by rw [Platform.stepAt, ← hk, hx], ?_⟩
    rw [Platform.stepAt, hx] at h
    cases h
    exact hk.symm
  | some x =>
    obtain ⟨t, ht, rfl⟩ := (Platform.stepAt_eq_next_iff hx).1 h
    refine ⟨_, (Platform.stepAt_eq_next_iff (hk ▸ hx)).2 ⟨t, ht, rfl⟩, ?_⟩
    rw [List.getElem?_set_self', List.getElem?_set_self', hk]

/-- R142: steps of two instances give the same platform in either order. -/
theorem Platform.stepAt_comm {j k : Nat} {p q r : Platform} (hjk : j ≠ k) (hj : p.stepAt j = .next q)
    (hk : p.stepAt k = .next r) : ∃ u, q.stepAt k = .next u ∧ r.stepAt j = .next u := by
  have hqk := Platform.stepAt_frame hj hjk.symm
  have hrj := Platform.stepAt_frame hk hjk
  cases hx : p.instances[j]? with
  | none =>
    have hr := hrj.trans hx
    rw [Platform.stepAt, hx] at hj
    cases hj
    exact ⟨r, hk, by rw [Platform.stepAt, hr]⟩
  | some x =>
    cases hy : p.instances[k]? with
    | none =>
      have hq := hqk.trans hy
      rw [Platform.stepAt, hy] at hk
      cases hk
      exact ⟨q, by rw [Platform.stepAt, hq], hj⟩
    | some y =>
      obtain ⟨t, ht, rfl⟩ := (Platform.stepAt_eq_next_iff hx).1 hj
      obtain ⟨u, hu, rfl⟩ := (Platform.stepAt_eq_next_iff hy).1 hk
      refine ⟨_, (Platform.stepAt_eq_next_iff (hqk.trans hy)).2 ⟨u, hu, rfl⟩,
        (Platform.stepAt_eq_next_iff (hrj.trans hx)).2 ⟨t, ht, ?_⟩⟩
      rw [List.set_comm _ _ hjk]

/-- An event of one instance's transport reaches no other one. -/
theorem Platform.event_frame {k j : Nat} (w : EventWord) (p : Platform) (hj : j ≠ k) :
    (p.event k w).instances[j]? = p.instances[j]? := by
  simp [Platform.event, Ne.symm hj]

/-- An input of an instance is an aligned 32-bit access inside its window, at the offset of its address (R46, R49). -/
theorem HostAccess.inputAt_eq_some_iff {base : Nat} {a : HostAccess} {i : Input} :
    a.inputAt base = some i ↔ ∃ offset, a.address = Config.busAddress base offset ∧ a.width = 4 ∧ offset % 4 = 0 ∧
      offset ≤ 0x1FFC ∧ i = a.atOffset offset := by
  unfold HostAccess.inputAt
  constructor
  · intro h
    split at h
    · next offset ho =>
      split at h
      · next hl =>
        obtain ⟨h4, ha, hw⟩ := (accessLegal_iff _ _).1 hl
        exact ⟨offset, (windowOffset_eq_some_iff.1 ho).2, h4, ha, hw, (Option.some.inj h).symm⟩
      · cases h
    · cases h
  · rintro ⟨offset, ha, h4, hm, hw, rfl⟩
    have ho : Config.windowOffset base a.address = some offset :=
      windowOffset_eq_some_iff.2 ⟨by rw [Config.windowSize_eq]; omega, ha⟩
    rw [ho]
    simp only [(accessLegal_iff offset a.width).2 ⟨h4, hm, hw⟩, if_true]

/-- R46: the bus accepts a host access exactly when it is an aligned 32-bit access inside the window of an instance. -/
theorem Platform.access_eq_next_iff {a : HostAccess} {p q : Platform} :
    p.access a = .next q ↔
      (∃ x ∈ p.instances, ∃ offset, a.address = Config.busAddress x.base offset ∧ a.width = 4 ∧ offset % 4 = 0 ∧
        offset ≤ 0x1FFC) ∧ q = { instances := p.instances.map (Instance.see a) } := by
  have hany : (p.instances.any fun x => (a.inputAt x.base).isSome) = true ↔
      ∃ x ∈ p.instances, ∃ offset, a.address = Config.busAddress x.base offset ∧ a.width = 4 ∧ offset % 4 = 0 ∧
        offset ≤ 0x1FFC := by
    simp only [List.any_eq_true, Option.isSome_iff_exists, HostAccess.inputAt_eq_some_iff]
    exact ⟨fun ⟨x, hx, _, o, h1, h2, h3, h4, _⟩ => ⟨x, hx, o, h1, h2, h3, h4⟩,
      fun ⟨x, hx, o, h1, h2, h3, h4⟩ => ⟨x, hx, _, o, h1, h2, h3, h4, rfl⟩⟩
  rw [← hany, Platform.access]
  split
  · next h => simp [h, eq_comm]
  · next h => simp [h]

/-- R145 (a): every other host access is refused. -/
theorem Platform.access_refused {a : HostAccess} {p : Platform} (h : ∀ q, p.access a ≠ .next q) :
    p.access a = .refused (.busAccess a.address a.width) := by
  unfold Platform.access at h ⊢
  split
  · next hany => exact absurd (if_pos hany) (h _)
  · rfl

/-- A host access that is no input of an instance, such as one outside its window, leaves it as
it is. -/
theorem Instance.see_of_none {a : HostAccess} {x : Instance} (h : a.inputAt x.base = none) : x.see a = x := by
  rw [Instance.see, h]

/-- Where no windows overlap, at most one instance sees an address. -/
theorem Platform.windowOffset_unique {p : Platform} (hp : p.Disjoint) {i j : Nat} {x y : Instance} {address a b : Nat}
    (hx : p.instances[i]? = some x) (hy : p.instances[j]? = some y)
    (ha : Config.windowOffset x.base address = some a) (hb : Config.windowOffset y.base address = some b) : i = j := by
  obtain ⟨hi, rfl⟩ := List.getElem?_eq_some_iff.1 hx
  obtain ⟨hj, rfl⟩ := List.getElem?_eq_some_iff.1 hy
  have ha := windowOffset_eq_some_iff.1 ha
  have hb := windowOffset_eq_some_iff.1 hb
  simp only [Config.busAddress] at ha hb
  have hpair := List.pairwise_iff_getElem.1 hp
  rcases Nat.lt_trichotomy i j with h | h | h
  · have := hpair i j hi hj h
    omega
  · exact h
  · have := hpair j i hj hi h
    omega

end Sys2Proof.Machine
end

