-- ==== Sys2Proof/Laws/Step.lean ====
section
/-! SUPPORT. What a step does with each kind of input, said once; proofs about `step` cite these. -/

namespace Sys2Proof.Machine

/-- The arms of the port, by the oldest pending input. -/
theorem step_cons {s : State} {i : Input} {rest : List Input} (hi : s.inputs = i :: rest) :
    step s = accept i { s with inputs := rest } := by
  simp [step, takeInput, hi]

/-- A legal host write runs the command word at offset 0 and stores elsewhere. -/
theorem step_write {s : State} {offset : Nat} {v : Word32} {rest : List Input}
    (hi : s.inputs = .write offset 4 v :: rest) (h4 : offset % 4 = 0) (h : offset ≤ 0x1FFC) :
    step s = if offset = 0 then runCommand v { s with inputs := rest }
      else .next (writeWindow offset v { s with inputs := rest }) := by
  rw [step_cons hi]
  simp [accept, hostWrite, accessLegal_four h4 h]

/-- A legal host read. -/
theorem step_read {s : State} {offset : Nat} {rest : List Input}
    (hi : s.inputs = .read offset 4 :: rest) (h4 : offset % 4 = 0) (h : offset ≤ 0x1FFC) :
    step s = .next { s with inputs := rest, hostReads := s.hostReads ++ [readWindow offset { s with inputs := rest }] } := by
  rw [step_cons hi]
  simp [accept, hostRead, accessLegal_four h4 h]

/-- A legal command word runs its command. -/
theorem runCommand_of_ok {w : Word32} {i : Instr} (s : State) (h : decodeCommand w = .ok i) :
    runCommand w s = exec i s := by
  simp [runCommand, h]

/-- A legal event word runs its event. -/
theorem rxPort_of_ok {w : EventWord} {i : Instr} (s : State) (h : decodeEvent w = .ok i) :
    rxPort w s = exec i s := by
  simp [rxPort, h]

/-- A run takes its first step, then the others. -/
theorem run_succ {s t : State} (n : Nat) (h : step s = .next t) :
    Host.Core.run Sys2Proof.core (n + 1) s = Host.Core.run Sys2Proof.core n t := by
  simp only [Host.Core.run]
  rw [show Sys2Proof.core.step s = .next t from h]

/-- Two runs one after the other are one run. -/
theorem run_add {s t : State} (m n : Nat) (h : Host.Core.run Sys2Proof.core m s = .next t) :
    Host.Core.run Sys2Proof.core (m + n) s = Host.Core.run Sys2Proof.core n t := by
  induction m generalizing s with
  | zero =>
    cases h
    rw [Nat.zero_add]
  | succ m ih =>
    rw [Nat.succ_add]
    simp only [Host.Core.run] at h ⊢
    split at h
    · next s' h' => simpa [h'] using ih h
    · cases h
    · cases h

/-- A window read looks at no pending input. -/
theorem readReg_inputs (r : Reg) (s : State) (rest : List Input) :
    readReg r { s with inputs := rest } = readReg r s := by
  cases r <;> rfl

theorem readWindow_inputs (offset : Nat) (s : State) (rest : List Input) :
    readWindow offset { s with inputs := rest } = readWindow offset s := by
  unfold readWindow
  split
  · exact readReg_inputs _ _ _
  · rfl

/-- What a step that answers a next state did, by the input it took: nothing pending, a host read, a legal command, an
illegal command word, a host write elsewhere, an event, or the reset input. -/
theorem step_cases {s t : State} (h : step s = .next t) :
    (s.inputs = [] ∧ t = s) ∨ ∃ i rest, s.inputs = i :: rest ∧
      ((∃ offset, i = .read offset 4 ∧
          t = { s with inputs := rest, hostReads := s.hostReads ++ [readWindow offset s] }) ∨
        (∃ w j, i = .write 0 4 w ∧ decodeCommand w = .ok j ∧ exec j { s with inputs := rest } = .next t) ∨
        (∃ w e, i = .write 0 4 w ∧ decodeCommand w = .error e ∧ t = { s with inputs := rest, cmdIllegal := true }) ∨
        (∃ offset v, i = .write offset 4 v ∧ offset ≠ 0 ∧ t = writeWindow offset v { s with inputs := rest }) ∨
        (∃ w j, i = .event w ∧ decodeEvent w = .ok j ∧ exec j { s with inputs := rest } = .next t) ∨
        (i = .reset ∧ t = resetInput { s with inputs := rest })) := by
  cases hi : s.inputs with
  | nil =>
    simp only [step, takeInput, hi] at h
    cases h
    exact .inl ⟨rfl, rfl⟩
  | cons i rest =>
    refine .inr ⟨i, rest, rfl, ?_⟩
    rw [step_cons hi] at h
    cases i with
    | read offset w =>
      simp only [accept, hostRead] at h
      split at h
      · cases h
      · next hl =>
        obtain rfl := ((accessLegal_iff offset w).1 (by simpa using hl)).1
        cases h
        exact .inl ⟨offset, rfl, by rw [readWindow_inputs]⟩
    | write offset w v =>
      simp only [accept, hostWrite] at h
      split at h
      · cases h
      · next hl =>
        obtain rfl := ((accessLegal_iff offset w).1 (by simpa using hl)).1
        split at h
        · next ho =>
          subst ho
          unfold runCommand at h
          split at h
          · next j hj => exact .inr (.inl ⟨v, j, rfl, hj, h⟩)
          · next e he =>
            cases h
            exact .inr (.inr (.inl ⟨v, e, rfl, he, rfl⟩))
        · next ho =>
          cases h
          exact .inr (.inr (.inr (.inl ⟨offset, v, rfl, ho, rfl⟩)))
    | event w =>
      simp only [accept, rxPort] at h
      split at h
      · next j hj => exact .inr (.inr (.inr (.inr (.inl ⟨w, j, rfl, hj, h⟩))))
      · cases h
    | reset =>
      cases h
      exact .inr (.inr (.inr (.inr (.inr ⟨rfl, rfl⟩))))

end Sys2Proof.Machine
end

