-- ==== Sys2Proof/Laws/Program.lean ====
section
/-! SUPPORT. What the sequence statements of a host program expand to, and what running their inputs does. -/

namespace Sys2Proof.Machine

/-- The offset formulas give the offsets of the registers there are (R26, R27). -/
@[simp] theorem regvOffset_eq (i : Fin 123) : regvOffset i.val = (Reg.regv i).offset := rfl

@[simp] theorem coilvOffset_eq (j : Fin 62) : coilvOffset j.val = (Reg.coilvWord j).offset := rfl

theorem regAt_regvOffset {i : Nat} (h : i < 123) : regAt (regvOffset i) = some (.regv ⟨i, h⟩) := by
  have h1 : ¬regvOffset i < 0x0400 := by unfold regvOffset; omega
  have h2 : regvOffset i < 0x0600 := by unfold regvOffset; omega
  rw [regAt, if_neg h1, if_pos h2, arrayIndex_eq_some_iff.2 (show regvOffset i = 0x0400 + 4 * (⟨i, h⟩ : Fin 123).val from rfl)]
  rfl

theorem regAt_coilvOffset {j : Nat} (h : j < 62) : regAt (coilvOffset j) = some (.coilvWord ⟨j, h⟩) := by
  have h1 : ¬coilvOffset j < 0x0400 := by unfold coilvOffset; omega
  have h2 : ¬coilvOffset j < 0x0600 := by unfold coilvOffset; omega
  have h3 : coilvOffset j < 0x0800 := by unfold coilvOffset; omega
  rw [regAt, if_neg h1, if_neg h2, if_pos h3,
    arrayIndex_eq_some_iff.2 (show coilvOffset j = 0x0600 + 4 * (⟨j, h⟩ : Fin 62).val from rfl)]
  rfl

/-- A write of `REGV[i]` is one step that stores its low 16 bits. -/
theorem step_writeRegv {s : State} {i : Nat} {v : Word16} {rest : List Input} (h : i < 123)
    (hi : s.inputs = .write (regvOffset i) 4 (v.setWidth 32) :: rest) :
    step s = .next { s with inputs := rest, req := { s.req with regv := s.req.regv.patch i [v] } } := by
  have hv : (v.setWidth 32).extractLsb' 0 16 = v := by
    apply BitVec.eq_of_getLsbD_eq
    intro k hk
    simp [hk, show k < 32 by omega]
  have h0 : regvOffset i ≠ 0 := by unfold regvOffset; omega
  rw [step_write hi (by unfold regvOffset; omega) (by unfold regvOffset; omega), if_neg h0, writeWindow,
    regAt_regvOffset h]
  simp only [writeReg, Request.write, hv]

/-- A write of `COILV.W[j]` is one step that stores its bits. -/
theorem step_writeCoilv {s : State} {j : Nat} {v : Word32} {rest : List Input} (h : j < 62)
    (hi : s.inputs = .write (coilvOffset j) 4 v :: rest) :
    step s = .next { s with inputs := rest, req := { s.req with coilv := s.req.coilv.patch (32 * j) (bitsOfWord v) } } := by
  have h0 : coilvOffset j ≠ 0 := by unfold coilvOffset; omega
  rw [step_write hi (by unfold coilvOffset; omega) (by unfold coilvOffset; omega), if_neg h0, writeWindow,
    regAt_coilvOffset h]
  rfl

/-- Patching nothing changes nothing. -/
@[simp] theorem Cells.patch_nil {α : Type} {n : Nat} (v : Cells α n) (at_ : Nat) : v.patch at_ [] = v := by
  have := v.length_eq
  apply Cells.eq_of_toList_eq
  simp [Cells.patch, List.take_append_drop, ← this]

/-- Patching one run of cells and then the cells after it is patching the whole run. -/
theorem Cells.patch_append {α : Type} {n : Nat} (v : Cells α n) (at_ : Nat) (xs ys : List α) (hx : at_ + xs.length ≤ n) :
    (v.patch at_ xs).patch (at_ + xs.length) ys = v.patch at_ (xs ++ ys) := by
  rcases n with _ | n
  · apply Cells.eq_of_toList_eq
    simp [Cells.patch]
  · have hn : 0 < v.toList.length := by rw [v.length_eq]; omega
    apply Cells.eq_of_get_eq v.toList[0]
    intro k hk
    simp only [Cells.get_patch, List.length_append]
    by_cases h1 : at_ ≤ k
    · by_cases h2 : k < at_ + xs.length
      · rw [if_neg (by omega), if_pos (by omega), if_pos (by omega), List.getD_append _ _ _ _ (by omega)]
      · by_cases h3 : k < at_ + xs.length + ys.length
        · rw [if_pos (by omega), if_pos (by omega), List.getD_append_right _ _ _ _ (by omega)]
          congr 1
          omega
        · rw [if_neg (by omega), if_neg (by omega), if_neg (by omega)]
    · rw [if_neg (by omega), if_neg (by omega), if_neg (by omega)]

/-- Which value sequences SETREGS expands (R87, R145). -/
theorem setRegsFrom_isOk (values : List Int) (i : Nat) :
    (∃ inputs, setRegsFrom i values = .ok inputs) ↔ ∀ v ∈ values, -32768 ≤ v ∧ v ≤ 32767 := by
  induction values generalizing i with
  | nil => simp [setRegsFrom]
  | cons v vs ih =>
    rw [setRegsFrom]
    split
    · next h =>
      constructor
      · rintro ⟨_, ⟨⟩⟩
      · intro hv
        have := hv v (by simp)
        omega
    · next h =>
      have hmap : (∃ inputs, (setRegsFrom (i + 1) vs).map
          (.write (regvOffset i) 4 ((u16 v).setWidth 32) :: ·) = .ok inputs) ↔
          ∃ inputs, setRegsFrom (i + 1) vs = .ok inputs := by
        cases setRegsFrom (i + 1) vs <;> simp [Except.map]
      rw [hmap, ih, List.forall_mem_cons]
      exact ⟨fun hv => ⟨by omega, hv⟩, fun hv => hv.2⟩

/-- Running the writes of SETREGS patches REGV with the 16-bit patterns of the values and changes nothing else. -/
theorem run_setRegsFrom (values : List Int) (i : Nat) (inputs rest : List Input) (s : State)
    (h : i + values.length ≤ 123) (he : setRegsFrom i values = .ok inputs) (hi : s.inputs = inputs ++ rest) :
    inputs.length = values.length ∧
    Host.Core.run Sys2Proof.core inputs.length s =
      .next { s with inputs := rest, req := { s.req with regv := s.req.regv.patch i (values.map u16) } } := by
  induction values generalizing i inputs s with
  | nil =>
    simp only [setRegsFrom, Except.ok.injEq] at he
    subst he
    refine ⟨rfl, ?_⟩
    have hi : s.inputs = rest := hi
    simp only [List.map_nil, Cells.patch_nil, ← hi]
    rfl
  | cons v vs ih =>
    have hlen : i + 1 + vs.length ≤ 123 := by
      rw [List.length_cons] at h
      omega
    rw [setRegsFrom] at he
    split at he
    · cases he
    · cases hr : setRegsFrom (i + 1) vs with
      | error e =>
        rw [hr] at he
        cases he
      | ok tail =>
        rw [hr] at he
        simp only [Except.map, Except.ok.injEq] at he
        subst he
        rw [List.cons_append] at hi
        have hstep := step_writeRegv (by omega : i < 123) hi
        have hrun := ih (i + 1) tail
          { s with inputs := tail ++ rest, req := { s.req with regv := s.req.regv.patch i [u16 v] } } hlen hr rfl
        refine ⟨by rw [List.length_cons, List.length_cons, hrun.1], ?_⟩
        rw [List.length_cons, run_succ _ hstep, hrun.2]
        have hp := Cells.patch_append s.req.regv i [u16 v] (vs.map u16) (by rw [List.length_singleton]; omega)
        rw [List.length_singleton] at hp
        rw [List.map_cons]
        simp only [hp, List.singleton_append]

/-- The bits of `m` words of SETCOILS, in order (R87). -/
theorem flatMap_coilsWord (values : List Bool) (m : Nat) :
    ((List.range m).flatMap fun j => bitsOfWord (coilsWord values j)) =
      (List.range (32 * m)).map fun k => values.getD k false := by
  induction m with
  | zero => rfl
  | succ m ih =>
    rw [List.range_succ, List.flatMap_append, ih, Nat.mul_succ, List.range_add, List.map_append, List.map_map,
      List.flatMap_singleton]
    congr 1
    apply List.map_congr_left
    intro k hk
    exact getLsbD_wordOfBits _ (List.mem_range.1 hk)

/-- Running the writes of the first `m` words of SETCOILS patches COILV with their bits and changes nothing else. -/
theorem run_coilWrites (values : List Bool) (m : Nat) (rest : List Input) (s : State) (h : m ≤ 62)
    (hi : s.inputs = ((List.range m).map fun j => .write (coilvOffset j) 4 (coilsWord values j)) ++ rest) :
    Host.Core.run Sys2Proof.core m s = .next { s with
      inputs := rest,
      req := { s.req with coilv := s.req.coilv.patch 0 ((List.range (32 * m)).map fun k => values.getD k false) } } := by
  induction m generalizing rest with
  | zero =>
    have hi : s.inputs = rest := hi
    simp only [Nat.mul_zero, List.range_zero, List.map_nil, Cells.patch_nil, ← hi]
    rfl
  | succ m ih =>
    rw [List.range_succ, List.map_append, List.append_assoc] at hi
    have hrun := ih (.write (coilvOffset m) 4 (coilsWord values m) :: rest) (by omega) hi
    rw [run_add m 1 hrun, run_succ 0 (step_writeCoilv (by omega : m < 62) rfl)]
    have hp := Cells.patch_append s.req.coilv 0 ((List.range (32 * m)).map fun k => values.getD k false)
      (bitsOfWord (coilsWord values m)) (by rw [List.length_map, List.length_range]; omega)
    rw [List.length_map, List.length_range, Nat.zero_add] at hp
    have hb : (List.range (32 * (m + 1))).map (fun k => values.getD k false) =
        (List.range (32 * m)).map (fun k => values.getD k false) ++ bitsOfWord (coilsWord values m) := by
      rw [← flatMap_coilsWord, ← flatMap_coilsWord, List.range_succ, List.flatMap_append, List.flatMap_singleton]
    rw [hb, ← hp]
    rfl

/-- The writes of SETCOILS, one for each 32 values. -/
@[simp] theorem length_setCoils (values : List Bool) : (setCoils values).length = (values.length + 31) / 32 := by
  rw [setCoils, List.length_map, List.length_range]

end Sys2Proof.Machine
end

