-- ==== Sys2Proof/Laws/Receive.lean ====
section
/-! SUPPORT. The receive assembler's laws: what keeps its invariant, what its events keep of the frame, and the number of
bytes it needs. -/

namespace Sys2Proof.Machine

theorem collecting_iff (r : Receive) : r.collecting = true ↔ r.state = .header ∨ r.state = .body := by
  simp [Receive.collecting]

theorem collecting_false_iff (r : Receive) : r.collecting = false ↔ r.state ≠ .header ∧ r.state ≠ .body := by
  rw [← Bool.not_eq_true, collecting_iff, not_or]

/-- The Length field is that of two cells. -/
theorem length_congr {r r' : Receive} (h4 : r'.cell 4 = r.cell 4) (h5 : r'.cell 5 = r.cell 5) :
    r'.length = r.length := by
  simp [Receive.length, h4, h5]

/-- Where bytes are collected there is room for one more (R129). -/
theorem fill_lt_of_inv {r : Receive} (h : r.Inv) (hc : r.collecting = true) : r.fill.val < 260 := by
  rcases (collecting_iff r).1 hc with h' | h' <;> simp only [Receive.Inv, h'] at h <;> omega

/-- A byte keeps the invariant (R129). -/
theorem takeByte_inv {r : Receive} (b : Byte) (h : r.Inv) : (r.takeByte b).Inv := by
  cases hs : r.state
  case header =>
    have hf : r.fill.val ≤ 5 := by simpa [Receive.Inv, hs] using h
    obtain ⟨h1, h2, _, _⟩ := store_of_lt r b (by omega)
    simp only [Receive.takeByte, hs, Receive.checkLength]
    split
    · next h6 =>
      split
      · exact h6
      · next hb =>
        simp only [Config.rxCap_eq] at hb
        show 6 ≤ (r.store b).fill.val ∧ (r.store b).fill.val < 6 + (r.store b).length ∧ 2 ≤ (r.store b).length ∧
          (r.store b).length ≤ 254
        omega
    · simp only [Receive.Inv, h2, hs]
      omega
  case body =>
    have hf : 6 ≤ r.fill.val ∧ r.fill.val < 6 + r.length ∧ 2 ≤ r.length ∧ r.length ≤ 254 := by
      simpa [Receive.Inv, hs] using h
    obtain ⟨h1, h2, _, _⟩ := store_of_lt r b (by omega)
    have hl : (r.store b).length = r.length := by
      apply length_congr <;> rw [store_cell r b (by omega), if_neg (by omega)]
    simp only [Receive.takeByte, hs, Receive.checkWhole]
    split
    · show (r.store b).fill.val = 6 + (r.store b).length ∧ 8 ≤ (r.store b).fill.val ∧ (r.store b).fill.val ≤ 260
      omega
    · simp only [Receive.Inv, h2, hs]
      omega
  all_goals
    simp only [Receive.takeByte, hs, Receive.dropEvent]
    simpa [Receive.Inv, hs, Receive.length, Receive.cell] using h

/-- The end of the stream and an IOError keep the invariant (R129). -/
theorem endWith_inv {r : Receive} {final : RxState} (hf : final = .closed ∨ final = .ioerr) (h : r.Inv) :
    (r.endWith final).Inv := by
  cases hs : r.state
  case header =>
    have : r.fill.val ≤ 5 := by simpa [Receive.Inv, hs] using h
    rcases hf with rfl | rfl <;> (simp only [Receive.endWith, hs, Receive.Inv]; omega)
  case body =>
    have hb : 6 ≤ r.fill.val ∧ r.fill.val < 6 + r.length ∧ 2 ≤ r.length ∧ r.length ≤ 254 := by
      simpa [Receive.Inv, hs] using h
    rcases hf with rfl | rfl <;> (simp only [Receive.endWith, hs, Receive.Inv]; exact fun _ => hb.2.1)
  all_goals
    simp only [Receive.endWith, hs, Receive.dropEvent]
    simpa [Receive.Inv, hs, Receive.length, Receive.cell] using h

/-- A byte keeps every byte of the current frame (R58). -/
theorem takeByte_keeps (r : Receive) (b : Byte) :
    r.fill.val ≤ (r.takeByte b).fill.val ∧ ∀ k, k < r.fill.val → (r.takeByte b).cell k = r.cell k := by
  cases hc : r.collecting
  · rw [takeByte_of_not_collecting r b hc]
    exact ⟨Nat.le_refl _, fun _ _ => rfl⟩
  · obtain ⟨h1, _, h3⟩ := takeByte_fields r b hc
    rw [h1]
    simp only [Receive.cell, h3]
    by_cases h : r.fill.val < 260
    · obtain ⟨h1, _⟩ := store_of_lt r b h
      exact ⟨by omega, fun k hk => (store_cell r b h k).trans (if_neg (by omega))⟩
    · rw [show r.store b = r by simp [Receive.store, h]]
      exact ⟨Nat.le_refl _, fun _ _ => rfl⟩

theorem need_of_header {r : Receive} (h : r.state = .header) : r.need = 6 - r.fill.val := by
  simp [Receive.need, h]

theorem need_of_body {r : Receive} (h : r.state = .body) : r.need = 6 + r.length - r.fill.val := by
  simp [Receive.need, h]

theorem need_of_not_collecting {r : Receive} (h : r.collecting = false) : r.need = 0 := by
  cases hs : r.state <;> simp_all [Receive.need, Receive.collecting]

/-- The frame held, byte by byte (R35). -/
theorem getD_frame (r : Receive) {k : Nat} (h : k < r.fill.val) : r.frame.getD k 0 = r.cell k :=
  Cells.take_getD _ _ _ _ h

theorem length_rxFrame (r : Receive) : r.frame.length = r.fill.val :=
  Cells.length_take _ (by have := r.fill.isLt; omega)

end Sys2Proof.Machine
end

