-- ==== Sys2Proof/Tests/Slice0.lean ====
section
/-! SUPPORT. The model's own tests. Expected values come from spec/95_test_vectors.md (the vector is named in each
docstring) or are written out by hand from the encodings of spec/30_encoding.md. The witness theorems show concrete
states and operands that meet the hypotheses of each obligation, at the boundaries its clauses meet at. -/

namespace Sys2Proof.Tests

open Sys2Proof.Machine

set_option Elab.async false

/-! ## Small states -/

/-- What a next state must satisfy; a fault or a refusal fails the test. -/
def after (a : Answer) (p : State → Bool) : Bool :=
  match a with
  | .next t => p t
  | .fault _ => false
  | .refused _ => false

/-- The answer is this refusal. -/
def refusedWith (a : Answer) (r : Refusal) : Bool :=
  match a with
  | .next _ => false
  | .fault _ => false
  | .refused r' => r' == r

/-- Reset, with the scalar operand registers written. -/
def ops (uid : Byte) (tid addr count value : Word16) : State :=
  { State.reset with
    req := { Request.reset with uid := uid, tid := tid, addr := addr, count := count, value := value } }

/-- Reset, with operands and REGV written from REGV[0] on. -/
def regOps (uid : Byte) (tid addr count : Word16) (values : List Word16) : State :=
  { State.reset with
    req := { Request.reset with
      uid := uid, tid := tid, addr := addr, count := count, regv := Request.reset.regv.patch 0 values } }

/-- Reset, with operands and COILV written from COILV[0] on. -/
def coilOps (uid : Byte) (tid addr count : Word16) (values : List Bool) : State :=
  { State.reset with
    req := { Request.reset with
      uid := uid, tid := tid, addr := addr, count := count, coilv := Request.reset.coilv.patch 0 values } }

/-- Reset, with these bytes received and the assembler in a state. -/
def rxWith (st : RxState) (bytes : List Byte) : State :=
  { State.reset with
    rx := { state := st, drop := false, fill := Fin.ofNat 261 bytes.length, buf := Receive.reset.buf.patch 0 bytes } }

/-- A whole frame held and the expected values written. -/
def held (fc : Byte) (count : Word16) (bytes : List Byte) : State :=
  { rxWith .complete bytes with expect := { fc := fc, count := count } }

/-- Reset, with these inputs pending. -/
def pending (inputs : List Input) : State := { State.reset with inputs := inputs }

/-- A successful encode sent this frame and expects this response. -/
def sends (bytes : List Byte) (fc : Byte) (count : Word16) (t : State) : Bool :=
  t.tx.result == .ok && t.tx.frame == bytes && t.expect == { fc := fc, count := count }

/-- A refused encode: RESULT = INVALID_ARGUMENT, TX_LEN = 0, EXP_* at reset values. -/
def refuses (t : State) : Bool :=
  t.tx.result == .invalidArgument && t.tx.len.val == 0 && t.expect == Expect.reset

/-- DEC_OUTCOME, DEC_COUNT and the DEC_EXC register. -/
def decoded (o : DecOutcome) (count : Word16) (exc : Word32) (t : State) : Bool :=
  t.dec.outcome == o && t.dec.count == count && readReg .decExc t == exc

/-- RX_STATUS and RX_FILL and RX_NEED as the host reads them. -/
def receives (status fill need : Word32) (t : State) : Bool :=
  readReg .rxStatus t == status && readReg .rxFill t == fill && readReg .rxNeed t == need

/-! ## WellFormed refuses ill-formed terms, one per check -/

theorem test_wf_reqReadCoils_zero :
    Instr.wellFormed (.reqReadCoils 1 1 0 0) = false := by
  decide +kernel

theorem test_wf_reqReadCoils_above :
    Instr.wellFormed (.reqReadCoils 1 1 0 2001) = false := by
  decide +kernel

theorem test_wf_reqReadDiscreteInputs_above :
    Instr.wellFormed (.reqReadDiscreteInputs 1 1 0 2001) = false := by
  decide +kernel

theorem test_wf_reqReadHoldingRegisters_above :
    Instr.wellFormed (.reqReadHoldingRegisters 1 1 0 126) = false := by
  decide +kernel

theorem test_wf_reqReadInputRegisters_zero :
    Instr.wellFormed (.reqReadInputRegisters 1 1 0 0) = false := by
  decide +kernel

theorem test_wf_reqWriteMultipleCoils_empty :
    Instr.wellFormed (.reqWriteMultipleCoils 1 1 0 []) = false := by
  decide +kernel

theorem test_wf_reqWriteMultipleCoils_above :
    Instr.wellFormed (.reqWriteMultipleCoils 1 1 0 (List.replicate 1969 true)) = false := by
  decide +kernel

theorem test_wf_reqWriteMultipleRegisters_above :
    Instr.wellFormed (.reqWriteMultipleRegisters 1 1 0 (List.replicate 124 7)) = false := by
  decide +kernel

theorem test_wf_rspException_long :
    Instr.wellFormed (.rspException 1 0 1 3 2 (List.replicate 252 0)) = false := by
  decide +kernel

theorem test_wf_rspReadCoils_long :
    Instr.wellFormed (.rspReadCoils 1 0 1 (List.replicate 252 0)) = false := by
  decide +kernel

theorem test_wf_rspReadDiscreteInputs_long :
    Instr.wellFormed (.rspReadDiscreteInputs 1 0 1 (List.replicate 252 0)) = false := by
  decide +kernel

theorem test_wf_rspReadHoldingRegisters_long :
    Instr.wellFormed (.rspReadHoldingRegisters 1 0 1 (List.replicate 252 0)) = false := by
  decide +kernel

theorem test_wf_rspReadInputRegisters_long :
    Instr.wellFormed (.rspReadInputRegisters 1 0 1 (List.replicate 252 0)) = false := by
  decide +kernel

theorem test_wf_rspWriteSingleCoil_long :
    Instr.wellFormed (.rspWriteSingleCoil 1 0 1 (List.replicate 253 0)) = false := by
  decide +kernel

theorem test_wf_rspWriteSingleRegister_long :
    Instr.wellFormed (.rspWriteSingleRegister 1 0 1 (List.replicate 253 0)) = false := by
  decide +kernel

theorem test_wf_rspWriteMultipleCoils_long :
    Instr.wellFormed (.rspWriteMultipleCoils 1 0 1 (List.replicate 253 0)) = false := by
  decide +kernel

theorem test_wf_rspWriteMultipleRegisters_long :
    Instr.wellFormed (.rspWriteMultipleRegisters 1 0 1 (List.replicate 253 0)) = false := by
  decide +kernel

/-! ## Decoding: words written out from the spec's encodings -/

/-- R78: bits [31:8] are 0, OP = 0x01. -/
theorem test_decode_encRc : decode (.command 0b00000000000000000000000000000001) = .ok .encRc := by decide

/-- R78: bits [31:8] are 0, OP = 0x02. -/
theorem test_decode_encRdi : decode (.command 0b00000000000000000000000000000010) = .ok .encRdi := by decide

/-- R78: bits [31:8] are 0, OP = 0x03. -/
theorem test_decode_encRhr : decode (.command 0b00000000000000000000000000000011) = .ok .encRhr := by decide

/-- R78: bits [31:8] are 0, OP = 0x04. -/
theorem test_decode_encRir : decode (.command 0b00000000000000000000000000000100) = .ok .encRir := by decide

/-- R78: bits [31:8] are 0, OP = 0x05. -/
theorem test_decode_encWsc : decode (.command 0b00000000000000000000000000000101) = .ok .encWsc := by decide

/-- R78: bits [31:8] are 0, OP = 0x06. -/
theorem test_decode_encWsr : decode (.command 0b00000000000000000000000000000110) = .ok .encWsr := by decide

/-- R78: bits [31:8] are 0, OP = 0x0F. -/
theorem test_decode_encWmc : decode (.command 0b00000000000000000000000000001111) = .ok .encWmc := by decide

/-- R78: bits [31:8] are 0, OP = 0x10. -/
theorem test_decode_encWmr : decode (.command 0b00000000000000000000000000010000) = .ok .encWmr := by decide

/-- R78: bits [31:8] are 0, OP = 0x20. -/
theorem test_decode_decode : decode (.command 0b00000000000000000000000000100000) = .ok .decode := by decide

/-- R78: bits [31:8] are 0, OP = 0x21. -/
theorem test_decode_rxArm : decode (.command 0b00000000000000000000000000100001) = .ok .rxArm := by decide

/-- R79: KIND 0b00; DATA is ignored. -/
theorem test_decode_rxNone : decode (.event 0b0010100101) = .ok (.rxNone 0xA5) := by decide

/-- R79: KIND 0b01, DATA is the byte. -/
theorem test_decode_rxByte : decode (.event 0b0110001101) = .ok (.rxByte 0x8D) := by decide

/-- R79: KIND 0b10, DATA 0. -/
theorem test_decode_rxEos : decode (.event 0b1000000000) = .ok .rxEos := by decide

/-- R79: KIND 0b11, DATA 0. -/
theorem test_decode_rxErr : decode (.event 0b1100000000) = .ok .rxErr := by decide

/-- R80, K2: bit 8 set is no command; K5: OP 0x11 is none either. -/
theorem test_decode_illegalCommand :
    decode (.command 0x00000121) = .error .illegalCommand ∧ decode (.command 0x00000011) = .error .illegalCommand
        := by
  decide

/-- R125: 0x201 is an RX_EOS word with DATA not 0. -/
theorem test_decode_illegalEvent : decode (.event 0x201) = .error .eventDataNotZero := by decide

/-- E2. -/
theorem test_decode_reqReadCoils :
    decode (.request [0xFF, 0xFF, 0x00, 0x00, 0x00, 0x06, 0xFF, 0x01, 0xFF, 0xFF, 0x07, 0xD0]) =
      .ok (.reqReadCoils 0xFFFF 0xFF 0xFFFF 2000) := by
  decide

/-- E6. -/
theorem test_decode_reqReadDiscreteInputs :
    decode (.request [0x00, 0x01, 0x00, 0x00, 0x00, 0x06, 0x01, 0x02, 0x00, 0x00, 0x07, 0xD0]) =
      .ok (.reqReadDiscreteInputs 0x0001 0x01 0x0000 2000) := by
  decide

/-- E8. -/
theorem test_decode_reqReadHoldingRegisters :
    decode (.request [0xAB, 0xCD, 0x00, 0x00, 0x00, 0x06, 0x11, 0x03, 0x12, 0x34, 0x00, 0x7D]) =
      .ok (.reqReadHoldingRegisters 0xABCD 0x11 0x1234 125) := by
  decide

/-- E11. -/
theorem test_decode_reqReadInputRegisters :
    decode (.request [0x00, 0x01, 0x00, 0x00, 0x00, 0x06, 0x01, 0x04, 0x00, 0x00, 0x00, 0x01]) =
      .ok (.reqReadInputRegisters 0x0001 0x01 0x0000 1) := by
  decide

/-- W2. -/
theorem test_decode_reqWriteSingleCoil :
    decode (.request [0x00, 0x01, 0x00, 0x00, 0x00, 0x06, 0x01, 0x05, 0xFF, 0xFF, 0xFF, 0x00]) =
      .ok (.reqWriteSingleCoil 0x0001 0x01 0xFFFF true) := by
  decide

/-- S9. -/
theorem test_decode_reqWriteSingleRegister :
    decode (.request [0x00, 0x03, 0x00, 0x00, 0x00, 0x06, 0x01, 0x06, 0x00, 0x01, 0xFF, 0xFF]) =
      .ok (.reqWriteSingleRegister 0x0003 0x01 0x0001 0xFFFF) := by
  decide

/-- S2. -/
theorem test_decode_reqWriteMultipleCoils :
    decode (.request [0x00, 0x04, 0x00, 0x00, 0x00, 0x09, 0x01, 0x0F, 0x00, 0x13, 0x00, 0x09, 0x02, 0x8D, 0x01]) =
      .ok (.reqWriteMultipleCoils 0x0004 0x01 0x0013 [true, false, true, true, false, false, false, true, true]) := by
  decide

/-- W10. -/
theorem test_decode_reqWriteMultipleRegisters :
    decode (.request [0x00, 0x05, 0x00, 0x00, 0x00, 0x0B, 0x01, 0x10, 0x00, 0x01, 0x00, 0x02, 0x04, 0x00, 0x0A,
        0x01, 0x02]) =
      .ok (.reqWriteMultipleRegisters 0x0005 0x01 0x0001 [0x000A, 0x0102]) := by
  decide

/-- D8. -/
theorem test_decode_rspException :
    decode (.response [0x00, 0x09, 0x00, 0x00, 0x00, 0x03, 0x01, 0x84, 0xFF]) =
      .ok (.rspException 0x0009 0x0000 0x01 0x04 0xFF []) := by
  decide

/-- D13. -/
theorem test_decode_rspReadCoils :
    decode (.response [0x00, 0x07, 0x00, 0x00, 0x00, 0x05, 0x01, 0x01, 0x02, 0x8D, 0x01]) =
      .ok (.rspReadCoils 0x0007 0x0000 0x01 [0x8D, 0x01]) := by
  decide

/-- D14. -/
theorem test_decode_rspReadDiscreteInputs :
    decode (.response [0x00, 0x07, 0x00, 0x00, 0x00, 0x05, 0x01, 0x02, 0x02, 0x8D, 0xFF]) =
      .ok (.rspReadDiscreteInputs 0x0007 0x0000 0x01 [0x8D, 0xFF]) := by
  decide

/-- D1. -/
theorem test_decode_rspReadHoldingRegisters :
    decode (.response [0x00, 0x01, 0x00, 0x00, 0x00, 0x09, 0x01, 0x03, 0x06, 0x02, 0x2B, 0x00, 0x00, 0x00, 0x64]) =
      .ok (.rspReadHoldingRegisters 0x0001 0x0000 0x01 [0x02, 0x2B, 0x00, 0x00, 0x00, 0x64]) := by
  decide

/-- D2. -/
theorem test_decode_rspReadInputRegisters :
    decode (.response [0x00, 0x01, 0x00, 0x00, 0x00, 0x05, 0x01, 0x04, 0x02, 0x80, 0x01]) =
      .ok (.rspReadInputRegisters 0x0001 0x0000 0x01 [0x80, 0x01]) := by
  decide

/-- D21. -/
theorem test_decode_rspWriteSingleCoil :
    decode (.response [0x00, 0x02, 0x00, 0x00, 0x00, 0x06, 0x01, 0x05, 0x00, 0x05, 0xFF, 0x00]) =
      .ok (.rspWriteSingleCoil 0x0002 0x0000 0x01 [0x00, 0x05, 0xFF, 0x00]) := by
  decide

/-- R72, function code 6, a ProtocolId that nothing checks. -/
theorem test_decode_rspWriteSingleRegister :
    decode (.response [0x00, 0x03, 0x12, 0x34, 0x00, 0x06, 0x01, 0x06, 0x00, 0x01, 0xFF, 0xFF]) =
      .ok (.rspWriteSingleRegister 0x0003 0x1234 0x01 [0x00, 0x01, 0xFF, 0xFF]) := by
  decide

/-- D23. -/
theorem test_decode_rspWriteMultipleCoils :
    decode (.response [0x00, 0x04, 0x00, 0x00, 0x00, 0x06, 0x01, 0x0F, 0x99, 0x99, 0x00, 0x01]) =
      .ok (.rspWriteMultipleCoils 0x0004 0x0000 0x01 [0x99, 0x99, 0x00, 0x01]) := by
  decide

/-- D22, the shortest frame. -/
theorem test_decode_rspWriteMultipleRegisters :
    decode (.response [0x00, 0x05, 0x00, 0x00, 0x00, 0x02, 0x01, 0x10]) =
      .ok (.rspWriteMultipleRegisters 0x0005 0x0000 0x01 []) := by
  decide

/-- D10: an exception frame of eight bytes; D12: function code 0x2B; D17: a byte count of 3 for two data bytes. -/
theorem test_decode_badResponses :
    decode (.response [0x00, 0x09, 0x00, 0x00, 0x00, 0x02, 0x01, 0x83]) = .error .frameTooShort ∧
    decode (.response [0x00, 0x01, 0x00, 0x00, 0x00, 0x05, 0x01, 0x2B, 0x02, 0x00, 0x01]) =
      .error .unknownFunctionCode ∧
    decode (.response [0x00, 0x07, 0x00, 0x00, 0x00, 0x05, 0x01, 0x01, 0x03, 0x8D, 0x01]) =
      .error .byteCountMismatch := by
  decide

/-! ## One step of each instruction -/

/-- E2. -/
theorem test_encRc_limit :
    after (exec .encRc (ops 0xFF 0xFFFF 0xFFFF 2000 0))
      (sends [0xFF, 0xFF, 0x00, 0x00, 0x00, 0x06, 0xFF, 0x01, 0xFF, 0xFF, 0x07, 0xD0] 1 2000) = true := by
  decide +kernel

/-- E4. -/
theorem test_encRc_above :
    after (exec .encRc (ops 0x01 0x0001 0x0000 2001 0))
      (refuses) = true := by
  decide +kernel

/-- E6. -/
theorem test_encRdi_limit :
    after (exec .encRdi (ops 0x01 0x0001 0x0000 2000 0))
      (sends [0x00, 0x01, 0x00, 0x00, 0x00, 0x06, 0x01, 0x02, 0x00, 0x00, 0x07, 0xD0] 2 2000) = true := by
  decide +kernel

/-- E7. -/
theorem test_encRdi_above :
    after (exec .encRdi (ops 0x01 0x0001 0x0000 2001 0))
      (refuses) = true := by
  decide +kernel

/-- E8. -/
theorem test_encRhr_limit :
    after (exec .encRhr (ops 0x11 0xABCD 0x1234 125 0))
      (sends [0xAB, 0xCD, 0x00, 0x00, 0x00, 0x06, 0x11, 0x03, 0x12, 0x34, 0x00, 0x7D] 3 125) = true := by
  decide +kernel

/-- E9. -/
theorem test_encRhr_above :
    after (exec .encRhr (ops 0x01 0x0001 0x0000 126 0))
      (refuses) = true := by
  decide +kernel

/-- E11. -/
theorem test_encRir_one :
    after (exec .encRir (ops 0x01 0x0001 0x0000 1 0))
      (sends [0x00, 0x01, 0x00, 0x00, 0x00, 0x06, 0x01, 0x04, 0x00, 0x00, 0x00, 0x01] 4 1) = true := by
  decide +kernel

/-- E12. -/
theorem test_encRir_zero :
    after (exec .encRir (ops 0x01 0x0001 0x0000 0 0))
      (refuses) = true := by
  decide +kernel

/-- W2. -/
theorem test_encWsc_true :
    after (exec .encWsc (ops 0x01 0x0001 0xFFFF 0 1))
      (sends [0x00, 0x01, 0x00, 0x00, 0x00, 0x06, 0x01, 0x05, 0xFF, 0xFF, 0xFF, 0x00] 5 1) = true := by
  decide +kernel

/-- W4: 0xFF00 is the wire form, not a boolean. -/
theorem test_encWsc_wireForm :
    after (exec .encWsc (ops 0x01 0x0001 0x0000 0 0xFF00))
      (refuses) = true := by
  decide +kernel

/-- W6. -/
theorem test_encWsr_min :
    after (exec .encWsr (ops 0x01 0x0001 0x0002 0 0x8000))
      (sends [0x00, 0x01, 0x00, 0x00, 0x00, 0x06, 0x01, 0x06, 0x00, 0x02, 0x80, 0x00] 6 1) = true := by
  decide +kernel

/-- S9. -/
theorem test_encWsr_minusOne :
    after (exec .encWsr (ops 0x01 0x0003 0x0001 0 (u16 (-1))))
      (sends [0x00, 0x03, 0x00, 0x00, 0x00, 0x06, 0x01, 0x06, 0x00, 0x01, 0xFF, 0xFF] 6 1) = true := by
  decide +kernel

/-- W15: pad bits are 0 whatever COILV holds past the count. -/
theorem test_encWmc_pads :
    after (exec .encWmc (coilOps 0x01 0x0007 0x0000 1 [true, true, true]))
      (sends [0x00, 0x07, 0x00, 0x00, 0x00, 0x08, 0x01, 0x0F, 0x00, 0x00, 0x00, 0x01, 0x01, 0x01] 15 1) = true := by
  decide +kernel

/-- W18: 1967 coils, TX_LEN 259, the last byte 7F. -/
theorem test_encWmc_long :
    after (exec .encWmc (coilOps 0x01 0x0009 0x0000 1967 (List.replicate 1968 true)))
      (fun t => t.tx.len.val == 259 && t.tx.cell 4 == 0 && t.tx.cell 5 == 0xFD && t.tx.cell 12 == 0xF6 &&
        t.tx.cell 257 == 0xFF && t.tx.cell 258 == 0x7F) = true := by
  decide +kernel

/-- W10. -/
theorem test_encWmr_two :
    after (exec .encWmr (regOps 0x01 0x0005 0x0001 2 [0x000A, 0x0102]))
      (sends [0x00, 0x05, 0x00, 0x00, 0x00, 0x0B, 0x01, 0x10, 0x00, 0x01, 0x00, 0x02, 0x04, 0x00, 0x0A, 0x01,
          0x02] 16 2) = true := by
  decide +kernel

/-- W13: 123 registers, TX_LEN 259; REGV[i] = i. -/
theorem test_encWmr_limit :
    after (exec .encWmr (regOps 0x01 0x0009 0x0000 123 ((List.range 123).map (BitVec.ofNat 16))))
      (fun t => t.tx.len.val == 259 && t.tx.cell 12 == 0xF6 && t.tx.cell 256 == 0x79 && t.tx.cell 257 == 0x00 &&
        t.tx.cell 258 == 0x7A) = true := by
  decide +kernel

/-- S3: FFFF, 8000 and 7FFF read as -1, -32768 and 32767. -/
theorem test_decode_signs :
    after (exec .decode (held 3 3 [0x00, 0x01, 0x00, 0x00, 0x00, 0x09, 0x01, 0x03, 0x06, 0xFF, 0xFF, 0x80, 0x00,
        0x7F, 0xFF]))
      (fun t => decoded .registers 3 0 t && readWindow 0x1C00 t == 0xFFFFFFFF && readWindow 0x1C04 t == 0xFFFF8000 &&
        readWindow 0x1C08 t == 0x00007FFF) = true := by
  decide +kernel

/-- D13. -/
theorem test_decode_bits :
    after (exec .decode (held 1 9 [0x00, 0x07, 0x00, 0x00, 0x00, 0x05, 0x01, 0x01, 0x02, 0x8D, 0x01]))
      (fun t => decoded .bits 9 0 t && readWindow 0x1800 t == 0x0000018D) = true := by
  decide +kernel

/-- A18: a partial frame is discarded, its bytes stay. -/
theorem test_rxArm_restarts :
    after (exec .rxArm (rxWith .body [0x00, 0x02, 0x00, 0x00, 0x00, 0x06, 0x01, 0x05, 0x00]))
      (fun t => receives 1 0 6 t && t.rx.cell 5 == 0x06 && t.rx.cell 7 == 0x05) = true := by
  decide +kernel

/-- A8. -/
theorem test_rxNone_nothing :
    after (exec (.rxNone 0x00) (rxWith .idle []))
      (fun t => t == rxWith .idle []) = true := by
  decide +kernel

/-- A15: Length 0 is malformed. -/
theorem test_rxByte_length0 :
    after (exec (.rxByte 0x00) (rxWith .header [0x00, 0x00, 0x00, 0x00, 0x00]))
      (receives 6 6 0) = true := by
  decide +kernel

/-- A14: the shortest frame is whole at its eighth byte. -/
theorem test_rxByte_whole :
    after (exec (.rxByte 0x05) (rxWith .body [0x00, 0x00, 0x00, 0x00, 0x00, 0x02, 0x01]))
      (fun t => receives 3 8 0 t && t.rx.cell 7 == 0x05) = true := by
  decide +kernel

/-- D35: the stream ends inside the header. -/
theorem test_rxEos_header :
    after (exec .rxEos (rxWith .header [0x00, 0x01, 0x00]))
      (receives 4 3 0) = true := by
  decide +kernel

/-- A12: dropped once the frame is whole. -/
theorem test_rxEos_dropped :
    after (exec .rxEos (rxWith .complete [0x00, 0x02, 0x00, 0x00, 0x00, 0x06, 0x01, 0x05, 0x00, 0x05, 0xFF, 0x00]))
      (receives 0x103 12 0) = true := by
  decide +kernel

/-- D37. -/
theorem test_rxErr_body :
    after (exec .rxErr (rxWith .body [0x00, 0x01, 0x00, 0x00, 0x00, 0x05, 0x01]))
      (receives 5 7 0) = true := by
  decide +kernel

/-- A7, A10: dropped in IDLE. -/
theorem test_rxErr_dropped :
    after (exec .rxErr State.reset)
      (receives 0x100 0 0) = true := by
  decide +kernel

/-- E2: the frame the row stands for. -/
theorem test_reqReadCoils_frame :
    after (exec (.reqReadCoils 0xFFFF 0xFF 0xFFFF 2000) State.reset)
      (sends [0xFF, 0xFF, 0x00, 0x00, 0x00, 0x06, 0xFF, 0x01, 0xFF, 0xFF, 0x07, 0xD0] 1 2000) = true := by
  decide +kernel

/-- E6: the frame the row stands for. -/
theorem test_reqReadDiscreteInputs_frame :
    after (exec (.reqReadDiscreteInputs 0x0001 0x01 0x0000 2000) State.reset)
      (sends [0x00, 0x01, 0x00, 0x00, 0x00, 0x06, 0x01, 0x02, 0x00, 0x00, 0x07, 0xD0] 2 2000) = true := by
  decide +kernel

/-- E8: the frame the row stands for. -/
theorem test_reqReadHoldingRegisters_frame :
    after (exec (.reqReadHoldingRegisters 0xABCD 0x11 0x1234 125) State.reset)
      (sends [0xAB, 0xCD, 0x00, 0x00, 0x00, 0x06, 0x11, 0x03, 0x12, 0x34, 0x00, 0x7D] 3 125) = true := by
  decide +kernel

/-- E11: the frame the row stands for. -/
theorem test_reqReadInputRegisters_frame :
    after (exec (.reqReadInputRegisters 0x0001 0x01 0x0000 1) State.reset)
      (sends [0x00, 0x01, 0x00, 0x00, 0x00, 0x06, 0x01, 0x04, 0x00, 0x00, 0x00, 0x01] 4 1) = true := by
  decide +kernel

/-- W2: the frame the row stands for. -/
theorem test_reqWriteSingleCoil_frame :
    after (exec (.reqWriteSingleCoil 0x0001 0x01 0xFFFF true) State.reset)
      (sends [0x00, 0x01, 0x00, 0x00, 0x00, 0x06, 0x01, 0x05, 0xFF, 0xFF, 0xFF, 0x00] 5 1) = true := by
  decide +kernel

/-- S9: the frame the row stands for. -/
theorem test_reqWriteSingleRegister_frame :
    after (exec (.reqWriteSingleRegister 0x0003 0x01 0x0001 0xFFFF) State.reset)
      (sends [0x00, 0x03, 0x00, 0x00, 0x00, 0x06, 0x01, 0x06, 0x00, 0x01, 0xFF, 0xFF] 6 1) = true := by
  decide +kernel

/-- S2: the frame the row stands for. -/
theorem test_reqWriteMultipleCoils_frame :
    after (exec (.reqWriteMultipleCoils 0x0004 0x01 0x0013 [true, false, true, true, false, false, false, true,
        true]) State.reset)
      (sends [0x00, 0x04, 0x00, 0x00, 0x00, 0x09, 0x01, 0x0F, 0x00, 0x13, 0x00, 0x09, 0x02, 0x8D,
          0x01] 15 9) = true := by
  decide +kernel

/-- W10: the frame the row stands for. -/
theorem test_reqWriteMultipleRegisters_frame :
    after (exec (.reqWriteMultipleRegisters 0x0005 0x01 0x0001 [0x000A, 0x0102]) State.reset)
      (sends [0x00, 0x05, 0x00, 0x00, 0x00, 0x0B, 0x01, 0x10, 0x00, 0x01, 0x00, 0x02, 0x04, 0x00, 0x0A, 0x01,
          0x02] 16 2) = true := by
  decide +kernel

/-- E5: an ill-formed row is refused as its command is. -/
theorem test_reqReadCoils_above :
    after (exec (.reqReadCoils 1 1 0 0xFFFF) State.reset)
      (refuses) = true := by
  decide +kernel

/-- D8: low bits 4 are not compared with EXP_FC 3. -/
theorem test_rspException_row :
    after (exec (.rspException 0x0009 0x0000 0x01 0x04 0xFF []) (held 3 1 [0x00, 0x09, 0x00, 0x00, 0x00, 0x03,
        0x01, 0x84, 0xFF]))
      (decoded .protocolException 0 0xFFF) = true := by
  decide +kernel

/-- D13. -/
theorem test_rspReadCoils_row :
    after (exec (.rspReadCoils 0x0007 0x0000 0x01 [0x8D, 0x01]) (held 1 9 [0x00, 0x07, 0x00, 0x00, 0x00, 0x05,
        0x01, 0x01, 0x02, 0x8D, 0x01]))
      (fun t => decoded .bits 9 0 t && readWindow 0x1800 t == 0x0000018D) = true := by
  decide +kernel

/-- D14: pad bits are ignored. -/
theorem test_rspReadDiscreteInputs_row :
    after (exec (.rspReadDiscreteInputs 0x0007 0x0000 0x01 [0x8D, 0xFF]) (held 2 9 [0x00, 0x07, 0x00, 0x00, 0x00,
        0x05, 0x01, 0x02, 0x02, 0x8D, 0xFF]))
      (fun t => decoded .bits 9 0 t && readWindow 0x1800 t == 0x0000018D) = true := by
  decide +kernel

/-- D1. -/
theorem test_rspReadHoldingRegisters_row :
    after (exec (.rspReadHoldingRegisters 0x0001 0x0000 0x01 [0x02, 0x2B, 0x00, 0x00, 0x00, 0x64])
        (held 3 3 [0x00, 0x01, 0x00, 0x00, 0x00, 0x09, 0x01, 0x03, 0x06, 0x02, 0x2B, 0x00, 0x00, 0x00, 0x64]))
      (fun t => decoded .registers 3 0 t && readWindow 0x1C00 t == 0x22B && readWindow 0x1C08 t == 0x64) = true := by
  decide +kernel

/-- D2. -/
theorem test_rspReadInputRegisters_row :
    after (exec (.rspReadInputRegisters 0x0001 0x0000 0x01 [0x80, 0x01]) (held 4 1 [0x00, 0x01, 0x00, 0x00, 0x00,
        0x05, 0x01, 0x04, 0x02, 0x80, 0x01]))
      (fun t => decoded .registers 1 0 t && readWindow 0x1C00 t == 0xFFFF8001) = true := by
  decide +kernel

/-- D11: function code 4 where 3 is expected. -/
theorem test_rspReadInputRegisters_other :
    after (exec (.rspReadInputRegisters 1 0 1 [0x00, 0x01]) (held 3 1 [0x00, 0x01, 0x00, 0x00, 0x00, 0x05, 0x01,
        0x04, 0x02, 0x00, 0x01]))
      (decoded .malformedResponse 0 0) = true := by
  decide +kernel

/-- D25: the count is not checked for writes. -/
theorem test_rspWriteSingleCoil_row :
    after (exec (.rspWriteSingleCoil 0x0002 0x0000 0x01 [0x00, 0x05, 0xFF, 0x00]) (held 5 0 [0x00, 0x02, 0x00,
        0x00, 0x00, 0x06, 0x01, 0x05, 0x00, 0x05, 0xFF, 0x00]))
      (decoded .writeOk 0 0) = true := by
  decide +kernel

/-- R111 with function code 6. -/
theorem test_rspWriteSingleRegister_row :
    after (exec (.rspWriteSingleRegister 0x0003 0x1234 0x01 [0x00, 0x01, 0xFF, 0xFF]) (held 6 1 [0x00, 0x03,
        0x12, 0x34, 0x00, 0x06, 0x01, 0x06, 0x00, 0x01, 0xFF, 0xFF]))
      (decoded .writeOk 0 0) = true := by
  decide +kernel

/-- D23: the echo is not compared. -/
theorem test_rspWriteMultipleCoils_row :
    after (exec (.rspWriteMultipleCoils 0x0004 0x0000 0x01 [0x99, 0x99, 0x00, 0x01]) (held 15 9 [0x00, 0x04,
        0x00, 0x00, 0x00, 0x06, 0x01, 0x0F, 0x99, 0x99, 0x00, 0x01]))
      (decoded .writeOk 0 0) = true := by
  decide +kernel

/-- D22. -/
theorem test_rspWriteMultipleRegisters_row :
    after (exec (.rspWriteMultipleRegisters 0x0005 0x0000 0x01 []) (held 16 2 [0x00, 0x05, 0x00, 0x00, 0x00,
        0x02, 0x01, 0x10]))
      (decoded .writeOk 0 0) = true := by
  decide +kernel

/-! ## The ports and the table's words -/

/-- K1: an illegal command word sets its flag and changes nothing else. -/
theorem test_illegalCommand :
    after (step (pending [.write 0 4 0x00000007]))
      (fun t => t == { State.reset with cmdIllegal := true }) = true := by
  decide +kernel

/-- R46: a 16-bit access is refused. -/
theorem test_hostWidth :
    refusedWith (step (pending [.read 0x040 2])) (.hostAccess 0x040 2) = true := by
  decide +kernel

/-- R125: 0x201 is refused. -/
theorem test_badEvent :
    refusedWith (step (pending [.event 0x201])) (.eventWord 0x201) = true := by
  decide +kernel

/-- R47: a read of offset 0x00C returns 0. -/
theorem test_hostRead_hole :
    after (step (pending [.read 0x00C 4]))
      (fun t => t.hostReads == [0]) = true := by
  decide +kernel

/-- P2 statement 4: a coil word. -/
theorem test_hostWrite_coils :
    after (step (pending [.write 0x600 4 0x0000018D]))
      (fun t => t.req.coil 0 && !t.req.coil 1 && t.req.coil 8 && !t.req.coil 9 && readWindow 0x600 t == 0x18D) =
          true := by
  decide +kernel

/-- S2, R87: SETCOILS 1 0 1 1 0 0 0 1 1 is statements 4 and 5 of P2. -/
theorem test_setcoils :
    (Stmt.setcoils [true, false, true, true, false, false, false, true, true]).expand.toOption =
      some [.write 0x600 4 0x0000018D, .write 0x01C 4 0x00000009] := by
  decide +kernel

/-- R27, R87: the last of 1984 coils stands in a bit of COILV.W[61] that is no coil, and the write of it is ignored. -/
theorem test_setcoils_lastWord :
    ((Stmt.setcoils (List.replicate 1984 true)).expand.toOption.getD []).getLast? = some (.write 0x01C 4 0x000007C0) ∧
    after (step (pending [.write (coilvOffset 61) 4 (coilsWord (List.replicate 1984 true) 61)]))
      (fun t => readWindow 0x6F4 t == 0x0000FFFF) = true := by
  decide +kernel

/-- R134: IllegalCommand is of the class of bad input, and no command is not. -/
theorem test_illegalCommand_class :
    after (step (pending [.write 0 4 0x00000007])) (fun t => t.commandFailureClass == some .badInput) = true ∧
    State.reset.commandFailureClass = none := by
  decide +kernel

/-- R15, R86, R87: EXPECT writes its 32-bit values, and the fields take their low bits. -/
theorem test_expect_wide :
    (Stmt.expect 0x00000103 0x00010005).expand.toOption = some [.write 0x024 4 0x103, .write 0x028 4 0x10005] ∧
    after (step (pending [.write 0x024 4 0x103])) (fun t => t.expect.fc == 3) = true := by
  decide +kernel

/-- Two instances with their own bases. -/
def twoInstances : Platform := { instances := [⟨0x10000, State.reset⟩, ⟨0x12000, State.reset⟩] }

/-- R142: a write to an address in the second instance's window reaches it alone. -/
theorem test_platform_access :
    twoInstances.access (.write 0x12010 4 0x2A) =
      .next { instances := [⟨0x10000, State.reset⟩, ⟨0x12000, pending [.write 0x010 4 0x2A]⟩] } := by
  rfl

/-- R46, R145 (a): an access that starts below a window, one past the windows and one that is unaligned are refused. -/
theorem test_platform_refuses :
    twoInstances.access (.read 0xFFFC 8) = .refused (.busAccess 0xFFFC 8) ∧
    twoInstances.access (.read 0x14000 4) = .refused (.busAccess 0x14000 4) ∧
    twoInstances.access (.read 0x10002 4) = .refused (.busAccess 0x10002 4) :=
  ⟨rfl, rfl, rfl⟩

/-- K8: a command word runs as the first input after reset (log 8). -/
theorem test_withFetchWord_command :
    after (step (State.reset.withFetchWord 32 0x20))
      (decoded .invalidArgument 0 0) = true := by
  decide +kernel

/-- The byte 0x83 at frame offset 7 is an exception response, run by DECODE (log 7, log 8). -/
theorem test_withFetchWord_response :
    after (step (State.reset.withFetchWord 8 0x83))
      (decoded .protocolException 0 0xF00) = true := by
  decide +kernel

/-! ## Witnesses: states and operands that meet the obligations' hypotheses

Each theorem is named after its obligation and lists the hypotheses at concrete values, clause by clause. -/

/-- The header of a frame with this Length, and its unit identifier and function code. -/
def header (length : Word16) : List Byte := [0x00, 0x01, 0x00, 0x00, hi8 length, lo8 length]

/-- A frame of this function code with these bytes from offset 8 on. -/
def resp (fc : Byte) (body : List Byte) : List Byte := frame 1 0 1 fc body

/-- The reset input pending. -/
theorem witness_ResetInputRestoresEveryRegister : (pending [.reset]).inputs = [.reset] := rfl

theorem witness_StepKeepsReceiveInvariant :
    (let s := { rxWith .header [0x00, 0x01, 0x00, 0x00, 0x00] with inputs := [.event 0x105] };
      s.rx.Inv ∧ s.rx.state = .header ∧ after (step s) (fun t => t.rx.state == .body) = true) ∧
    (let s := { rxWith .body (header 254 ++ List.replicate 253 0) with inputs := [.event 0x105] };
      s.rx.Inv ∧ s.rx.state = .body ∧ after (step s) (fun t => t.rx.state == .complete) = true) ∧
    (let s := pending [.event 0x105];
      s.rx.Inv ∧ after (step s) (fun t => t.rx.state == .idle) = true) := by
  refine ⟨⟨?_, rfl, by decide +kernel⟩, ⟨?_, rfl, by decide +kernel⟩, ⟨rfl, by decide +kernel⟩⟩
  · show 5 ≤ 5
    decide
  · have h : Receive.length (rxWith .body (header 254 ++ List.replicate 253 0)).rx = 254 := by decide +kernel
    have hf : (rxWith .body (header 254 ++ List.replicate 253 0)).rx.fill.val = 259 := by decide +kernel
    show 6 ≤ _ ∧ _ < 6 + Receive.length _ ∧ 2 ≤ Receive.length _ ∧ Receive.length _ ≤ 254
    refine ⟨?_, ?_, ?_, ?_⟩
    · exact hf.symm ▸ (by decide : 6 ≤ 259)
    · exact hf.symm ▸ h.symm ▸ (by decide : 259 < 6 + 254)
    · exact h.symm ▸ (by decide : 2 ≤ 254)
    · exact h.symm ▸ Nat.le_refl 254

theorem witness_StepKeepsTheInvariant :
    (pending [commandInput 5]).Inv ∧ after (step (pending [commandInput 5])) (fun t => t.tx.result == .ok) = true :=
  ⟨⟨⟨by decide, by decide, by decide, by decide, by decide⟩, rfl,
    ⟨by decide, by decide, fun _ _ => rfl, by decide, fun _ => ⟨rfl, rfl⟩⟩⟩, by decide +kernel⟩

theorem witness_ReachableStatesMeetTheInvariant : ∃ t, Reachable t ∧ t.rx.state = .header :=
  ⟨_, ⟨[commandInput 0x21], 1, rfl⟩, rfl⟩

/-- Every limit of R2, and the longest responses. -/
theorem witness_DecodeOfEncodeIsTheInstruction :
    Instr.wellFormed (.reqReadCoils 1 1 0xFFFF 1) = true ∧ Instr.wellFormed (.reqReadCoils 1 1 0 2000) = true ∧
    Instr.wellFormed (.reqReadDiscreteInputs 1 1 0 2000) = true ∧
    Instr.wellFormed (.reqReadHoldingRegisters 1 1 0 125) = true ∧
    Instr.wellFormed (.reqReadInputRegisters 1 1 0 125) = true ∧
    Instr.wellFormed (.reqWriteMultipleCoils 1 1 0 (List.replicate 1968 true)) = true ∧
    Instr.wellFormed (.reqWriteMultipleRegisters 1 1 0 (List.replicate 123 7)) = true ∧
    Instr.wellFormed (.rspException 1 0 1 3 2 (List.replicate 251 0)) = true ∧
    Instr.wellFormed (.rspReadCoils 1 0 1 (List.replicate 251 0)) = true ∧
    Instr.wellFormed (.rspWriteSingleCoil 1 0 1 (List.replicate 252 0)) = true := by
  decide +kernel

/-- A command, an event, a request, and the longest and a longer response that decode. -/
theorem witness_EncodeOfDecodeIsTheWord :
    decode (.command 0x21) = .ok .rxArm ∧ decode (.event 0x1FF) = .ok (.rxByte 0xFF) ∧
    decode (.request (readRequest 1 1 1 0 2000)) = .ok (.reqReadCoils 1 1 0 2000) ∧
    decode (.response (resp 5 (List.replicate 252 0))) = .ok (.rspWriteSingleCoil 1 0 1 (List.replicate 252 0)) ∧
    (resp 5 (List.replicate 252 0)).length = 260 ∧
    decode (.response (resp 5 (List.replicate 253 0))) = .ok (.rspWriteSingleCoil 1 0 1 (List.replicate 253 0)) := by
  decide +kernel

theorem witness_EventWordsByKindAndData : (1 : Byte) ≠ 0 := by decide

theorem witness_RegisterMapIsOneToOne :
    accessLegal 0x000 4 = true ∧ regAt 0x000 = some .cmd ∧ accessLegal 0x1DF0 4 = true ∧
    regAt 0x1DF0 = some (.decRegs 124) ∧ (15 < 32 ∧ 32 * (61 : Fin 62).val + 15 < 1968) ∧
    (16 < 32 ∧ ¬32 * (61 : Fin 62).val + 16 < 1968) ∧ (15 < 32 ∧ 32 * (62 : Fin 63).val + 15 < 2000) ∧
    (16 < 32 ∧ ¬32 * (62 : Fin 63).val + 16 < 2000) := by
  decide

theorem witness_SignedValuesWrapAndExtend :
    (0x7FFF : Word16).toNat < 32768 ∧ 32768 ≤ (0x8000 : Word16).toNat ∧
    (-32768 ≤ (-32768 : Int) ∧ (-32768 : Int) ≤ 32767 ∧ (-32768 : Int) < 0) ∧
    (-32768 ≤ (32767 : Int) ∧ (32767 : Int) ≤ 32767 ∧ 0 ≤ (32767 : Int)) ∧
    (16 ≤ 16 ∧ 16 < 32) ∧ 16 ≤ 31 ∧ 31 < 32 := by
  decide

theorem witness_PackedBitsAreLeastSignificantFirst :
    1 < ceil8 (List.replicate 9 true).length ∧ 8 < 9 ∧ 9 ≤ 8 * [(0x8D : Byte), 0x01].length := by
  decide

theorem witness_StepRunsTheDecodedInstruction :
    ((pending [.write 0 4 0x20]).inputs = [.write 0 4 0x20] ∧ decodeCommand 0x20 = .ok .decode) ∧
    ((pending [.event 0x300]).inputs = [.event 0x300] ∧ decodeEvent 0x300 = .ok .rxErr) ∧
    (pending []).inputs = [] := by
  decide

theorem witness_LegalInputsRunAndTheOthersAreRefused :
    Input.legal (.read 0x1FFC 4) = true ∧ Input.legal (.read 0x2000 4) = false ∧
    Input.legal (.write 0x000 4 0) = true ∧ Input.legal (.write 0x002 4 0) = false ∧
    Input.legal (.event 0x200) = true ∧ Input.legal (.event 0x201) = false ∧ Input.legal (.event 0x1FF) = true ∧
    Input.legal (.event 0x3FF) = false ∧ Input.legal .reset = true ∧
    (∃ v ∈ [(-32769 : Int)], v < -32768 ∨ 32767 < v) ∧ (∃ v ∈ [(0 : Int), 32768], v < -32768 ∨ 32767 < v) := by
  decide

/-- The last legal offset, the first one past the window, an unaligned offset and another width. -/
theorem witness_HostPortAcceptsAlignedWordsOnly :
    (pending [.read 0x1FFC 4]).inputs = [.read 0x1FFC 4] ∧ (4 = 4 ∧ 0x1FFC % 4 = 0 ∧ 0x1FFC ≤ 0x1FFC) ∧
    ¬(4 = 4 ∧ 0x2000 % 4 = 0 ∧ 0x2000 ≤ 0x1FFC) ∧ ¬(4 = 4 ∧ 0x001 % 4 = 0 ∧ 0x001 ≤ 0x1FFC) ∧
    ¬(2 = 4 ∧ 0x000 % 4 = 0 ∧ 0x000 ≤ 0x1FFC) := by
  decide

theorem witness_HostReadChangesNothing :
    0x1FFC % 4 = 0 ∧ 0x1FFC ≤ 0x1FFC ∧ (pending [.read 0x1FFC 4]).inputs = [.read 0x1FFC 4] ∧
    0x000 % 4 = 0 ∧ (pending [.read 0x000 4]).inputs = [.read 0x000 4] ∧ Reg.cmd.offset = 0x000 ∧
    (Reg.decRegs 124).offset = 0x1DF0 := by
  decide

/-- The last cell of each array, as the host reads it; and the receive invariant, idle and in the middle of a body. -/
theorem witness_RegistersReadAsTheirFields :
    122 < 123 ∧ 61 < 62 ∧ 31 < 32 ∧ 258 < 259 ∧ 259 < 260 ∧ 62 < 63 ∧ 124 < 125 ∧
    regAt (0x0400 + 4 * 122) = some (.regv 122) ∧ regAt (0x0600 + 4 * 61) = some (.coilvWord 61) ∧
    regAt (0x0800 + 4 * 258) = some (.txBuf 258) ∧ regAt (0x1000 + 4 * 259) = some (.rxBuf 259) ∧
    regAt (0x1800 + 4 * 62) = some (.decBitsWord 62) ∧ regAt (0x1C00 + 4 * 124) = some (.decRegs 124) ∧
    State.reset.rx.Inv ∧ (rxWith .body (header 254)).rx.Inv := by
  have h : State.reset.rx.fill.val = 0 ∧ 6 ≤ (rxWith .body (header 254)).rx.fill.val ∧
      (rxWith .body (header 254)).rx.fill.val < 6 + (rxWith .body (header 254)).rx.length ∧
      2 ≤ (rxWith .body (header 254)).rx.length ∧ (rxWith .body (header 254)).rx.length ≤ 254 := by
    decide +kernel
  exact ⟨by decide, by decide, by decide, by decide, by decide, by decide, by decide, by decide, by decide, by decide,
    by decide, by decide, by decide, h.1, h.2⟩

theorem witness_HostWriteStoresItsFieldAlone :
    Reg.access (.coilvWord 61) = .rw ∧
    (pending [.write (Reg.offset (.coilvWord 61)) 4 0xFFFFFFFF]).inputs =
      [.write (Reg.offset (.coilvWord 61)) 4 0xFFFFFFFF] ∧
    Reg.cfgUid ≠ .coilvWord 61 := by
  decide

theorem witness_WindowDefaults :
    (Reg.rxStatus.access = .r ∧
      (pending [.write Reg.rxStatus.offset 4 1]).inputs = [.write Reg.rxStatus.offset 4 1]) ∧
    Reg.cmd.access = .w ∧
    (regAt 0x00C = none ∧ 0x00C % 4 = 0 ∧ 0x00C ≤ 0x1FFC ∧
      (pending [.write 0x00C 4 1]).inputs = [.write 0x00C 4 1]) := by
  decide

/-- Both edges of each hole, and the registers beside them. -/
theorem witness_WindowHoles :
    (∀ offset ∈ [0x00C, 0x02C, 0x04C, 0x03FC, 0x05EC, 0x05FC, 0x06F8, 0x07FC, 0x0C0C, 0x0FFC, 0x1410, 0x17FC,
      0x18FC, 0x1BFC, 0x1DF4, 0x1FFC], offset % 4 = 0 ∧ offset ≤ 0x1FFC ∧ regAt offset = none) ∧
    (∀ offset ∈ [0x008, 0x010, 0x028, 0x030, 0x048, 0x0400, 0x05E8, 0x0600, 0x06F4, 0x0800, 0x0C08, 0x1000, 0x140C,
      0x1800, 0x18F8, 0x1C00, 0x1DF0], offset % 4 = 0 ∧ offset ≤ 0x1FFC ∧ (regAt offset).isSome = true) := by
  decide +kernel

theorem witness_HostWriteByOffset :
    ((pending [.write 0x000 4 1]).inputs = [.write 0x000 4 1] ∧ 0x000 % 4 = 0 ∧ 0x000 ≤ 0x1FFC) ∧
    ((Reg.expFc).offset = 0x024 ∧ Reg.expFc.access = .rw ∧ Reg.expCount ≠ .expFc) ∧
    (0x030 ≠ 0x000 ∧ ∀ r : Reg, r.offset = 0x030 → r.access ≠ .rw) := by
  refine ⟨by decide, by decide, by decide, ?_⟩
  intro r h
  cases r
  case regv i => exact absurd h (by show ¬(0x0400 + 4 * i.val = 0x030); omega)
  case coilvWord i => exact absurd h (by show ¬(0x0600 + 4 * i.val = 0x030); omega)
  all_goals first | exact absurd h (by decide) | (intro hc; cases hc)

theorem witness_IllegalCommandOnlySetsItsFlag :
    (pending [.write 0 4 7]).inputs = [.write 0 4 7] ∧ (∀ i, decodeCommand 7 ≠ .ok i) ∧
    (pending [.write 0 4 0x20]).inputs = [.write 0 4 0x20] ∧ decodeCommand 0x20 = .ok .decode := by
  refine ⟨rfl, fun i h => ?_, rfl, rfl⟩
  have h7 : decodeCommand 7 = .error .illegalCommand := rfl
  rw [h7] at h
  cases h

/-- An illegal word, a legal one, another input and the reset input. -/
theorem witness_IllegalFlagIsWrittenByEveryCommand :
    after (step (pending [.write 0 4 7])) (fun t => t.cmdIllegal) = true ∧
    after (step (pending [.write 0 4 0x21])) (fun t => !t.cmdIllegal) = true ∧
    after (step { pending [.event 0x1FF] with cmdIllegal := true }) (fun t => t.cmdIllegal) = true ∧
    after (step { pending [.reset] with cmdIllegal := true }) (fun t => !t.cmdIllegal) = true := by
  decide +kernel

/-- A host write and the reset input change an operand. -/
theorem witness_OnlyHostWritesChangeOperands :
    after (step (pending [writeTo .reqCount 5])) (fun t => t.req != (pending []).req) = true ∧
    after (step { ops 1 2 3 4 5 with inputs := [.reset] }) (fun t => t.req != (ops 1 2 3 4 5).req) = true := by
  decide +kernel

/-- A byte inside a frame, a DECODE that changes a result, an encode command that changes TX_*. -/
theorem witness_ResultsChangeOnlyAtTheirCommand :
    after (step { rxWith .body (header 2) with inputs := [.event 0x101] })
      (fun t => t.rx.fill.val == 7 && t.rx.cell 5 == 2) = true ∧
    ¬(Input.event 0x101).isArm ∧ Input.event 0x101 ≠ .reset ∧
    after (step (pending [commandInput 0x20])) (fun t => t.dec != (pending []).dec) = true ∧
    after (step (pending [commandInput 1])) (fun t => t.tx != (pending []).tx) = true := by
  refine ⟨by decide +kernel, fun h => h, by decide, by decide +kernel, by decide +kernel⟩

/-- RX_ARM leaves CLOSED; an event leaves COMPLETE as it is. -/
theorem witness_TerminalReceiveStatesAreHeld :
    (after (step { rxWith .closed [] with inputs := [commandInput 0x21] }) (fun t => t.rx.state != .closed) = true ∧
      (rxWith .closed []).rx.state ≠ .header ∧ (rxWith .closed []).rx.state ≠ .body) ∧
    (Instr.rxByte 0x55 ∈ [Instr.rxNone 0x55, .rxByte 0x55, .rxEos, .rxErr] ∧
      (rxWith .complete (resp 5 [])).rx.state ≠ .header ∧ (rxWith .complete (resp 5 [])).rx.state ≠ .body) := by
  decide +kernel

/-- Counts at both ends of each range and just outside it, for the four commands. -/
theorem witness_ReadCommandsEncodeTheirRequest :
    (Instr.encRc, (0x00000001 : Word32), (0x01 : Byte), 2000) ∈
      [(Instr.encRc, (0x00000001 : Word32), (0x01 : Byte), 2000), (.encRdi, 0x00000002, 0x02, 2000),
        (.encRhr, 0x00000003, 0x03, 125), (.encRir, 0x00000004, 0x04, 125)] ∧
    (1 ≤ (ops 1 1 0 1 0).req.count.toNat ∧ (ops 1 1 0 2000 0).req.count.toNat ≤ 2000 ∧
      (ops 1 1 0 125 0).req.count.toNat ≤ 125) ∧
    ((ops 1 1 0 0 0).req.count.toNat = 0 ∧ 2000 < (ops 1 1 0 2001 0).req.count.toNat ∧
      125 < (ops 1 1 0 126 0).req.count.toNat) := by
  decide

theorem witness_WriteSingleCoilEncodesABoolean :
    (ops 1 1 0 0 0).req.value = 0x0000 ∧ (ops 1 1 0 0 1).req.value = 0x0001 ∧
    (ops 1 1 0 0 2).req.value ≠ 0x0000 ∧ (ops 1 1 0 0 2).req.value ≠ 0x0001 := by
  decide

theorem witness_WriteMultipleRegistersEncodesItsValues :
    1 ≤ (regOps 1 1 0 1 []).req.count.toNat ∧ (regOps 1 1 0 123 []).req.count.toNat ≤ 123 ∧
    (regOps 1 1 0 0 []).req.count.toNat = 0 ∧ 123 < (regOps 1 1 0 124 []).req.count.toNat := by
  decide

theorem witness_WriteMultipleCoilsEncodesItsBits :
    1 ≤ (coilOps 1 1 0 1 []).req.count.toNat ∧ (coilOps 1 1 0 1968 []).req.count.toNat ≤ 1968 ∧
    (coilOps 1 1 0 0 []).req.count.toNat = 0 ∧ 1968 < (coilOps 1 1 0 1969 []).req.count.toNat := by
  decide

/-- Two elements, and the most of each command; each encode succeeds. -/
theorem witness_MultipleWriteFieldsAgree :
    Instr.encWmr ∈ [Instr.encWmr, .encWmc] ∧ Instr.encWmc ∈ [Instr.encWmr, .encWmc] ∧
    after (exec .encWmr (regOps 1 1 0 2 [])) (fun t => t.tx.result == .ok) = true ∧
    after (exec .encWmr (regOps 1 1 0 123 [])) (fun t => t.tx.result == .ok) = true ∧
    after (exec .encWmc (coilOps 1 1 0 2 [])) (fun t => t.tx.result == .ok) = true ∧
    after (exec .encWmc (coilOps 1 1 0 1968 [])) (fun t => t.tx.result == .ok) = true ∧
    2 ≤ (regOps 1 1 0 2 []).req.count.toNat := by
  decide +kernel

/-- Each of the three shapes of difference. -/
theorem witness_WriteEncodersIgnoreTheOtherOperands :
    (Instr.encWsc = .encWsc ∧ (regOps 1 1 0 5 [7]).req = { (regOps 1 1 0 0 []).req with
      count := 5, regv := (regOps 1 1 0 5 [7]).req.regv, coilv := (regOps 1 1 0 5 [7]).req.coilv }) ∧
    (ops 1 1 0 5 7).req = { (ops 1 1 0 5 0).req with value := 7, coilv := (ops 1 1 0 5 7).req.coilv } ∧
    (ops 1 1 0 5 7).req = { (ops 1 1 0 5 0).req with value := 7, regv := (ops 1 1 0 5 7).req.regv } := by
  decide +kernel

/-- Two states that differ outside the operands. -/
theorem witness_EncodersDependOnOperandsAlone :
    Instr.encRc ∈ [Instr.encRc, .encRdi, .encRhr, .encRir, .encWsc, .encWsr, .encWmc, .encWmr] ∧
    (pending []).req = (held 3 1 (resp 3 [2, 0, 0])).req ∧ pending [] ≠ held 3 1 (resp 3 [2, 0, 0]) := by
  decide +kernel

/-- Operands and the values they stand for, at the counts' ends. -/
theorem witness_EncodeCommandsRunTheirRequestRow :
    (ops 1 1 0 0 1).req.value = (if true then 1 else 0) ∧ (ops 1 1 0 0 0).req.value = (if false then 1 else 0) ∧
    ((List.replicate 1968 true).length = (coilOps 1 1 0 1968 (List.replicate 1968 true)).req.count.toNat ∧
      (coilOps 1 1 0 1968 (List.replicate 1968 true)).req.count.toNat ≤ 1968 ∧
      ([true, false].length = (coilOps 1 1 0 2 [true, false]).req.count.toNat ∧
        ∀ k, k < 2 → [true, false].getD k false = (coilOps 1 1 0 2 [true, false]).req.coil k)) ∧
    ([(7 : Word16), 9].length = (regOps 1 1 0 2 [7, 9]).req.count.toNat ∧
      (regOps 1 1 0 123 []).req.count.toNat ≤ 123 ∧
      ∀ k, k < 2 → [(7 : Word16), 9].getD k 0 = (regOps 1 1 0 2 [7, 9]).req.reg k) := by
  decide +kernel

/-- A well-formed and an ill-formed request row, function codes 5 and 6 and another. -/
theorem witness_RequestRowsEmitTheirEncoding :
    (encode (.reqReadCoils 1 1 0 2000) = .request (readRequest 1 1 1 0 2000) ∧
      Instr.wellFormed (.reqReadCoils 1 1 0 2000) = true ∧ (readRequest 1 1 1 0 2000).getD 7 0 ≠ 5 ∧
      (readRequest 1 1 1 0 2000).getD 7 0 ≠ 6) ∧
    (encode (.reqWriteSingleCoil 1 1 0 true) = .request (singleRequest 5 1 1 0 0xFF00) ∧
      (singleRequest 5 1 1 0 0xFF00).getD 7 0 = 5) ∧
    (encode (.reqWriteSingleRegister 1 1 0 7) = .request (singleRequest 6 1 1 0 7) ∧
      (singleRequest 6 1 1 0 7).getD 7 0 = 6) ∧
    Instr.wellFormed (.reqReadCoils 1 1 0 2001) = false := by
  decide +kernel

theorem witness_CommandsAreIdempotent : decodeCommand 0x0000000F = .ok .encWmc := rfl

/-- A function code outside FCSET, and each read's counts just outside and at the ends of their range. -/
theorem witness_DecodeChecksItsArgumentsFirst :
    decodeArgsOk (held 7 1 []).expect = false ∧ decodeArgsOk (held 1 0 []).expect = false ∧
    decodeArgsOk (held 2 2001 []).expect = false ∧ decodeArgsOk (held 3 0 []).expect = false ∧
    decodeArgsOk (held 4 126 []).expect = false ∧ decodeArgsOk (held 1 2000 []).expect = true ∧
    decodeArgsOk (held 4 125 []).expect = true ∧ decodeArgsOk (held 5 0 []).expect = true ∧
    after (exec .decode (held 7 1 [])) (fun t => t.dec.outcome == .invalidArgument) = true ∧
    after (exec .decode (held 5 0 [])) (fun t => t.dec.outcome != .invalidArgument) = true := by
  decide +kernel

/-- Each receive state past the argument check; COMPLETE with seven bytes, with a Length that differs, and as the
assembler leaves it. -/
theorem witness_DecodeByReceiveState :
    (∀ st : RxState, decodeArgsOk { rxWith st [] with expect := { fc := 3, count := 1 } }.expect = true ∧
      (rxWith st []).rx.state = st) ∧
    (held 3 1 (header 1 ++ [0x01])).rx.fill.val < 8 ∧
    (held 3 1 (header 3 ++ [0x01, 0x03])).rx.fill.val ≠ 6 +
      (be16 ((held 3 1 (header 3 ++ [0x01, 0x03])).rx.cell 4) ((held 3 1 (header 3 ++ [0x01, 0x03])).rx.cell 5)).toNat ∧
    (held 3 1 (header 2 ++ [0x01, 0x03])).rx.Inv := by
  refine ⟨fun st => ⟨rfl, rfl⟩, by decide +kernel, by decide +kernel, ?_⟩
  show 8 = 6 + Receive.length _ ∧ 8 ≤ 8 ∧ 8 ≤ 260
  refine ⟨?_, by decide, by decide⟩
  have h : Receive.length (held 3 1 (header 2 ++ [0x01, 0x03])).rx = 2 := by decide +kernel
  exact h.symm ▸ rfl

/-- The hypotheses that a whole frame is held, shared by the DECODE obligations. -/
def wholeFrame (s : State) : Bool :=
  s.rx.state == .complete && decide (8 ≤ s.rx.fill.val) &&
    s.rx.fill.val == 6 + (be16 (s.rx.cell 4) (s.rx.cell 5)).toNat

/-- Exceptions of eight and of nine bytes, and the longest. -/
theorem witness_DecodeReportsExceptions :
    ∀ s ∈ [held 3 1 (header 2 ++ [0x01, 0x83]), held 3 1 (resp 0x83 [0x02]),
        held 3 1 (resp 0xFF (List.replicate 252 0x02))],
      wholeFrame s = true ∧ decodeArgsOk s.expect = true ∧ (s.rx.cell 7).getLsbD 7 = true := by
  decide +kernel

theorem witness_DecodeRejectsAnotherFunctionCode :
    let s := held 3 1 (resp 4 [2, 0, 1])
    wholeFrame s = true ∧ decodeArgsOk s.expect = true ∧ (s.rx.cell 7).getLsbD 7 = false ∧
      s.rx.cell 7 ≠ s.expect.fc := by
  decide +kernel

theorem witness_DecodeAcceptsWriteAcknowledgements :
    ∀ s ∈ [held 5 0 (resp 5 []), held 6 1 (resp 6 [9, 9]), held 15 1 (resp 15 [9, 9, 9, 9]),
        held 16 2 (resp 16 (List.replicate 252 0))],
      s.expect.fc ∈ [5, 6, 15, 16] ∧ wholeFrame s = true ∧ s.rx.cell 7 = s.expect.fc := by
  decide +kernel

/-- The most and the fewest bits; a frame of eight bytes, a byte count that is not the frame's, and one that is not the
count's. -/
theorem witness_DecodeUnpacksBits :
    (∀ s ∈ [held 1 2000 (resp 1 (250 :: List.replicate 250 0xA5)), held 2 1 (resp 2 [1, 1]),
        held 1 1 (resp 1 []), held 1 9 (resp 1 [3, 0x8D, 1]), held 1 9 (resp 1 [1, 0x8D])],
      (s.expect.fc = 1 ∨ s.expect.fc = 2) ∧ 1 ≤ s.expect.count.toNat ∧ s.expect.count.toNat ≤ 2000 ∧
        wholeFrame s = true ∧ s.rx.cell 7 = s.expect.fc) ∧
    (∀ s ∈ [held 1 2000 (resp 1 (250 :: List.replicate 250 0xA5)), held 2 1 (resp 2 [1, 1])],
      9 ≤ s.rx.fill.val ∧ s.rx.fill.val = 9 + (s.rx.cell 8).toNat ∧
        (s.rx.cell 8).toNat = (s.expect.count.toNat + 7) / 8) ∧
    (held 1 1 (resp 1 [])).rx.fill.val < 9 ∧
    (held 1 9 (resp 1 [3, 0x8D, 1])).rx.fill.val ≠ 9 + ((held 1 9 (resp 1 [3, 0x8D, 1])).rx.cell 8).toNat ∧
    ((held 1 9 (resp 1 [1, 0x8D])).rx.cell 8).toNat ≠ ((held 1 9 (resp 1 [1, 0x8D])).expect.count.toNat + 7) / 8 := by
  decide +kernel

/-- The most and the fewest registers, and the three ways to be malformed. -/
theorem witness_DecodeSignExtendsRegisters :
    (∀ s ∈ [held 3 125 (resp 3 (250 :: List.replicate 250 0x80)), held 4 1 (resp 4 [2, 0x80, 1]),
        held 3 1 (resp 3 []), held 3 2 (resp 3 [4, 0, 1]), held 3 2 (resp 3 [2, 0, 1])],
      (s.expect.fc = 3 ∨ s.expect.fc = 4) ∧ 1 ≤ s.expect.count.toNat ∧ s.expect.count.toNat ≤ 125 ∧
        wholeFrame s = true ∧ s.rx.cell 7 = s.expect.fc) ∧
    (∀ s ∈ [held 3 125 (resp 3 (250 :: List.replicate 250 0x80)), held 4 1 (resp 4 [2, 0x80, 1])],
      9 ≤ s.rx.fill.val ∧ s.rx.fill.val = 9 + (s.rx.cell 8).toNat ∧
        (s.rx.cell 8).toNat = 2 * s.expect.count.toNat) ∧
    (held 3 1 (resp 3 [])).rx.fill.val < 9 ∧
    (held 3 2 (resp 3 [4, 0, 1])).rx.fill.val ≠ 9 + ((held 3 2 (resp 3 [4, 0, 1])).rx.cell 8).toNat ∧
    ((held 3 2 (resp 3 [2, 0, 1])).rx.cell 8).toNat ≠ 2 * (held 3 2 (resp 3 [2, 0, 1])).expect.count.toNat := by
  decide +kernel

/-- A DECODE for each outcome's clause. -/
theorem witness_DecodeWritesItsResultsAlone :
    after (exec .decode (held 1 1 (resp 1 [1, 1]))) (fun t => t.dec.outcome == .bits) = true ∧
    after (exec .decode (held 3 1 (resp 3 [2, 0, 1]))) (fun t => t.dec.outcome == .registers) = true ∧
    after (exec .decode (held 3 1 (resp 0x83 [2]))) (fun t => t.dec.outcome == .protocolException) = true ∧
    after (exec .decode (held 5 1 (resp 5 []))) (fun t => t.dec.outcome == .writeOk) = true := by
  decide +kernel

/-- A frame that decodes to a row, and one that decodes to none. -/
theorem witness_DecodeRunsTheResponseRow :
    (let s := held 3 1 (resp 3 [2, 0, 1]);
      decodeArgsOk s.expect = true ∧ s.rx.state = .complete ∧
        decodeResponse s.rx.frame = .ok (.rspReadHoldingRegisters 1 0 1 [0, 1])) ∧
    (let s := held 3 1 (resp 0x2B [2, 0, 1]);
      decodeArgsOk s.expect = true ∧ s.rx.state = .complete ∧
        decodeResponse s.rx.frame = .error .unknownFunctionCode) := by
  decide +kernel

theorem witness_ExceptionAndWriteRows :
    decodeArgsOk (held 7 1 []).expect = false ∧ decodeArgsOk (held 3 1 []).expect = true ∧
    (Instr.rspWriteSingleCoil 1 0 1 [], (5 : Byte)) ∈
      [(Instr.rspWriteSingleCoil 1 0 1 [], (5 : Byte)), (.rspWriteSingleRegister 1 0 1 [], 6),
        (.rspWriteMultipleCoils 1 0 1 [], 15), (.rspWriteMultipleRegisters 1 0 1 [], 16)] ∧
    (held 3 1 []).expect.fc ≠ 5 ∧ (held 5 0 []).expect.fc = 5 := by
  decide +kernel

theorem witness_ReadResponseRows :
    ((Instr.rspReadCoils 1 0 1 [1], (1 : Byte)) ∈
      [(Instr.rspReadCoils 1 0 1 [1], (1 : Byte)), (.rspReadDiscreteInputs 1 0 1 [1], 2),
        (.rspReadHoldingRegisters 1 0 1 [1], 3), (.rspReadInputRegisters 1 0 1 [1], 4)]) ∧
    decodeArgsOk (held 7 1 []).expect = false ∧ decodeArgsOk (held 1 8 []).expect = true ∧
    (held 1 8 []).expect.fc = 1 ∧ (held 1 8 []).expect.fc ≠ 3 ∧
    [(1 : Byte)].length = ((held 1 8 []).expect.count.toNat + 7) / 8 ∧
    [(1 : Byte)].length ≠ ((held 1 9 []).expect.count.toNat + 7) / 8 ∧
    [(1 : Byte), 2].length = 2 * (held 3 1 []).expect.count.toNat ∧
    [(1 : Byte)].length ≠ 2 * (held 3 1 []).expect.count.toNat := by
  decide +kernel

/-- Two buffers that agree on a frame of eleven bytes and differ at its end; and a frame that declares three data bytes
and holds two. -/
theorem witness_DecodeReadsOnlyTheFrame :
    (let s := held 3 1 (resp 3 [2, 0, 1])
     let buf := s.rx.buf.patch 11 [0xFF]
     buf ≠ s.rx.buf ∧ ∀ k, k < s.rx.fill.val → buf.get 0 k = s.rx.cell k) ∧
    (let s := held 3 1 (resp 3 [3, 0, 1])
     decodeArgsOk s.expect = true ∧ s.expect.fc ∈ [1, 2, 3, 4] ∧ s.rx.state = .complete ∧ 9 ≤ s.rx.fill.val ∧
     s.rx.cell 7 = s.expect.fc ∧ s.rx.fill.val < 9 + (s.rx.cell 8).toNat) := by
  have h : (held 3 1 (resp 3 [2, 0, 1])).rx.buf.patch 11 [0xFF] ≠ (held 3 1 (resp 3 [2, 0, 1])).rx.buf := by
    decide +kernel
  refine ⟨⟨h, fun k hk => ?_⟩, by decide +kernel⟩
  have hk : k < 11 := hk
  exact Cells.get_patch_of_not_mem _ _ (.inl hk)

/-- Two buffers that differ in the identifiers alone. -/
theorem witness_DecodeIgnoresTheIdentifiers :
    let s := held 3 1 (resp 3 [2, 0, 1])
    let buf := s.rx.buf.patch 0 [0xAA, 0xBB, 0xCC, 0xDD]
    buf ≠ s.rx.buf ∧ ∀ k, k ≠ 0 → k ≠ 1 → k ≠ 2 → k ≠ 3 → k ≠ 6 → buf.get 0 k = s.rx.cell k := by
  have h : (held 3 1 (resp 3 [2, 0, 1])).rx.buf.patch 0 [0xAA, 0xBB, 0xCC, 0xDD] ≠
      (held 3 1 (resp 3 [2, 0, 1])).rx.buf := by
    decide +kernel
  refine ⟨h, fun k h0 h1 h2 h3 _ => ?_⟩
  exact Cells.get_patch_of_not_mem _ _ (.inr (by simp; omega))

/-- The fifth and sixth byte of a header, with Lengths 1, 2, 254 and 255; the last byte of a body and one before it; a
byte in IDLE. -/
theorem witness_ByteIsStoredOrDropped :
    (rxWith .header [0, 1, 0, 0]).rx.Inv ∧ (rxWith .header [0, 1, 0, 0, 0]).rx.Inv ∧
    after (exec (.rxByte 0x00) (rxWith .header [0, 1, 0, 0])) (fun t => t.rx.fill.val != 6) = true ∧
    (∀ p ∈ [((0x01 : Byte), RxState.malformed), (0x02, .body), (0xFE, .body), (0xFF, .malformed)],
      after (exec (.rxByte p.1) (rxWith .header [0, 1, 0, 0, 0]))
        (fun t => t.rx.fill.val == 6 && t.rx.state == p.2) = true) ∧
    (∀ p ∈ [(header 2, RxState.body), (header 2 ++ [0x01], .complete)],
      after (exec (.rxByte 0x05) (rxWith .body p.1)) (fun t => t.rx.state == p.2) = true) ∧
    State.reset.rx.Inv ∧ State.reset.rx.state ≠ .header ∧ State.reset.rx.state ≠ .body := by
  refine ⟨?_, ?_, by decide +kernel, by decide +kernel, by decide +kernel, rfl, by decide, by decide⟩
  · show 4 ≤ 5
    decide
  · show 5 ≤ 5
    decide

theorem witness_EndOfStreamAndErrorEndAReception :
    (Instr.rxErr, RxState.ioerr) ∈ [(Instr.rxEos, RxState.closed), (.rxErr, .ioerr)] ∧
    (rxWith .header []).rx.state = .header ∧ (rxWith .body (header 2)).rx.state = .body ∧
    State.reset.rx.state ≠ .header ∧ State.reset.rx.state ≠ .body := by
  decide

/-- The first and the last byte of a header, and IDLE. -/
theorem witness_NeedIsComputedFromTheReceiveState :
    ((rxWith .header []).rx.Inv ∧ readWindow 0x03C (rxWith .header []) = 6) ∧
    ((rxWith .header [0, 1, 0, 0, 0]).rx.Inv ∧ readWindow 0x03C (rxWith .header [0, 1, 0, 0, 0]) = 1) ∧
    readWindow 0x03C (rxWith .body (header 254)) = 254 ∧ readWindow 0x03C (rxWith .body (header 2 ++ [1])) = 1 ∧
    State.reset.rx.Inv := by
  refine ⟨⟨?_, by decide +kernel⟩, ⟨?_, by decide +kernel⟩, by decide +kernel, by decide +kernel, rfl⟩
  · show 0 ≤ 5
    decide
  · show 5 ≤ 5
    decide

theorem witness_DutifulBytesAreNeverDropped :
    (rxWith .header [0, 1, 0, 0, 0]).rx.Inv ∧
    Input.dutiful (rxWith .header [0, 1, 0, 0, 0]) (byteEvent 0x02) = true ∧
    State.reset.rx.Inv ∧ Input.dutiful State.reset (byteEvent 0x02) = false := by
  refine ⟨?_, by decide +kernel, rfl, by decide +kernel⟩
  show 5 ≤ 5
  decide

/-- The shortest and the longest frame, their bytes pending after RX_ARM. -/
theorem witness_WholeFrameIsReceived :
    ∀ bytes ∈ [resp 5 [], resp 3 (List.replicate 252 0xA5)],
      let s := { rxWith .header [] with inputs := bytes.map byteEvent ++ [] }
      s.rx.state = .header ∧ s.rx.fill.val = 0 ∧ 8 ≤ bytes.length ∧ bytes.length ≤ 260 ∧
        bytes.length = 6 + (be16 (bytes.getD 4 0) (bytes.getD 5 0)).toNat ∧ s.inputs = bytes.map byteEvent ++ [] := by
  decide +kernel

/-- Both spaces, with the fewest and the most values: one state each that holds the count and the pending transaction. -/
theorem witness_ReadRoundTripYieldsItsValues :
    (∀ values ∈ [[(7 : Word16)], List.replicate 125 0x8000],
      let inputs := transaction [] 3 (readResponse 3 1 0 1 (packRegs values))
      let s := { ops 1 1 0 (BitVec.ofNat 16 values.length) 0 with inputs := inputs ++ [] }
      ((3 : Byte) = 3 ∨ (3 : Byte) = 4) ∧ 1 ≤ values.length ∧ values.length ≤ 125 ∧
        s.req.count.toNat = values.length ∧ s.inputs = inputs ++ []) ∧
    (∀ values ∈ [[true], List.replicate 2000 true],
      let inputs := transaction [] 1 (readResponse 1 1 0 1 (packBits values))
      let s := { ops 1 1 0 (BitVec.ofNat 16 values.length) 0 with inputs := inputs ++ [] }
      ((1 : Byte) = 1 ∨ (1 : Byte) = 2) ∧ 1 ≤ values.length ∧ values.length ≤ 2000 ∧
        s.req.count.toNat = values.length ∧ s.inputs = inputs ++ []) := by
  refine ⟨fun values hv => ?_, fun values hv => ?_⟩
  · have : 1 ≤ values.length ∧ values.length ≤ 125 := by
      revert hv values
      decide +kernel
    exact ⟨.inl rfl, this.1, this.2, by simp [ops]; omega, rfl⟩
  · have : 1 ≤ values.length ∧ values.length ≤ 2000 := by
      revert hv values
      decide +kernel
    exact ⟨.inl rfl, this.1, this.2, by simp [ops]; omega, rfl⟩

/-- The fewest and the most values of SETREGS, and the most coils that the words of COILV take. -/
theorem witness_SetStatementsWriteTheirSequences :
    (∀ v ∈ [(-32768 : Int), 32767], -32768 ≤ v ∧ v ≤ 32767) ∧
    (∀ values ∈ [[], List.replicate 123 (-2 : Int)],
      values.length ≤ 123 ∧ ∃ inputs, (Stmt.setregs values).expand = .ok inputs ∧
        (pending (inputs ++ [])).inputs = inputs ++ []) ∧
    (List.replicate 1984 true).length ≤ 1984 ∧
    (∃ inputs, (Stmt.setcoils (List.replicate 1984 true)).expand = .ok inputs ∧
      (pending (inputs ++ [])).inputs = inputs ++ []) := by
  refine ⟨by decide, fun values hv => ?_, by decide +kernel, ⟨_, rfl, rfl⟩⟩
  have hv : values.length ≤ 123 ∧ ∀ v ∈ values, -32768 ≤ v ∧ v ≤ 32767 := by
    revert hv values
    decide +kernel
  obtain ⟨inputs, h⟩ := (setRegsFrom_isOk values 0).2 hv.2
  exact ⟨hv.1, _, by rw [Stmt.expand, h]; rfl, rfl⟩

end Sys2Proof.Tests
end

section
/-! SIGNED VALUES (R4, R5, R6). `sint16` is the library's two's-complement value `BitVec.toInt`, so the range of a
signed value and its sign extension are facts about `BitVec`; `u16` is its inverse on [-32768, 32767]. -/
namespace Sys2Proof

/-! ## `sint16` -/

theorem sint16_of_lt {v : Word16} (h : v.toNat < 32768) : sint16 v = v.toNat := if_pos h

theorem sint16_of_ge {v : Word16} (h : 32768 ≤ v.toNat) : sint16 v = v.toNat - 65536 := if_neg (Nat.not_lt.2 h)

theorem sint16_eq_toInt (v : Word16) : sint16 v = v.toInt := by
  by_cases h : v.toNat < 32768
  · rw [sint16_of_lt h, BitVec.toInt_eq_toNat_of_lt (by omega)]
  · rw [sint16_of_ge (Nat.not_lt.1 h), BitVec.toInt_eq_toNat_cond, if_neg (by omega)]
    rfl

theorem sint16_range (v : Word16) : -32768 ≤ sint16 v ∧ sint16 v ≤ 32767 := by
  rw [sint16_eq_toInt]
  exact ⟨v.le_toInt, Int.le_of_lt_add_one v.toInt_lt⟩

/-! ## `u16` and the round trip -/

theorem u16_toNat_of_nonneg {x : Int} (h : 0 ≤ x) (hx : x ≤ 32767) : ((u16 x).toNat : Int) = x := by
  rw [u16, if_pos h, BitVec.toNat_ofNat]
  omega

theorem u16_toNat_of_neg {x : Int} (hx : -32768 ≤ x) (h : x < 0) : ((u16 x).toNat : Int) = x + 65536 := by
  rw [u16, if_neg (Int.not_le.2 h), BitVec.toNat_ofNat]
  omega

theorem sint16_u16 {x : Int} (hlo : -32768 ≤ x) (hhi : x ≤ 32767) : sint16 (u16 x) = x := by
  by_cases h : 0 ≤ x
  · have hn := u16_toNat_of_nonneg h hhi
    rw [sint16_of_lt (by omega), hn]
  · have hn := u16_toNat_of_neg hlo (Int.not_le.1 h)
    rw [sint16_of_ge (by omega), hn, Int.add_sub_cancel]

/-! ## `sext32` -/

@[simp] theorem sext32_toInt (v : Word16) : (sext32 v).toInt = sint16 v := by
  rw [sint16_eq_toInt, sext32, BitVec.toInt_signExtend_of_le (by decide)]

theorem sext32_getLsbD_of_lt (v : Word16) {k : Nat} (h : k < 16) : (sext32 v).getLsbD k = v.getLsbD k := by
  rw [sext32, BitVec.getLsbD_signExtend, if_pos h, decide_eq_true (by omega), Bool.true_and]

theorem sext32_getLsbD_of_ge (v : Word16) {k : Nat} (hlo : 16 ≤ k) (hhi : k < 32) :
    (sext32 v).getLsbD k = v.getLsbD 15 := by
  rw [sext32, BitVec.getLsbD_signExtend, if_neg (Nat.not_lt.2 hlo), decide_eq_true hhi, Bool.true_and,
    BitVec.msb_eq_getLsbD_last]

@[simp] theorem sext32_low (v : Word16) : (sext32 v).extractLsb' 0 16 = v := by
  refine BitVec.eq_of_getLsbD_eq fun k hk => ?_
  rw [BitVec.getLsbD_extractLsb', Nat.zero_add, sext32_getLsbD_of_lt v hk, decide_eq_true hk, Bool.true_and]

/-- Settles O12: `sint16` splits at 32768, `u16` at 0, and the two splits meet in the round trip; the extension is the
library's, whose signed value is the operand's. -/
theorem signedValuesWrapAndExtend : Obligations.SignedValuesWrapAndExtend :=
  ⟨fun v => ⟨(sint16_range v).1, (sint16_range v).2, sint16_of_lt, sint16_of_ge⟩,
    fun _ hlo hhi => ⟨fun h => u16_toNat_of_nonneg h hhi, u16_toNat_of_neg hlo, sint16_u16 hlo hhi⟩,
    fun v => ⟨sext32_toInt v, sext32_low v, fun _ => sext32_getLsbD_of_ge v⟩⟩

end Sys2Proof
end

section
/-! THE REGISTER MAP READ BACKWARDS (spec/10_state.md §3, R50): the register found at an offset is the one that stands
there, every register's offset is one the host port accepts, and a host write at it is a write of that register. -/
namespace Sys2Proof.Machine

/-! ## Offsets -/

theorem regAt_offset (r : Reg) : regAt r.offset = some r := by
  cases r
  case regv i => exact regAt_regvOffset i.isLt
  case coilvWord j => exact regAt_coilvOffset j.isLt
  case txBuf | rxBuf | decBitsWord | decRegs =>
    simp only [Reg.offset]
    simp (disch := omega) only [regAt, if_pos, if_neg]
    rw [arrayIndex_eq_some_iff.2 rfl, Option.map_some]
  all_goals rfl

/-- An array of registers, one every four bytes from `base` on, is found by its elements' offsets. -/
theorem offset_of_map_arrayIndex {base n offset : Nat} {f : Fin n → Reg} {r : Reg}
    (hf : ∀ i, (f i).offset = base + 4 * i.val) (h : (arrayIndex base n offset).map f = some r) :
    r.offset = offset := by
  obtain ⟨i, hi, rfl⟩ := Option.map_eq_some_iff.1 h
  rw [hf, arrayIndex_eq_some_iff.1 hi]

theorem regAt_eq_some_iff {offset : Nat} {r : Reg} : regAt offset = some r ↔ r.offset = offset := by
  refine ⟨fun h => ?_, fun h => h ▸ regAt_offset r⟩
  unfold regAt at h
  split_ifs at h with hl
  · exact offset_of_scalarAt hl h
  all_goals exact offset_of_map_arrayIndex (fun _ => rfl) h

/-- Every register stands at an offset of the window that the host port accepts (R46, R49). -/
theorem offset_legal (r : Reg) : r.offset % 4 = 0 ∧ r.offset ≤ 0x1FFC := by
  cases r
  case regv | coilvWord | txBuf | rxBuf | decBitsWord | decRegs =>
    simp only [Reg.offset]
    omega
  all_goals decide

/-- CMD alone stands at offset 0. -/
theorem offset_eq_zero_iff {r : Reg} : r.offset = 0 ↔ r = .cmd := by
  refine ⟨fun h => ?_, fun h => h ▸ rfl⟩
  have h' := regAt_offset r
  rw [h] at h'
  exact (Option.some.inj h').symm

/-! ## Accesses at a register's offset, and at none -/

@[simp] theorem readWindow_offset (r : Reg) (s : State) : readWindow r.offset s = readReg r s := by
  rw [readWindow, regAt_offset]

@[simp] theorem writeWindow_offset (r : Reg) (v : Word32) (s : State) :
    writeWindow r.offset v s = writeReg r v s := by
  rw [writeWindow, regAt_offset]

theorem readWindow_of_none {offset : Nat} (s : State) (h : regAt offset = none) : readWindow offset s = 0 := by
  rw [readWindow, h]

theorem writeWindow_of_none {offset : Nat} (v : Word32) (s : State) (h : regAt offset = none) :
    writeWindow offset v s = s := by
  rw [writeWindow, h]

/-- A host write that changes the state stands at the offset of a read-write register (R15). -/
theorem exists_rw_of_writeWindow_ne {offset : Nat} {v : Word32} {s : State} (h : writeWindow offset v s ≠ s) :
    ∃ r : Reg, r.access = .rw ∧ r.offset = offset := by
  cases hr : regAt offset with
  | none => exact absurd (writeWindow_of_none v s hr) h
  | some r =>
    obtain rfl := regAt_eq_some_iff.1 hr
    rw [writeWindow_offset] at h
    exact ⟨r, not_not.1 fun ha => h (writeReg_of_not_rw v s ha), rfl⟩

/-- A host write to a register other than CMD is one step that stores into it (R48). -/
theorem step_writeReg {s : State} {r : Reg} {v : Word32} {rest : List Input} (hr : r ≠ .cmd)
    (hi : s.inputs = .write r.offset 4 v :: rest) : step s = .next (writeReg r v { s with inputs := rest }) := by
  obtain ⟨h4, hle⟩ := offset_legal r
  rw [step_write hi h4 hle, if_neg (mt offset_eq_zero_iff.1 hr), writeWindow_offset]

/-- A host write to an offset that holds no register is one step that changes nothing (R15, R50). -/
theorem step_writeHole {s : State} {offset : Nat} {v : Word32} {rest : List Input} (h : regAt offset = none)
    (h4 : offset % 4 = 0) (hle : offset ≤ 0x1FFC) (hi : s.inputs = .write offset 4 v :: rest) :
    step s = .next { s with inputs := rest } := by
  have h0 : offset ≠ 0 := by
    rintro rfl
    exact absurd h (by decide)
  rw [step_write hi h4 hle, if_neg h0, writeWindow_of_none _ _ h]

/-- A command word written to CMD is one step of that command (R17). -/
theorem step_command {s : State} {w : Word32} {rest : List Input} (hi : s.inputs = .write 0 4 w :: rest) :
    step s = runCommand w { s with inputs := rest } := by
  rw [step_write hi (by decide) (by decide), if_pos rfl]

end Sys2Proof.Machine
end

section
/-! THE FIELDS OF A REGISTER (R15, R16). A register's mask is its field: the bits a read can give and the bits a write
takes. A narrow field is an inclusion of a shorter word; a word of COILV or DEC_BITS is taken bit by bit. -/
namespace Sys2Proof.Machine

/-! ## Masks -/

/-- A field of the low `n` bits has no bit outside the mask of `n` ones. -/
theorem setWidth_and_not_ones {n : Nat} (x : BitVec n) :
    x.setWidth 32 &&& ~~~((BitVec.allOnes n).setWidth 32) = 0 := by
  refine BitVec.eq_of_getLsbD_eq fun k hk => ?_
  have hx : n ≤ k → x.getLsbD k = false := x.getLsbD_of_ge k
  by_cases h : k < n <;> simp_all

/-- STATE and DROP of RX_STATUS lie in its mask (R34). -/
theorem rxStatus_and_not_mask (code : BitVec 3) (drop : Bool) :
    (code.setWidth 32 ||| (BitVec.ofBool drop).setWidth 32 <<< 8 : Word32) &&& ~~~0x107 = 0 := by
  revert code drop
  decide

/-- The mask of a bit array's words, the last of which (word `last`) has sixteen bits. -/
theorem getLsbD_bitsMask {j last k : Nat} (hj : j ≤ last) (hk : k < 32) :
    (if j = last then 0xFFFF else 0xFFFFFFFF : Word32).getLsbD k = decide (32 * j + k < 32 * last + 16) := by
  split
  · next h =>
    have table : ∀ k < 32, (0xFFFF : Word32).getLsbD k = decide (k < 16) := by decide
    rw [h, table k hk]
    simp
  · next h =>
    have table : ∀ k < 32, (0xFFFFFFFF : Word32).getLsbD k = true := by decide
    rw [table k hk, decide_eq_true (by omega)]

/-- The bits of a word of COILV that are coils (R27). -/
theorem getLsbD_mask_coilvWord (j : Fin 62) {k : Nat} (hk : k < 32) :
    (Reg.coilvWord j).mask.getLsbD k = decide (32 * j.val + k < 1968) :=
  getLsbD_bitsMask (Nat.le_of_lt_succ j.isLt) hk

/-- The bits of a word of DEC_BITS that are result bits (R40). -/
theorem getLsbD_mask_decBitsWord (j : Fin 63) {k : Nat} (hk : k < 32) :
    (Reg.decBitsWord j).mask.getLsbD k = decide (32 * j.val + k < 2000) :=
  getLsbD_bitsMask (Nat.le_of_lt_succ j.isLt) hk

/-- A word of bits has none outside a mask that it is 0 outside of. -/
theorem wordOfBits_and_not {f : Nat → Bool} {m : Word32} (h : ∀ k < 32, m.getLsbD k = false → f k = false) :
    wordOfBits f &&& ~~~m = 0 := by
  refine BitVec.eq_of_getLsbD_eq fun k hk => ?_
  have hf := h k hk
  rw [BitVec.getLsbD_and, getLsbD_wordOfBits f hk, BitVec.getLsbD_not]
  cases hm : m.getLsbD k <;> simp_all

/-- Bits outside every field read 0 (R15). -/
theorem readReg_and_not_mask (r : Reg) (s : State) : readReg r s &&& ~~~r.mask = 0 := by
  cases r
  case cmd => exact BitVec.zero_and
  case rxStatus => exact rxStatus_and_not_mask _ _
  case coilvWord j =>
    refine wordOfBits_and_not fun k hk hm => coil_of_le _ ?_
    simpa [getLsbD_mask_coilvWord j hk] using hm
  case decBitsWord j =>
    refine wordOfBits_and_not fun k hk hm => bit_of_le _ ?_
    simpa [getLsbD_mask_decBitsWord j hk] using hm
  case decRegs i => simp [Reg.mask]
  all_goals exact setWidth_and_not_ones _

/-! ## What a write stores -/

/-- Of a written word a 16-bit field takes the bits of its mask. -/
theorem low16_and (v : Word32) : (v &&& 0xFFFF).extractLsb' 0 16 = v.extractLsb' 0 16 := by
  rw [BitVec.extractLsb'_and]
  exact BitVec.and_allOnes

theorem low8_and (v : Word32) : (v &&& 0xFF).extractLsb' 0 8 = v.extractLsb' 0 8 := by
  rw [BitVec.extractLsb'_and]
  exact BitVec.and_allOnes

/-- A coil after a write of one word of COILV (R27). -/
theorem coil_patch_bitsOfWord (q : Request) (j : Fin 62) (v : Word32) (k : Nat) :
    (q.coilv.patch (32 * j.val) (bitsOfWord v)).get false k =
      if 32 * j.val ≤ k ∧ k < 32 * j.val + 32 ∧ k < 1968 then v.getLsbD (k - 32 * j.val) else q.coil k := by
  rw [Cells.get_patch, length_bitsOfWord, getD_bitsOfWord]
  rfl

/-- Bits outside the field ignore writes (R15). -/
theorem writeReg_and_mask (r : Reg) (v : Word32) (s : State) : writeReg r (v &&& r.mask) s = writeReg r v s := by
  cases r
  case cfgUid | expFc => simp only [writeReg, Request.write, Reg.mask, low8_and]
  case reqTid | reqAddr | reqCount | reqValue | expCount | regv =>
    simp only [writeReg, Request.write, Reg.mask, low16_and]
  case coilvWord j =>
    have hbits : s.req.coilv.patch (32 * j.val) (bitsOfWord (v &&& (Reg.coilvWord j).mask)) =
        s.req.coilv.patch (32 * j.val) (bitsOfWord v) := by
      refine Cells.eq_of_get_eq false fun k hk => ?_
      rw [coil_patch_bitsOfWord, coil_patch_bitsOfWord]
      split
      · next h =>
        rw [BitVec.getLsbD_and, getLsbD_mask_coilvWord j (by omega), decide_eq_true (by omega), Bool.and_true]
      · rfl
    simp only [writeReg, Request.write, hbits]
  all_goals rfl

/-- A read-write register reads what was written to its field (R16). -/
theorem readReg_writeReg_same {r : Reg} (v : Word32) (s : State) (h : r.access = .rw) :
    readReg r (writeReg r v s) = v &&& r.mask := by
  cases r
  case cfgUid | expFc => exact (and_low8 v).symm
  case reqTid | reqAddr | reqCount | reqValue | expCount => exact (and_low16 v).symm
  case regv i =>
    have hcell : (s.req.regv.patch i.val [v.extractLsb' 0 16]).get 0 i.val = v.extractLsb' 0 16 := by
      rw [Cells.get_patch_of_mem _ _ (Nat.le_refl _) (Nat.lt_succ_self _) i.isLt, Nat.sub_self]
      rfl
    exact (congrArg (BitVec.setWidth 32) hcell).trans (and_low16 v).symm
  case coilvWord j =>
    refine BitVec.eq_of_getLsbD_eq fun k hk => (getLsbD_wordOfBits _ hk).trans ?_
    refine (coil_patch_bitsOfWord s.req j v _).trans ?_
    rw [BitVec.getLsbD_and, getLsbD_mask_coilvWord j hk, Nat.add_sub_cancel_left]
    by_cases hc : 32 * j.val + k < 1968
    · rw [if_pos (by omega), decide_eq_true hc, Bool.and_true]
    · rw [if_neg (by omega), decide_eq_false hc, Bool.and_false, coil_of_le _ (Nat.not_lt.1 hc)]
  all_goals cases h

/-- A host write changes no other register (R16). -/
theorem readReg_writeReg_of_ne {q r : Reg} (v : Word32) (s : State) (h : q ≠ r) :
    readReg q (writeReg r v s) = readReg q s := by
  cases r
  case cfgUid | reqTid | reqAddr | reqCount | reqValue | expFc | expCount => cases q <;> trivial
  case regv i =>
    cases q
    case regv i' =>
      have hne : i'.val ≠ i.val := fun he => h (congrArg Reg.regv (Fin.ext he))
      exact congrArg (BitVec.setWidth 32)
        (Cells.get_patch_of_not_mem s.req.regv 0 (xs := [v.extractLsb' 0 16])
          (by simp only [List.length_singleton]; omega))
    all_goals rfl
  case coilvWord j =>
    cases q
    case coilvWord j' =>
      have hne : j'.val ≠ j.val := fun he => h (congrArg Reg.coilvWord (Fin.ext he))
      refine BitVec.eq_of_getLsbD_eq fun k hk => ?_
      refine (getLsbD_wordOfBits _ hk).trans (Eq.trans ?_ (getLsbD_wordOfBits _ hk).symm)
      exact (coil_patch_bitsOfWord s.req j v _).trans (if_neg (by omega))
    all_goals rfl
  all_goals rfl

/-- Settles O20: the write is one step of `writeReg`, which sets its own register's reading and no other's. -/
theorem hostWriteStoresItsFieldAlone : Obligations.HostWriteStoresItsFieldAlone := by
  intro s r v rest hrw hi
  have hcmd : r ≠ .cmd := by
    rintro rfl
    cases hrw
  obtain ⟨hillegal, htx, hrx, hdec, hinputs, hreads⟩ := writeReg_frame r v { s with inputs := rest }
  exact ⟨_, step_writeReg hcmd hi, readReg_writeReg_same v _ hrw,
    fun q hq => (readReg_writeReg_of_ne v _ hq).trans (readReg_inputs q s rest),
    hillegal, htx, hrx, hdec, hinputs, hreads⟩

/-- A register marked write-only is CMD, and it reads 0 (R15, R17). -/
theorem readReg_of_writeOnly {r : Reg} (s : State) (h : r.access = .w) : readReg r s = 0 := by
  cases r
  case cmd => rfl
  all_goals cases h

/-- A host write to a read-only register is one step that changes nothing (R15). -/
theorem step_writeReadOnly {s : State} {r : Reg} {v : Word32} {rest : List Input} (h : r.access = .r)
    (hi : s.inputs = .write r.offset 4 v :: rest) : step s = .next { s with inputs := rest } := by
  have hcmd : r ≠ .cmd := by
    rintro rfl
    cases h
  rw [step_writeReg hcmd hi, writeReg_of_not_rw _ _ (by rw [h]; decide)]

/-- Settles O21, clause by clause: the mask on reads and on writes, the rights, the holes. -/
theorem windowDefaults : Obligations.WindowDefaults :=
  ⟨readReg_and_not_mask, fun r v s => (writeReg_and_mask r v s).symm, fun _ _ _ _ => step_writeReadOnly,
    fun _ => readReg_of_writeOnly,
    fun s _ _ _ h h4 hle => ⟨readWindow_of_none s h, step_writeHole h h4 hle⟩⟩

end Sys2Proof.Machine
end

section
/-! THE DECODERS OF THE TWO PORTS ARE UNDONE BY THE ENCODER (R78, R79): a command word or an event word that decodes is
the encoding of its instruction. -/
namespace Sys2Proof

/-- The OP of a command is the low byte of its word (R78). -/
theorem encode_of_commandOfOp {op : Byte} {i : Instr} (h : commandOfOp op = some i) :
    encode i = .command (op.setWidth 32) := by
  have table : ∀ op : Byte, (commandOfOp op).all (fun i => encode i == .command (op.setWidth 32)) = true := by
    decide +kernel
  simpa [h] using table op

/-- A word whose bits [31:8] are 0 is its low byte. -/
theorem setWidth_low8_of_high {w : Word32} (h : w.extractLsb' 8 24 = 0) : (w.extractLsb' 0 8).setWidth 32 = w := by
  have hhigh : w.toNat / 256 % 2 ^ 24 = 0 := by
    simpa [BitVec.extractLsb'_toNat, Nat.shiftRight_eq_div_pow] using congrArg BitVec.toNat h
  refine BitVec.eq_of_toNat_eq ?_
  simp only [BitVec.toNat_setWidth, BitVec.extractLsb'_toNat, Nat.shiftRight_zero]
  omega

theorem encode_of_decodeCommand {w : Word32} {i : Instr} (h : decodeCommand w = .ok i) : encode i = .command w := by
  obtain ⟨hhigh, hop⟩ := (decodeCommand_eq_ok_iff w i).1 h
  rw [encode_of_commandOfOp hop, setWidth_low8_of_high hhigh]

theorem encode_of_decodeEvent {w : EventWord} {i : Instr} (h : decodeEvent w = .ok i) : encode i = .event w := by
  have hw := kind_append_data w
  rw [← hw, decodeEvent_append] at h
  rw [← hw]
  split at h
  · next hk =>
    cases h
    rw [hk]
    rfl
  split at h
  · next hk =>
    cases h
    rw [hk]
    rfl
  split at h
  · cases h
  next hdata =>
  rw [not_not.1 hdata]
  split at h
  · next hk =>
    cases h
    rw [hk]
    rfl
  · next h0 h1 h2 =>
    have hk : ∀ k : BitVec 2, k ≠ 0b00 → k ≠ 0b01 → k ≠ 0b10 → k = 0b11 := by decide
    cases h
    rw [hk _ h0 h1 h2]
    rfl

end Sys2Proof
end

section
/-! WHAT COMMANDS AND EVENTS LEAVE ALONE (R18, R20). An instruction of the CMD port starts from ILLEGAL = 0, an
instruction of the RX port changes the receive state alone, and none writes a request operand register. -/
namespace Sys2Proof.Machine

/-! ## The instructions of a port -/

/-- A command writes ILLEGAL before anything else, so the flag's old value is not seen (R81). -/
theorem exec_beginCommand {i : Instr} {w : Word32} (s : State) (h : encode i = .command w) :
    exec i (beginCommand s) = exec i s := by
  cases i
  case encRc | encRdi | encRhr | encRir | encWsc | encWsr | encWmc | encWmr | decode | rxArm => rfl
  all_goals cases h

/-- An instruction of the RX port does what an event does (R122 to R125). -/
theorem receives_of_event {i : Instr} {w : EventWord} {s t : State} (hw : encode i = .event w)
    (h : exec i s = .next t) : Receives s t := by
  rcases exec_cases h with ⟨-, -, hne, -⟩ | ⟨-, rfl | ⟨_, hresp⟩⟩ | ⟨rfl, -⟩ | ⟨hrec, -⟩
  · exact absurd hw (hne w)
  · cases hw
  · cases hw.symm.trans hresp
  · cases hw
  · exact hrec

/-- What every instruction keeps: the request operand registers, the inputs yet to come and the values read; and it
leaves ILLEGAL as it is or sets it to 0 (R18, R20). -/
theorem exec_frame {i : Instr} {s t : State} (h : exec i s = .next t) :
    t.req = s.req ∧ t.inputs = s.inputs ∧ t.hostReads = s.hostReads ∧
      (t.cmdIllegal = s.cmdIllegal ∨ t.cmdIllegal = false) := by
  rcases exec_cases h with ⟨⟨s₀, hs, henc⟩, -⟩ | ⟨⟨s₀, hs, hdec⟩, -⟩ | ⟨-, rfl⟩ | ⟨hrec, -⟩
  · obtain ⟨hillegal, hreq, -, -, hinputs, hreads⟩ := henc.frame
    rcases hs with rfl | rfl
    · exact ⟨hreq, hinputs, hreads, .inl hillegal⟩
    · exact ⟨hreq, hinputs, hreads, .inr hillegal⟩
  · obtain ⟨hillegal, hreq, -, -, -, hinputs, hreads⟩ := hdec.frame
    rcases hs with rfl | rfl
    · exact ⟨hreq, hinputs, hreads, .inl hillegal⟩
    · exact ⟨hreq, hinputs, hreads, .inr hillegal⟩
  · exact ⟨rfl, rfl, rfl, .inr rfl⟩
  · obtain ⟨hillegal, hreq, -, -, -, hinputs, hreads⟩ := hrec.frame
    exact ⟨hreq, hinputs, hreads, .inl hillegal⟩

/-! ## ILLEGAL -/

/-- A legal command ends with ILLEGAL = 0 (R18, R81). -/
theorem exec_command_cmdIllegal {i : Instr} {w : Word32} {s t : State} (hw : encode i = .command w)
    (h : exec i s = .next t) : t.cmdIllegal = false := by
  rw [← exec_beginCommand s hw] at h
  obtain ⟨-, -, -, hillegal⟩ := exec_frame h
  exact hillegal.elim id id

/-- A write to CMD leaves ILLEGAL at 1 exactly when the word is no legal command (R18, R80). -/
theorem runCommand_cmdIllegal {w : Word32} {s t : State} (h : runCommand w s = .next t) :
    t.cmdIllegal = true ↔ ∀ i, decodeCommand w ≠ .ok i := by
  cases hd : decodeCommand w with
  | ok i =>
    rw [runCommand_of_ok s hd] at h
    simp [exec_command_cmdIllegal (encode_of_decodeCommand hd) h]
  | error e =>
    simp only [runCommand, hd] at h
    cases h
    simp

/-- An input that is neither a write to CMD nor reset leaves ILLEGAL as it is (R18). -/
theorem step_cmdIllegal_of_other {s t : State} {i : Input} {rest : List Input} (hi : s.inputs = i :: rest)
    (hc : ∀ w, i ≠ .write 0 4 w) (hr : i ≠ .reset) (h : step s = .next t) : t.cmdIllegal = s.cmdIllegal := by
  rcases step_cases h with ⟨-, rfl⟩ | ⟨i', rest', hi', hcase⟩
  · rfl
  obtain ⟨rfl, rfl⟩ := List.cons.inj (hi.symm.trans hi')
  rcases hcase with ⟨_, -, rfl⟩ | ⟨w, _, hw, -⟩ | ⟨w, _, hw, -⟩ | ⟨_, _, -, -, rfl⟩ | ⟨_, _, -, hd, hex⟩ | ⟨hr', -⟩
  · rfl
  · exact absurd hw (hc w)
  · exact absurd hw (hc w)
  · exact (writeWindow_frame _ _ _).1
  · exact (receives_of_event (encode_of_decodeEvent hd) hex).frame.1
  · exact absurd hr' hr

/-- CMD_STATUS is ILLEGAL at bit 0 (R18). -/
theorem readReg_cmdStatus (s : State) : readReg .cmdStatus s = if s.cmdIllegal then 1 else 0 := by
  rw [readReg, cmdStatusWord]
  cases s.cmdIllegal <;> rfl

/-- Settles O25: a write to CMD is a run of its word, and each other input keeps the flag, reset apart. -/
theorem illegalFlagIsWrittenByEveryCommand : Obligations.IllegalFlagIsWrittenByEveryCommand := by
  refine ⟨fun s t i rest hi h => ⟨fun w hw => ?_, fun hc hr => step_cmdIllegal_of_other hi hc hr h, fun hr => ?_⟩,
    readReg_cmdStatus, rfl⟩
  · subst hw
    exact runCommand_cmdIllegal ((step_command hi).symm.trans h)
  · subst hr
    cases (step_cons hi).symm.trans h
    rfl

/-! ## The request operand registers -/

/-- No instruction writes a request operand register (R20). -/
theorem exec_req {i : Instr} {s t : State} (h : exec i s = .next t) : t.req = s.req := (exec_frame h).1

/-- Settles O26: of the inputs a step can take, only reset and a write that stores something change REQ_*. -/
theorem onlyHostWritesChangeOperands : Obligations.OnlyHostWritesChangeOperands := by
  refine ⟨fun _ _ _ => exec_req, fun s t h hne => ?_⟩
  rcases step_cases h with ⟨-, rfl⟩ | ⟨i, rest, hi, hcase⟩
  · exact absurd rfl hne
  rw [hi, List.head?_cons]
  rcases hcase with ⟨_, -, rfl⟩ | ⟨_, _, -, -, hex⟩ | ⟨_, _, -, -, rfl⟩ | ⟨offset, v, rfl, -, rfl⟩ |
    ⟨_, _, -, -, hex⟩ | ⟨rfl, -⟩
  · exact absurd rfl hne
  · exact absurd (exec_req hex) hne
  · exact absurd rfl hne
  · have hwrite : writeWindow offset v { s with inputs := rest } ≠ { s with inputs := rest } :=
      fun heq => absurd (congrArg State.req heq) hne
    obtain ⟨r, hrw, rfl⟩ := exists_rw_of_writeWindow_ne hwrite
    exact .inr ⟨r, v, hrw, rfl⟩
  · exact absurd (exec_req hex) hne
  · exact .inl rfl

end Sys2Proof.Machine
end

section
/-! RX_NEED (R36). Where the assembler's invariant holds, the number of bytes still needed fits the register's nine bits,
so the host reads the formula itself. -/
namespace Sys2Proof.Machine

theorem need_le_of_inv {r : Receive} (h : r.Inv) : r.need ≤ 260 := by
  cases hc : r.collecting
  · rw [need_of_not_collecting hc]
    omega
  rcases (collecting_iff r).1 hc with hs | hs
  · rw [need_of_header hs]
    omega
  · have hlen : r.length ≤ 254 := by
      simp only [Receive.Inv, hs] at h
      omega
    rw [need_of_body hs]
    omega

/-- The host reads the number of bytes needed, where the invariant holds (R36). -/
theorem toNat_readWindow_need {s : State} (h : s.rx.Inv) : (readWindow 0x03C s).toNat = s.rx.need := by
  have hle := need_le_of_inv h
  show ((BitVec.ofNat 9 s.rx.need).setWidth 32).toNat = s.rx.need
  rw [BitVec.toNat_setWidth, BitVec.toNat_ofNat]
  omega

/-- Bytes needed and bytes held make up the frame's target (R36, R129). -/
theorem need_add_fill_of_header {r : Receive} (h : r.Inv) (hs : r.state = .header) : r.need + r.fill.val = 6 := by
  have hfill : r.fill.val ≤ 5 := by simpa only [Receive.Inv, hs] using h
  rw [need_of_header hs]
  omega

theorem need_add_fill_of_body {r : Receive} (h : r.Inv) (hs : r.state = .body) :
    r.need + r.fill.val = 6 + r.length := by
  have hfill : r.fill.val < 6 + r.length := by
    simp only [Receive.Inv, hs] at h
    exact h.2.1
  rw [need_of_body hs]
  omega

/-- Settles O56: the reading is the number of bytes needed, by the three kinds of receive state. -/
theorem needIsComputedFromTheReceiveState : Obligations.NeedIsComputedFromTheReceiveState := by
  refine ⟨fun s h => ⟨fun hs => ?_, fun hs => ?_, fun hh hb => ?_⟩, by decide⟩
  · rw [toNat_readWindow_need h, need_add_fill_of_header h hs]
  · rw [toNat_readWindow_need h, need_add_fill_of_body h hs]
    rfl
  · refine BitVec.eq_of_toNat_eq ?_
    rw [toNat_readWindow_need h, need_of_not_collecting ((collecting_false_iff _).2 ⟨hh, hb⟩)]
    rfl

end Sys2Proof.Machine
end

section
/-! THE HOST PORT (R46, R48, R50): which accesses it accepts, the offsets that hold no register, and what a write does
at each offset. -/
namespace Sys2Proof.Machine

/-! ## Every accepted access has a next state -/

/-- Every instruction has a next state; ENC_WSC, which splits on its operand, has one on each side (R131). -/
theorem exec_isNext (i : Instr) (s : State) : ∃ t, exec i s = .next t := by
  cases i
  case encWsc =>
    rcases execEncWsc_cases s with ⟨_, -, h⟩ | ⟨-, -, h⟩
    all_goals exact ⟨_, h⟩
  all_goals exact ⟨_, rfl⟩

/-- A word written to CMD has a next state, whether it is legal or not (R81, R131). -/
theorem runCommand_isNext (w : Word32) (s : State) : ∃ t, runCommand w s = .next t := by
  unfold runCommand
  split
  · exact exec_isNext _ s
  · exact ⟨_, rfl⟩

/-- An aligned 32-bit write inside the window has a next state (R46). -/
theorem step_write_isNext {s : State} {offset : Nat} {v : Word32} {rest : List Input}
    (hi : s.inputs = .write offset 4 v :: rest) (h4 : offset % 4 = 0) (hle : offset ≤ 0x1FFC) :
    ∃ t, step s = .next t := by
  rw [step_write hi h4 hle]
  split
  · exact runCommand_isNext v _
  · exact ⟨_, rfl⟩

/-- The port refuses an access that is not legal, be it a read or a write (R46, R145). -/
theorem step_of_not_accessLegal {s : State} {offset width : Nat} {v : Word32} {i : Input} {rest : List Input}
    (hacc : i = .read offset width ∨ i = .write offset width v) (hi : s.inputs = i :: rest)
    (h : accessLegal offset width = false) : step s = .refused (.hostAccess offset width) := by
  rw [step_cons hi]
  rcases hacc with rfl | rfl
  all_goals exact if_pos h

/-- Settles O17: a legal read answers, a legal write stores or runs a command, and the port's check refuses the rest. -/
theorem hostPortAcceptsAlignedWordsOnly : Obligations.HostPortAcceptsAlignedWordsOnly := by
  intro s offset width v i rest hacc hi
  refine ⟨?_, fun hillegal => ?_⟩
  · rintro ⟨rfl, h4, hle⟩
    rcases hacc with rfl | rfl
    · exact ⟨_, step_read hi h4 hle⟩
    · exact step_write_isNext hi h4 hle
  · rw [← accessLegal_iff, Bool.not_eq_true] at hillegal
    exact step_of_not_accessLegal hacc hi hillegal

/-! ## The holes of the window -/

/-- The aligned offsets of the window without a register: the gaps below 0x400 and the tail after each array (R50). -/
theorem regAt_eq_none_iff {offset : Nat} (h4 : offset % 4 = 0) (hle : offset ≤ 0x1FFC) :
    regAt offset = none ↔
      offset = 0x00C ∨ offset = 0x02C ∨ (0x04C ≤ offset ∧ offset ≤ 0x03FC) ∨ (0x05EC ≤ offset ∧ offset ≤ 0x05FC) ∨
      (0x06F8 ≤ offset ∧ offset ≤ 0x07FC) ∨ (0x0C0C ≤ offset ∧ offset ≤ 0x0FFC) ∨
      (0x1410 ≤ offset ∧ offset ≤ 0x17FC) ∨ (0x18FC ≤ offset ∧ offset ≤ 0x1BFC) ∨
      (0x1DF4 ≤ offset ∧ offset ≤ 0x1FFC) := by
  unfold regAt
  split_ifs with hscalar
  · rw [scalarAt_eq_none_iff hscalar h4]
    omega
  all_goals
    rw [Option.map_eq_none_iff, arrayIndex_eq_none_iff]
    omega

/-- Settles O22: the list of holes, and the two defaults at a hole. -/
theorem windowHoles : Obligations.WindowHoles :=
  fun _ h4 hle => ⟨regAt_eq_none_iff h4 hle, fun h s _ _ => ⟨readWindow_of_none s h, step_writeHole h h4 hle⟩⟩

/-! ## A write by its offset -/

/-- A host write is ignored at an offset other than CMD's where no read-write register stands (R48). -/
theorem step_writeIgnored {s : State} {offset : Nat} {v : Word32} {rest : List Input}
    (hi : s.inputs = .write offset 4 v :: rest) (h4 : offset % 4 = 0) (hle : offset ≤ 0x1FFC) (h0 : offset ≠ 0x000)
    (hrw : ∀ r : Reg, r.offset = offset → r.access ≠ .rw) : step s = .next { s with inputs := rest } := by
  have hkeep : writeWindow offset v { s with inputs := rest } = { s with inputs := rest } := by
    by_contra hne
    obtain ⟨r, hacc, hoff⟩ := exists_rw_of_writeWindow_ne hne
    exact hrw r hoff hacc
  rw [step_write hi h4 hle, if_neg h0, hkeep]

/-- Settles O23: the command port at offset 0, the write of a read-write register (O20), and the ignored writes. -/
theorem hostWriteByOffset : Obligations.HostWriteByOffset := by
  intro s offset v rest h4 hle hi
  refine ⟨?_, ?_, step_writeIgnored hi h4 hle⟩
  · rintro rfl
    exact step_command hi
  · rintro r rfl hrw
    obtain ⟨t, hstep, hsame, hother, -⟩ := hostWriteStoresItsFieldAlone s r v rest hrw hi
    exact ⟨t, hstep, hsame, hother⟩

end Sys2Proof.Machine
end

section
/-! WHAT EACH INPUT CAN CHANGE OF THE RESULTS (R58). Commands are encodes, DECODE and RX_ARM; each writes one group of
results, and an event only adds to the frame being received. -/
namespace Sys2Proof.Machine

/-! ## The bytes of the current frame -/

/-- The frame held in `r'` begins with the bytes of the frame held in `r`. -/
def Receive.Extends (r r' : Receive) : Prop :=
  r.fill.val ≤ r'.fill.val ∧ ∀ k, k < r.fill.val → r'.cell k = r.cell k

theorem Receive.extends_of_fill_buf {r r' : Receive} (hf : r'.fill = r.fill) (hb : r'.buf = r.buf) : r.Extends r' :=
  ⟨by rw [hf], fun _ _ => by rw [Receive.cell, Receive.cell, hb]⟩

theorem Receive.extends_of_eq {r r' : Receive} (h : r' = r) : r.Extends r' :=
  Receive.extends_of_fill_buf (congrArg Receive.fill h) (congrArg Receive.buf h)

/-- A byte is stored past the frame held, and nowhere when RX_BUF is full (R122, log 6). -/
theorem Receive.extends_store (r : Receive) (b : Byte) : r.Extends (r.store b) := by
  by_cases h : r.fill.val < 260
  · refine ⟨?_, fun k hk => ?_⟩
    · rw [(store_of_lt r b h).1]
      omega
    · rw [store_cell r b h, if_neg (Nat.ne_of_lt hk)]
  · rw [Receive.store, dif_neg h]
    exact Receive.extends_of_eq rfl

/-- RX_BYTE stores its byte while a frame is collected, and otherwise drops it (R121, R122). -/
theorem Receive.extends_takeByte (r : Receive) (b : Byte) : r.Extends (r.takeByte b) := by
  cases hc : r.collecting
  · rw [takeByte_of_not_collecting r b hc]
    exact Receive.extends_of_fill_buf rfl rfl
  · obtain ⟨hfill, -, hbuf⟩ := takeByte_fields r b hc
    obtain ⟨hle, hcell⟩ := r.extends_store b
    refine ⟨by rwa [hfill], fun k hk => ?_⟩
    rw [← hcell k hk, Receive.cell, Receive.cell, hbuf]

theorem Receive.extends_endWith (r : Receive) (final : RxState) : r.Extends (r.endWith final) := by
  rcases endWith_cases r final with ⟨-, h⟩ | ⟨-, h⟩
  all_goals
    rw [h]
    exact Receive.extends_of_fill_buf rfl rfl

/-- An event of the RX port keeps the bytes of the current frame (R58). -/
theorem Receives.rx_extends {s t : State} (h : Receives s t) : s.rx.Extends t.rx := by
  rcases h with rfl | ⟨b, rfl⟩ | ⟨final, -, rfl⟩
  · exact Receive.extends_of_eq rfl
  · exact Receive.extends_takeByte _ b
  · exact Receive.extends_endWith _ final

/-! ## The three kinds of command -/

/-- A command is an encode, DECODE or RX_ARM, and it starts from ILLEGAL = 0 (R78, R81). -/
theorem exec_command_cases {i : Instr} {w : Word32} {s t : State} (hw : encode i = .command w)
    (h : exec i s = .next t) :
    ((Input.write 0 4 w).isEncode ∧ Encodes (beginCommand s) t) ∨
    ((Input.write 0 4 w).isDecode ∧ Decodes (beginCommand s) t) ∨
    ((Input.write 0 4 w).isArm ∧ t = { beginCommand s with rx := s.rx.arm }) := by
  rw [← exec_beginCommand s hw] at h
  rcases exec_cases h with ⟨⟨_, hs, henc⟩, -, -, hdecode, harm⟩ | ⟨⟨_, hs, hdec⟩, rfl | ⟨_, hresp⟩⟩ | ⟨rfl, ht⟩ |
    ⟨-, _, hevent⟩
  · have hword : (Input.write 0 4 w).isEncode := by
      cases i
      case decode => exact absurd rfl hdecode
      case rxArm => exact absurd rfl harm
      case encRc | encRdi | encRhr | encRir | encWsc | encWsr | encWmc | encWmr =>
        cases hw
        simp [Input.isEncode, Input.isCommand]
      all_goals cases hw
    rcases hs with rfl | rfl
    all_goals exact .inl ⟨hword, henc⟩
  · cases hw
    rcases hs with rfl | rfl
    all_goals exact .inr (.inl ⟨⟨rfl, rfl, rfl⟩, hdec⟩)
  · cases hw.symm.trans hresp
  · cases hw
    exact .inr (.inr ⟨⟨rfl, rfl, rfl⟩, ht⟩)
  · cases hw.symm.trans hevent

/-! ## A step -/

/-- The results a step can change, by the input it takes: an encode command changes TX_* of them, a DECODE DEC_*,
RX_ARM the receive state, and any other input but reset only adds to the current frame (R58). -/
theorem step_results_cases {s t : State} {i : Input} {rest : List Input} (hi : s.inputs = i :: rest)
    (h : step s = .next t) (hr : i ≠ .reset) :
    (i.isEncode ∧ t.rx = s.rx ∧ t.dec = s.dec) ∨ (i.isDecode ∧ t.rx = s.rx ∧ t.tx = s.tx) ∨
    (i.isArm ∧ t.tx = s.tx ∧ t.dec = s.dec) ∨ (s.rx.Extends t.rx ∧ t.tx = s.tx ∧ t.dec = s.dec) := by
  rcases step_cases h with ⟨hnil, -⟩ | ⟨i', rest', hi', hcase⟩
  · cases hi.symm.trans hnil
  obtain ⟨rfl, rfl⟩ := List.cons.inj (hi.symm.trans hi')
  rcases hcase with ⟨_, -, rfl⟩ | ⟨w, j, rfl, hd, hex⟩ | ⟨_, _, -, -, rfl⟩ | ⟨offset, v, -, -, rfl⟩ |
    ⟨_, _, -, hd, hex⟩ | ⟨hreset, -⟩
  · exact .inr (.inr (.inr ⟨Receive.extends_of_eq rfl, rfl, rfl⟩))
  · rcases exec_command_cases (encode_of_decodeCommand hd) hex with ⟨hw, henc⟩ | ⟨hw, hdec⟩ | ⟨hw, rfl⟩
    · obtain ⟨-, -, hrx, hdec, -⟩ := henc.frame
      exact .inl ⟨hw, hrx, hdec⟩
    · obtain ⟨-, -, -, htx, hrx, -⟩ := hdec.frame
      exact .inr (.inl ⟨hw, hrx, htx⟩)
    · exact .inr (.inr (.inl ⟨hw, rfl, rfl⟩))
  · exact .inr (.inr (.inr ⟨Receive.extends_of_eq rfl, rfl, rfl⟩))
  · obtain ⟨-, htx, hrx, hdec, -⟩ := writeWindow_frame offset v { s with inputs := rest }
    exact .inr (.inr (.inr ⟨Receive.extends_of_eq hrx, htx, hdec⟩))
  · have hrec := receives_of_event (encode_of_decodeEvent hd) hex
    obtain ⟨-, -, -, htx, hdec, -⟩ := hrec.frame
    exact .inr (.inr (.inr ⟨hrec.rx_extends, htx, hdec⟩))
  · exact absurd hreset hr

/-- Settles O27: each kind of input leaves alone the results that are not its own. -/
theorem resultsChangeOnlyAtTheirCommand : Obligations.ResultsChangeOnlyAtTheirCommand := by
  intro s t i rest hi h hr
  rcases step_results_cases hi h hr with ⟨henc, hrx, hdec⟩ | ⟨hdecode, hrx, htx⟩ | ⟨harm, htx, hdec⟩ |
    ⟨hext, htx, hdec⟩
  · exact ⟨fun _ => Receive.extends_of_eq hrx, (absurd hdec ·), fun _ => henc⟩
  · exact ⟨fun _ => Receive.extends_of_eq hrx, fun _ => hdecode, (absurd htx ·)⟩
  · exact ⟨(absurd harm ·), (absurd hdec ·), (absurd htx ·)⟩
  · exact ⟨fun _ => hext, (absurd hdec ·), (absurd htx ·)⟩

end Sys2Proof.Machine
end

section
/-! THE WORDS OF THE TWO PORTS (R78 to R81, R125): the table of command words, the event words by KIND and DATA, and
what a port does with a word that is not legal. -/
namespace Sys2Proof

/-! ## Command words -/

/-- The ten OP values and their commands (R78). -/
def commandTable : List (Byte × Instr) :=
  [(0x01, .encRc), (0x02, .encRdi), (0x03, .encRhr), (0x04, .encRir), (0x05, .encWsc), (0x06, .encWsr), (0x0F, .encWmc),
    (0x10, .encWmr), (0x20, .decode), (0x21, .rxArm)]

theorem commandOfOp_eq_some_iff {op : Byte} {i : Instr} : commandOfOp op = some i ↔ (op, i) ∈ commandTable := by
  constructor
  · intro h
    have listed : ∀ op : Byte, (commandOfOp op).all (fun i => decide ((op, i) ∈ commandTable)) = true := by
      decide +kernel
    simpa [h] using listed op
  · have selects : ∀ row ∈ commandTable, commandOfOp row.1 = some row.2 := by decide
    exact selects (op, i)

/-- Settles O9: the decoder asks for bits [31:8] at 0 and looks OP up in the table of the ten. -/
theorem commandWordsAreExactlyTheTen : Obligations.CommandWordsAreExactlyTheTen := by
  intro w i
  rw [decodeCommand_eq_ok_iff, commandOfOp_eq_some_iff, commandTable]

/-! ## Event words -/

/-- A word of a KIND other than RX_NONE and RX_BYTE carries no data (R79). -/
theorem decodeEvent_of_data_ne_zero {k : BitVec 2} {b : Byte} (h0 : k ≠ 0b00) (h1 : k ≠ 0b01) (hb : b ≠ 0) :
    decodeEvent (k ++ b) = .error .eventDataNotZero := by
  rw [decodeEvent_append, if_neg h0, if_neg h1, if_pos hb]

end Sys2Proof

namespace Sys2Proof.Machine

/-- The RX port refuses a word that is no event word (R125). -/
theorem rxPort_of_error {w : EventWord} {e : DecodeError} (s : State) (h : decodeEvent w = .error e) :
    rxPort w s = .refused (.eventWord w) := by
  rw [rxPort, h]

/-- Settles O10: the decoder by KIND, whose rows the port runs; DATA not 0 is an error from KIND 0b10 on. -/
theorem eventWordsByKindAndData : Obligations.EventWordsByKindAndData := by
  have none_word (b : Byte) : decodeEvent (0b00#2 ++ b) = .ok (.rxNone b) := decodeEvent_append _ b
  have byte_word (b : Byte) : decodeEvent (0b01#2 ++ b) = .ok (.rxByte b) := decodeEvent_append _ b
  refine ⟨fun b => ⟨none_word b, byte_word b⟩, rfl, rfl, fun _ _ => rfl, fun b s => rxPort_of_ok s (none_word b),
    fun b s hb => ⟨rxPort_of_error s (decodeEvent_of_data_ne_zero (by decide) (by decide) hb),
      rxPort_of_error s (decodeEvent_of_data_ne_zero (by decide) (by decide) hb)⟩⟩

/-! ## A write to CMD -/

/-- An illegal command word sets ILLEGAL and changes nothing else (R81). -/
theorem runCommand_of_illegal {w : Word32} (s : State) (h : ∀ i, decodeCommand w ≠ .ok i) :
    runCommand w s = .next { s with cmdIllegal := true } := by
  cases hd : decodeCommand w with
  | ok i => exact absurd hd (h i)
  | error e => rw [runCommand, hd]

/-- Settles O24: a write to CMD is a run of its word (O25), and a legal command starts from ILLEGAL = 0. -/
theorem illegalCommandOnlySetsItsFlag : Obligations.IllegalCommandOnlySetsItsFlag := by
  intro s w rest hi
  rw [step_command hi]
  refine ⟨runCommand_of_illegal _, fun i hd => ?_⟩
  have hw := encode_of_decodeCommand hd
  rw [runCommand_of_ok _ hd]
  obtain ⟨t, ht⟩ := exec_isNext i { s with inputs := rest }
  exact ⟨⟨t, ht, exec_command_cmdIllegal hw ht⟩, (exec_beginCommand _ hw).symm⟩

end Sys2Proof.Machine
end

section
/-! PACKED BITS AS NUMBERS (R73, R74): a packed byte is the sum of the powers of two of its bits, and a candidate bit is
a digit of its data byte. -/
namespace Sys2Proof

theorem natOfBits_lt (s : List Bool) : natOfBits s < 2 ^ s.length := by
  refine Nat.lt_pow_two_of_testBit _ fun k hk => ?_
  rw [testBit_natOfBits, List.getD_eq_default _ _ hk]

/-- A packed byte takes at most eight elements, so nothing of their number is cut off (R73). -/
theorem packByte_toNat (s : List Bool) (j : Nat) :
    (packByte s j).toNat = ((List.range 8).map fun k => if s.getD (8 * j + k) false then 2 ^ k else 0).sum := by
  have hlen : ((s.drop (8 * j)).take 8).length ≤ 8 := List.length_take_le _ _
  have hlt := (natOfBits_lt ((s.drop (8 * j)).take 8)).trans_le (Nat.pow_le_pow_right (by decide) hlen)
  rw [packByte, BitVec.toNat_ofNat, Nat.mod_eq_of_lt hlt, natOfBits_eq_sum _ 8 hlen]
  refine congrArg List.sum (List.map_congr_left fun k hk => ?_)
  have helem : ((s.drop (8 * j)).take 8).getD k false = s.getD (8 * j + k) false := by
    simp [List.getD, List.getElem?_take_of_lt (List.mem_range.1 hk), List.getElem?_drop]
  rw [helem]

theorem getD_unpackBits (d : List Byte) {n i : Nat} (h : i < n) : (unpackBits d n).getD i false = unpackBit d i := by
  simp [unpackBits, List.getD, h]

/-- Candidate bit `i` is digit `i mod 8` of byte `i div 8` (R8, R74). -/
theorem unpackBit_iff (d : List Byte) (i : Nat) :
    unpackBit d i = true ↔ (d.getD (i / 8) 0).toNat / 2 ^ (i % 8) % 2 = 1 := by
  rw [unpackBit, bit, BitVec.getLsbD, Nat.testBit_eq_decide_div_mod_eq, decide_eq_true_iff]

/-- Settles O13: the lengths and the round trip are the laws of packing; a byte and a bit are read as numbers. -/
theorem packedBitsAreLeastSignificantFirst : Obligations.PackedBitsAreLeastSignificantFirst := by
  refine ⟨fun s => ⟨length_packBits s, fun j hj => ?_⟩, fun d n i hi _ => ?_, length_unpackBits,
    unpackBits_packBits⟩
  · rw [packBits_getD s j hj, packByte_toNat]
  · rw [getD_unpackBits d hi, unpackBit_iff]

end Sys2Proof
end

section
/-! THE READ ENCODERS (R92 to R96): what `EncodeRead` answers on either side of its limit, and the four commands as its
runs on the operand registers. -/
namespace Sys2Proof.Machine

/-! ## `EncodeRead` -/

theorem encodeRead_of_refused {max : Nat} {count : Word16} (fc : Byte) (tid : Word16) (uid : Byte) (addr : Word16)
    (s : State) (h : count.toNat = 0 ∨ max < count.toNat) : encodeRead fc max tid uid addr count s = refuse s :=
  if_pos h

theorem encodeRead_of_inRange {max : Nat} {count : Word16} (fc : Byte) (tid : Word16) (uid : Byte) (addr : Word16)
    (s : State) (h1 : 1 ≤ count.toNat) (hmax : count.toNat ≤ max) :
    encodeRead fc max tid uid addr count s = emit (readRequest fc tid uid addr count) fc count s :=
  if_neg (by omega)

@[simp] theorem encodeRead_cmdIllegal (fc : Byte) (max : Nat) (tid : Word16) (uid : Byte) (addr count : Word16)
    (s : State) : (encodeRead fc max tid uid addr count s).cmdIllegal = s.cmdIllegal := by
  rcases encodeRead_cases fc max tid uid addr count s with ⟨-, h⟩ | ⟨-, h⟩
  · rw [h, refuse_cmdIllegal]
  · rw [h, emit_cmdIllegal]

/-- A count of 0 or above the limit is refused, by a command and by a request row alike (R92). -/
theorem refused_encodeRead {s₀ s : State} (hs : Begins s₀ s) {max : Nat} {count : Word16} (fc : Byte) (tid : Word16)
    (uid : Byte) (addr : Word16) (h : count.toNat = 0 ∨ max < count.toNat) :
    Refused s (encodeRead fc max tid uid addr count s₀) := by
  rw [encodeRead_of_refused fc tid uid addr s₀ h]
  exact refused_refuse hs

/-- A count within the limit is encoded as a REQ-A frame, by a command and by a request row alike (R67, R92). -/
theorem emitted_encodeRead {s₀ s : State} (hs : Begins s₀ s) {max : Nat} {count : Word16} (fc : Byte) (tid : Word16)
    (uid : Byte) (addr : Word16) (h1 : 1 ≤ count.toNat) (hmax : count.toNat ≤ max) :
    Emitted (readRequest fc tid uid addr count) fc count s (encodeRead fc max tid uid addr count s₀) := by
  rw [encodeRead_of_inRange fc tid uid addr s₀ h1 hmax]
  exact emitted_emit hs _ fc count (by rw [length_readRequest]; decide)

/-! ## The four commands -/

/-- The read commands with their words, function codes and limits (R93 to R96). -/
def readCommandTable : List (Instr × Word32 × Byte × Nat) :=
  [(.encRc, 0x00000001, 0x01, 2000), (.encRdi, 0x00000002, 0x02, 2000), (.encRhr, 0x00000003, 0x03, 125),
    (.encRir, 0x00000004, 0x04, 125)]

/-- A read command's word decodes to it, and it runs `EncodeRead` on the operand registers (R93 to R96). -/
theorem readCommand_runs_encodeRead {i : Instr} {w : Word32} {fc : Byte} {max : Nat}
    (h : (i, w, fc, max) ∈ readCommandTable) :
    decodeCommand w = .ok i ∧
    ∀ s, exec i s = .next (encodeRead fc max s.req.tid s.req.uid s.req.addr s.req.count (beginCommand s)) := by
  simp only [readCommandTable, List.mem_cons, Prod.mk.injEq, List.not_mem_nil, or_false] at h
  rcases h with ⟨rfl, rfl, rfl, rfl⟩ | ⟨rfl, rfl, rfl, rfl⟩ | ⟨rfl, rfl, rfl, rfl⟩ | ⟨rfl, rfl, rfl, rfl⟩
  all_goals exact ⟨rfl, fun _ => rfl⟩

/-- Settles O29: the four commands are runs of `EncodeRead`, which emits within the limit and refuses outside it. -/
theorem readCommandsEncodeTheirRequest : Obligations.ReadCommandsEncodeTheirRequest := by
  intro i w fc max hrow
  obtain ⟨hdecode, hexec⟩ := readCommand_runs_encodeRead hrow
  refine ⟨hdecode, fun s => ⟨_, hexec s, ?_, fun h1 hmax => ?_, ?_⟩⟩
  · rw [encodeRead_cmdIllegal, beginCommand_cmdIllegal]
  · rw [← readRequest_bytes]
    exact emitted_encodeRead (.inr rfl) fc _ _ _ h1 hmax
  · exact refused_encodeRead (.inr rfl) fc _ _ _

end Sys2Proof.Machine
end

section
/-! THE SINGLE WRITE ENCODERS (R97, R98): both send a REQ-B frame and see no count; ENC_WSC alone
has values to refuse. -/
namespace Sys2Proof.Machine

@[simp] theorem encodeSingle_cmdIllegal (fc : Byte) (tid : Word16) (uid : Byte) (addr value : Word16) (s : State) :
    (encodeSingle fc tid uid addr value s).cmdIllegal = s.cmdIllegal := rfl

/-- A single write is encoded as a REQ-B frame, by a command and by a request row alike (R68, R97, R98). -/
theorem emitted_encodeSingle {s₀ s : State} (hs : Begins s₀ s) (fc : Byte) (tid : Word16) (uid : Byte)
    (addr value : Word16) :
    Emitted (singleRequest fc tid uid addr value) fc 1 s (encodeSingle fc tid uid addr value s₀) :=
  emitted_emit hs _ fc 1 (by rw [length_singleRequest]; decide)

/-! ## ENC_WSC -/

theorem hi8_coilWord (b : Bool) : hi8 (coilWord b) = if b then 0xFF else 0x00 := by cases b <;> rfl

theorem lo8_coilWord (b : Bool) : lo8 (coilWord b) = 0x00 := by cases b <;> rfl

/-- REQ_VALUE 0 or 1 is encoded as the boolean it stands for (R97). -/
theorem execEncWsc_of_bool {s : State} {b : Bool} (h : s.req.value = if b then 0x0001 else 0x0000) :
    execEncWsc s = .next (encodeSingle 0x05 s.req.tid s.req.uid s.req.addr (coilWord b) (beginCommand s)) := by
  cases b
  case false => exact if_pos h
  case true => exact (if_neg (by simp [h])).trans (if_pos h)

/-- Any other REQ_VALUE is refused (R97). -/
theorem execEncWsc_of_other {s : State} (h0 : s.req.value ≠ 0x0000) (h1 : s.req.value ≠ 0x0001) :
    execEncWsc s = .next (refuse (beginCommand s)) :=
  (if_neg h0).trans (if_neg h1)

/-- Settles O30: each value of REQ_VALUE is the boolean 0, the boolean 1, or one that is refused. -/
theorem writeSingleCoilEncodesABoolean : Obligations.WriteSingleCoilEncodesABoolean := by
  refine ⟨rfl, fun s => ?_⟩
  rcases execEncWsc_cases s with ⟨b, hvalue, hexec⟩ | ⟨h0, h1, hexec⟩
  · have hsent := emitted_encodeSingle (.inr rfl : Begins (beginCommand s) s) 0x05 s.req.tid s.req.uid s.req.addr
      (coilWord b)
    rw [singleRequest_bytes, hi8_coilWord, lo8_coilWord] at hsent
    cases b
    case false =>
      exact ⟨_, hexec, rfl, fun _ => hsent, fun h1 => absurd (hvalue.symm.trans h1) (by decide),
        fun h0 _ => absurd hvalue h0⟩
    case true =>
      exact ⟨_, hexec, rfl, fun h0 => absurd (hvalue.symm.trans h0) (by decide), fun _ => hsent,
        fun _ h1 => absurd hvalue h1⟩
  · exact ⟨_, hexec, rfl, fun h => absurd h h0, fun h => absurd h h1, fun _ _ => refused_refuse (.inr rfl)⟩

/-! ## ENC_WSR -/

/-- Settles O31: the command is a single write of REQ_VALUE as it stands, with nothing to refuse. -/
theorem writeSingleRegisterEncodesAnyValue : Obligations.WriteSingleRegisterEncodesAnyValue := by
  refine ⟨rfl, fun s => ⟨_, rfl, rfl, ?_⟩⟩
  rw [← singleRequest_bytes]
  exact emitted_encodeSingle (.inr rfl) 0x06 _ _ _ _

end Sys2Proof.Machine
end

section
/-! THE MULTIPLE WRITE ENCODERS (R99, R100, R102): a REQ-C frame of the count, the number of data bytes, and the data
bytes that the first cells of REGV or COILV stand for. -/
namespace Sys2Proof.Machine

/-! ## A multiple write -/

@[simp] theorem encodeMultiple_cmdIllegal (fc : Byte) (max : Nat) (tid : Word16) (uid : Byte) (addr : Word16)
    (count : Nat) (data : List Byte) (s : State) :
    (encodeMultiple fc max tid uid addr count data s).cmdIllegal = s.cmdIllegal := by
  rcases encodeMultiple_cases fc max tid uid addr count data s with ⟨-, h⟩ | ⟨-, h⟩
  · rw [h, refuse_cmdIllegal]
  · rw [h, emit_cmdIllegal]

/-- A count of 0 or above the limit is refused, by a command and by a request row alike (R99, R100). -/
theorem refused_encodeMultiple {s₀ s : State} (hs : Begins s₀ s) {max count : Nat} (fc : Byte) (tid : Word16)
    (uid : Byte) (addr : Word16) (data : List Byte) (h : count = 0 ∨ max < count) :
    Refused s (encodeMultiple fc max tid uid addr count data s₀) := by
  rw [encodeMultiple, if_pos h]
  exact refused_refuse hs

/-- A count within the limit is encoded as a REQ-C frame, by a command and by a request row alike (R69, R99, R100). -/
theorem emitted_encodeMultiple {s₀ s : State} (hs : Begins s₀ s) {max count : Nat} (fc : Byte) (tid : Word16)
    (uid : Byte) (addr : Word16) {data : List Byte} (h1 : 1 ≤ count) (hmax : count ≤ max)
    (hdata : data.length ≤ 246) :
    Emitted (multipleRequest fc tid uid addr count data) fc (BitVec.ofNat 16 count) s
      (encodeMultiple fc max tid uid addr count data s₀) := by
  rw [encodeMultiple, if_neg (by omega)]
  exact emitted_emit hs _ fc _ (by rw [length_multipleRequest]; omega)

/-! ## The values sent -/

/-- The first `m` cells of an array are its reads at the indices below `m`. -/
theorem Cells.take_eq_map_get {α : Type} {n : Nat} (v : Cells α n) (d : α) {m : Nat} (h : m ≤ n) :
    v.toList.take m = (List.range m).map (v.get d) := by
  have hlen := v.length_eq
  refine List.ext_getElem (by simp; omega) fun k h1 h2 => ?_
  have hk : k < v.toList.length := by simp at h1; omega
  simp [Cells.get, List.getD, hk]

/-- The data bytes of a register write: each value of REGV[0..c-1], high byte first (R75, R99). -/
theorem packRegs_regValues (q : Request) {c : Nat} (h : c ≤ 123) :
    packRegs (q.regValues c) = (List.range c).flatMap fun i => [hi8 (q.reg i), lo8 (q.reg i)] := by
  rw [packRegs, Request.regValues, q.regv.take_eq_map_get 0 h, List.flatMap_map]
  rfl

theorem length_packRegs_regValues (q : Request) {c : Nat} (h : c ≤ 123) :
    (packRegs (q.regValues c)).length = 2 * c := by
  rw [length_packRegs, length_regValues q h]

theorem length_packBits_coilValues (q : Request) {c : Nat} (h : c ≤ 1968) :
    (packBits (q.coilValues c)).length = (c + 7) / 8 := by
  rw [length_packBits, length_coilValues q h, ceil8]

/-- The coil values end at the count, whatever COILV holds from there on (R27, R100). -/
theorem getD_coilValues (q : Request) (c k : Nat) :
    (q.coilValues c).getD k false = (decide (k < c) && q.coil k) := by
  by_cases h : k < c
  · rw [decide_eq_true h, Bool.true_and]
    exact q.coilv.take_getD false c k h
  · rw [decide_eq_false h, Bool.false_and]
    exact List.getD_eq_default _ _ ((List.length_take_le _ _).trans (Nat.not_lt.1 h))

/-- The data bytes of a coil write: bit `k` of byte `j` is coil `8j + k`, and a pad bit is 0 (R73, R100). -/
theorem getLsbD_packBits_coilValues (q : Request) (c : Nat) {j k : Nat} (hj : j < (packBits (q.coilValues c)).length)
    (hk : k < 8) :
    ((packBits (q.coilValues c)).getD j 0).getLsbD k = (decide (8 * j + k < c) && q.coil (8 * j + k)) := by
  rw [length_packBits] at hj
  rw [packBits_getD _ j hj, ← getD_coilValues]
  exact bit_packByte _ j hk

/-! ## ENC_WMR and ENC_WMC -/

/-- A command's multiple write of its operand registers, byte by byte (R69, R99, R100). -/
theorem emitted_multipleWrite {s : State} (fc : Byte) {max : Nat} {data : List Byte} (h1 : 1 ≤ s.req.count.toNat)
    (hmax : s.req.count.toNat ≤ max) (hdata : data.length ≤ 246) :
    Emitted ([hi8 s.req.tid, lo8 s.req.tid, 0x00, 0x00, 0x00, BitVec.ofNat 8 (7 + data.length), s.req.uid, fc,
        hi8 s.req.addr, lo8 s.req.addr, hi8 s.req.count, lo8 s.req.count, BitVec.ofNat 8 data.length] ++ data)
      fc s.req.count s
      (encodeMultiple fc max s.req.tid s.req.uid s.req.addr s.req.count.toNat data (beginCommand s)) := by
  have hsent := emitted_encodeMultiple (.inr rfl : Begins (beginCommand s) s) fc s.req.tid s.req.uid s.req.addr
    h1 hmax hdata
  rwa [multipleRequest_bytes _ _ _ _ _ _ hdata, BitVec.ofNat_toNat, BitVec.setWidth_eq] at hsent

/-- Settles O32: the command is a multiple write of the bytes of REGV[0..c-1]. -/
theorem writeMultipleRegistersEncodesItsValues : Obligations.WriteMultipleRegistersEncodesItsValues := by
  refine ⟨rfl, fun s => ⟨_, rfl, encodeMultiple_cmdIllegal .., fun h1 hmax => ?_, ?_⟩⟩
  · have hlen := length_packRegs_regValues s.req hmax
    rw [← packRegs_regValues s.req hmax, ← hlen]
    exact emitted_multipleWrite 0x10 h1 hmax (by omega)
  · exact refused_encodeMultiple (.inr rfl) 0x10 _ _ _ _

/-- Settles O33: the command is a multiple write of the packed bits of COILV[0..c-1]. -/
theorem writeMultipleCoilsEncodesItsBits : Obligations.WriteMultipleCoilsEncodesItsBits := by
  refine ⟨rfl, fun s => ⟨_, rfl, encodeMultiple_cmdIllegal .., fun h1 hmax => ?_, ?_⟩⟩
  · have hlen := length_packBits_coilValues s.req hmax
    exact ⟨_, hlen, fun j k => getLsbD_packBits_coilValues s.req _,
      emitted_multipleWrite 0x0F h1 hmax (by omega)⟩
  · exact refused_encodeMultiple (.inr rfl) 0x0F _ _ _ _

/-! ## The fields of a multiple write -/

/-- The frame in TX_BUF carries `n` data bytes, and its byte count, its Length and TX_LEN all say so (R102). -/
structure Transmit.CarriesData (n : Nat) (t : Transmit) : Prop where
  len : t.len.val = 13 + n
  byteCount : (t.cell 12).toNat = n
  lengthField : (be16 (t.cell 4) (t.cell 5)).toNat = 7 + n

/-- A REQ-C frame carries its data bytes (R69, R102). -/
theorem Emitted.carriesData {fc fc' : Byte} {tid addr count count' : Word16} {uid : Byte} {data : List Byte}
    {s t : State} (h : Emitted (multipleRequest fc tid uid addr count.toNat data) fc' count' s t)
    (hdata : data.length ≤ 246) : t.tx.CarriesData data.length := by
  have hlen := h.len
  have hsent := h.sent
  rw [length_multipleRequest] at hlen hsent
  rw [multipleRequest_bytes _ _ _ _ _ _ hdata] at hsent
  have h4 : (t.tx.cell 4).toNat = 0 := congrArg BitVec.toNat (hsent 4 (by omega))
  have h5 : t.tx.cell 5 = BitVec.ofNat 8 (7 + data.length) := hsent 5 (by omega)
  have h12 : t.tx.cell 12 = BitVec.ofNat 8 data.length := hsent 12 (by omega)
  refine ⟨hlen, ?_, ?_⟩
  · rw [h12, BitVec.toNat_ofNat]
    omega
  · rw [be16_toNat, h4, h5, BitVec.toNat_ofNat]
    omega

theorem Transmit.CarriesData.fieldsAgree {n : Nat} {t : Transmit} (h : t.CarriesData n) :
    (t.cell 12).toNat = t.len.val - 13 ∧ 13 ≤ t.len.val ∧ (be16 (t.cell 4) (t.cell 5)).toNat = t.len.val - 6 := by
  obtain ⟨hlen, hcount, hlength⟩ := h
  omega

/-- A multiple write that succeeds had a count within the limit, so its frame carries its data bytes (R102). -/
theorem carriesData_of_encodeMultiple_ok {fc uid : Byte} {max n : Nat} {tid addr count : Word16} {data : List Byte}
    {s : State} (hdata : count.toNat ≤ max → data.length = n ∧ n ≤ 246)
    (hok : (encodeMultiple fc max tid uid addr count.toNat data s).tx.result = .ok) :
    (encodeMultiple fc max tid uid addr count.toNat data s).tx.CarriesData n := by
  rcases encodeMultiple_cases fc max tid uid addr count.toNat data s with ⟨-, h⟩ | ⟨⟨h1, hmax⟩, -⟩
  · rw [h, refuse_tx_result] at hok
    cases hok
  · obtain ⟨rfl, hle⟩ := hdata hmax
    exact (emitted_encodeMultiple (.inl rfl) fc tid uid addr h1 hmax hle).carriesData hle

/-- Settles O34: the frame carries two bytes for each register, or a byte for every eight coils begun. -/
theorem multipleWriteFieldsAgree : Obligations.MultipleWriteFieldsAgree := by
  intro i s hi
  simp only [List.mem_cons, List.not_mem_nil, or_false] at hi
  rcases hi with rfl | rfl
  · refine ⟨_, rfl, fun hok => ?_⟩
    have hsent := carriesData_of_encodeMultiple_ok
      (fun hmax : s.req.count.toNat ≤ 123 => ⟨length_packRegs_regValues s.req hmax, by omega⟩) hok
    obtain ⟨h13, hge, h6⟩ := hsent.fieldsAgree
    refine ⟨h13, hge, h6, fun _ => hsent.byteCount, nofun, fun h2 heq => ?_⟩
    have hcount := hsent.byteCount.symm.trans heq
    omega
  · refine ⟨_, rfl, fun hok => ?_⟩
    have hsent := carriesData_of_encodeMultiple_ok
      (fun hmax : s.req.count.toNat ≤ 1968 => ⟨length_packBits_coilValues s.req hmax, by omega⟩) hok
    obtain ⟨h13, hge, h6⟩ := hsent.fieldsAgree
    refine ⟨h13, hge, h6, nofun, fun _ => hsent.byteCount, fun h2 heq => ?_⟩
    have hcount := hsent.byteCount.symm.trans heq
    omega

end Sys2Proof.Machine
end

section
/-! THE OPERANDS A WRITE ENCODER IGNORES (R101). The shared operations take their operands as arguments and read no
operand register, so a command ignores each register that its arguments leave out. -/
namespace Sys2Proof.Machine

/-- A multiple write's outputs depend on its arguments and on the outputs before it alone (R91). -/
theorem encodeMultiple_output_congr {fc uid : Byte} {max count : Nat} {tid addr : Word16} {data : List Byte}
    {s u : State} (htx : s.tx = u.tx) (hexpect : s.expect = u.expect) :
    (encodeMultiple fc max tid uid addr count data s).tx = (encodeMultiple fc max tid uid addr count data u).tx ∧
    (encodeMultiple fc max tid uid addr count data s).expect =
      (encodeMultiple fc max tid uid addr count data u).expect := by
  unfold encodeMultiple
  split
  · exact ⟨by rw [refuse, refuse, htx], hexpect⟩
  · exact ⟨by rw [emit, emit, htx], rfl⟩

/-- Settles O35: a command that runs from the other operands runs with the same arguments; for ENC_WSC these are found
by REQ_VALUE, which both states share. -/
theorem writeEncodersIgnoreTheOtherOperands : Obligations.WriteEncodersIgnoreTheOtherOperands := by
  rintro i s count value regv coilv q (⟨rfl | rfl, rfl⟩ | ⟨rfl, rfl⟩ | ⟨rfl, rfl⟩)
  · rcases execEncWsc_cases s with ⟨b, hvalue, hexec⟩ | ⟨h0, h1, hexec⟩
    · exact ⟨_, _, hexec, execEncWsc_of_bool hvalue, rfl, rfl⟩
    · exact ⟨_, _, hexec, execEncWsc_of_other h0 h1, rfl, rfl⟩
  · exact ⟨_, _, rfl, rfl, rfl, rfl⟩
  · exact ⟨_, _, rfl, rfl, encodeMultiple_output_congr rfl rfl⟩
  · exact ⟨_, _, rfl, rfl, encodeMultiple_output_congr rfl rfl⟩

end Sys2Proof.Machine
end

section
/-! DECODE RULE BY RULE (R105 to R115). `DecodeRule` says which rule ends a DECODE and what it records, and it holds of
exactly what `decodeHeld` does; so a claim about DECODE is a claim about one rule, or a case for each. -/
namespace Sys2Proof.Machine

/-! ## What the argument check lets through -/

/-- The function codes by kind, as numbers (R1). -/
theorem isBitRead_iff {fc : Byte} : isBitRead fc = true ↔ fc = 1 ∨ fc = 2 := by simp [isBitRead]

theorem isRegRead_iff {fc : Byte} : isRegRead fc = true ↔ fc = 3 ∨ fc = 4 := by simp [isRegRead]

theorem isWrite_iff {fc : Byte} : isWrite fc = true ↔ fc = 5 ∨ fc = 6 ∨ fc = 15 ∨ fc = 16 := by
  simp [isWrite, or_assoc]

/-- No function code is of two kinds (R1). -/
theorem not_isBitRead_of_isRegRead {fc : Byte} (h : isRegRead fc = true) : isBitRead fc = false := by
  rcases isRegRead_iff.1 h with rfl | rfl
  all_goals rfl

theorem not_isWrite_of_isBitRead {fc : Byte} (h : isBitRead fc = true) : isWrite fc = false := by
  rcases isBitRead_iff.1 h with rfl | rfl
  all_goals rfl

theorem not_isWrite_of_isRegRead {fc : Byte} (h : isRegRead fc = true) : isWrite fc = false := by
  rcases isRegRead_iff.1 h with rfl | rfl
  all_goals rfl

/-- A function code leaves bit 7 clear, so an expected response is no exception (R1, R108). -/
theorem bit7_of_isFunctionCode {fc : Byte} (h : isFunctionCode fc = true) : fc.getLsbD 7 = false := by
  simp only [isFunctionCode, Bool.or_eq_true, isBitRead_iff, isRegRead_iff, isWrite_iff] at h
  rcases h with ((rfl | rfl) | (rfl | rfl)) | (rfl | rfl | rfl | rfl)
  all_goals rfl

/-- The argument check passes function codes only (R106). -/
theorem isFunctionCode_of_decodeArgsOk {e : Expect} (h : decodeArgsOk e = true) : isFunctionCode e.fc = true := by
  unfold decodeArgsOk at h
  unfold isFunctionCode
  split at h
  · next hb => rw [hb, Bool.true_or, Bool.true_or]
  split at h
  · next hr => rw [hr, Bool.or_true, Bool.true_or]
  · rw [h, Bool.or_true]

/-- The three kinds of response, one for each function code that the argument check passes (R1, R106). -/
theorem kind_of_decodeArgsOk {e : Expect} (h : decodeArgsOk e = true) :
    isWrite e.fc = true ∨ isBitRead e.fc = true ∨ isRegRead e.fc = true := by
  have hfc := isFunctionCode_of_decodeArgsOk h
  simp only [isFunctionCode, Bool.or_eq_true] at hfc
  rcases hfc with (hb | hr) | hw
  · exact .inr (.inl hb)
  · exact .inr (.inr hr)
  · exact .inl hw

/-- The argument check of a bit read is that of its count (R106). -/
theorem decodeArgsOk_of_isBitRead {e : Expect} (h : isBitRead e.fc = true) (h1 : 1 ≤ e.count.toNat)
    (hmax : e.count.toNat ≤ 2000) : decodeArgsOk e = true := by
  rw [decodeArgsOk, if_pos h]
  exact (countInRange_iff _ _).2 ⟨h1, hmax⟩

/-- The argument check of a register read is that of its count (R106). -/
theorem decodeArgsOk_of_isRegRead {e : Expect} (h : isRegRead e.fc = true) (h1 : 1 ≤ e.count.toNat)
    (hmax : e.count.toNat ≤ 125) : decodeArgsOk e = true := by
  rw [decodeArgsOk, not_isBitRead_of_isRegRead h, if_neg Bool.false_ne_true, if_pos h]
  exact (countInRange_iff _ _).2 ⟨h1, hmax⟩

/-- A write's count is not checked (R106). -/
theorem decodeArgsOk_of_isWrite {e : Expect} (h : isWrite e.fc = true) : decodeArgsOk e = true := by
  unfold decodeArgsOk
  rcases isWrite_iff.1 h with h | h | h | h
  all_goals
    rw [h]
    rfl

/-! ## The rules -/

/-- The outcome of DECODE in a receive state other than COMPLETE (R107). -/
def RxState.endOutcome : RxState → Option DecOutcome
  | .idle | .header | .body => some .notReady
  | .complete => none
  | .closed => some .connectionClosed
  | .ioerr => some .ioError
  | .malformed => some .malformedResponse

/-- A whole frame is held: it has a function code and the bytes its Length field counts (R107). -/
structure Receive.Whole (r : Receive) : Prop where
  state : r.state = .complete
  fill_ge : 8 ≤ r.fill.val
  fill_eq : r.fill.val = 6 + r.length

/-- The frame held is that of a read response with `n` data bytes: its byte count and its length both say so (R112,
R113). -/
structure Receive.HoldsData (n : Nat) (r : Receive) : Prop where
  fill : r.fill.val = 9 + n
  byteCount : (r.cell 8).toNat = n

/-- The number of data bytes that a read of `e.count` values is answered with (R112, R113). -/
def Expect.dataBytes (e : Expect) : Nat := if isBitRead e.fc then ceil8 e.count.toNat else 2 * e.count.toNat

/-- The bits of a bit-space read response, from the cells of RX_BUF (R112). -/
def State.heldBits (s : State) : List Bool :=
  (List.range s.expect.count.toNat).map fun i => bit (s.rx.cell (9 + i / 8)) (i % 8)

/-- The values of a register-space read response, from the cells of RX_BUF (R113). -/
def State.heldRegs (s : State) : List Word16 :=
  (List.range s.expect.count.toNat).map fun i => be16 (s.rx.cell (9 + 2 * i)) (s.rx.cell (10 + 2 * i))

@[simp] theorem State.length_heldBits (s : State) : s.heldBits.length = s.expect.count.toNat := by
  simp [State.heldBits]

@[simp] theorem State.length_heldRegs (s : State) : s.heldRegs.length = s.expect.count.toNat := by
  simp [State.heldRegs]

theorem State.getD_heldBits (s : State) {i : Nat} (h : i < s.expect.count.toNat) :
    s.heldBits.getD i false = (s.rx.cell (9 + i / 8)).getLsbD (i % 8) := by
  simp [State.heldBits, List.getD, h, bit]

theorem State.getD_heldRegs (s : State) {i : Nat} (h : i < s.expect.count.toNat) :
    s.heldRegs.getD i 0 = be16 (s.rx.cell (9 + 2 * i)) (s.rx.cell (10 + 2 * i)) := by
  simp [State.heldRegs, List.getD, h]

/-- How a DECODE of `s` ends: the rule that decides, with what it asks of `s`, and the state it leaves. -/
inductive DecodeRule (s : State) : State → Prop
  /-- R106: the arguments are out of order. -/
  | badArguments (ha : decodeArgsOk s.expect = false) : DecodeRule s (finish .invalidArgument s)
  /-- R107: no frame has been received. -/
  | noFrame {o : DecOutcome} (ha : decodeArgsOk s.expect = true) (ho : s.rx.state.endOutcome = some o) :
      DecodeRule s (finish o s)
  /-- R107: the frame is too short, or not as long as its Length field says. -/
  | notWhole (ha : decodeArgsOk s.expect = true) (hs : s.rx.state = .complete)
      (hn : s.rx.fill.val < 8 ∨ s.rx.fill.val ≠ 6 + s.rx.length) : DecodeRule s (finish .malformedResponse s)
  /-- R108: an exception response without its code. -/
  | shortException (ha : decodeArgsOk s.expect = true) (hw : s.rx.Whole) (h7 : (s.rx.cell 7).getLsbD 7 = true)
      (hn : s.rx.fill.val < 9) : DecodeRule s (finish .malformedResponse s)
  /-- R108: an exception response. -/
  | exception (ha : decodeArgsOk s.expect = true) (hw : s.rx.Whole) (h7 : (s.rx.cell 7).getLsbD 7 = true)
      (hn : 9 ≤ s.rx.fill.val) : DecodeRule s (finishException (s.rx.cell 8) s)
  /-- R109: the response of another function. -/
  | otherFunction (ha : decodeArgsOk s.expect = true) (hw : s.rx.Whole) (h7 : (s.rx.cell 7).getLsbD 7 = false)
      (hf : s.rx.cell 7 ≠ s.expect.fc) : DecodeRule s (finish .malformedResponse s)
  /-- R111: the acknowledgement of a write. -/
  | acknowledged (ha : decodeArgsOk s.expect = true) (hw : s.rx.Whole) (hf : s.rx.cell 7 = s.expect.fc)
      (hk : isWrite s.expect.fc = true) : DecodeRule s (finish .writeOk s)
  /-- R112, R113: a read response with another number of data bytes than the count's. -/
  | badData (ha : decodeArgsOk s.expect = true) (hw : s.rx.Whole) (hf : s.rx.cell 7 = s.expect.fc)
      (hk : isWrite s.expect.fc = false) (hd : ¬s.rx.HoldsData s.expect.dataBytes) :
      DecodeRule s (finish .malformedResponse s)
  /-- R112: the bits of a read. -/
  | bits (ha : decodeArgsOk s.expect = true) (hw : s.rx.Whole) (hf : s.rx.cell 7 = s.expect.fc)
      (hk : isBitRead s.expect.fc = true) (hd : s.rx.HoldsData (ceil8 s.expect.count.toNat)) :
      DecodeRule s (finishBits s.expect.count s.heldBits s)
  /-- R113: the values of a read. -/
  | regs (ha : decodeArgsOk s.expect = true) (hw : s.rx.Whole) (hf : s.rx.cell 7 = s.expect.fc)
      (hk : isRegRead s.expect.fc = true) (hd : s.rx.HoldsData (2 * s.expect.count.toNat)) :
      DecodeRule s (finishRegs s.expect.count s.heldRegs s)

/-! ## The rules are what DECODE does -/

theorem RxState.endOutcome_eq_none_iff {st : RxState} : st.endOutcome = none ↔ st = .complete := by
  cases st <;> decide

theorem RxState.endOutcome_ne_invalidArgument (st : RxState) : st.endOutcome ≠ some .invalidArgument := by
  cases st <;> decide

theorem Expect.dataBytes_of_isBitRead {e : Expect} (h : isBitRead e.fc = true) :
    e.dataBytes = ceil8 e.count.toNat := if_pos h

theorem Expect.dataBytes_of_isRegRead {e : Expect} (h : isRegRead e.fc = true) :
    e.dataBytes = 2 * e.count.toNat := if_neg (by rw [not_isBitRead_of_isRegRead h]; exact Bool.false_ne_true)

/-- The three ways a read response does not hold its data bytes (R112, R113). -/
theorem Receive.not_holdsData_iff {n : Nat} {r : Receive} :
    ¬r.HoldsData n ↔ r.fill.val < 9 ∨ r.fill.val ≠ 9 + (r.cell 8).toNat ∨ (r.cell 8).toNat ≠ n := by
  have hiff : r.HoldsData n ↔ r.fill.val = 9 + n ∧ (r.cell 8).toNat = n :=
    ⟨fun ⟨hfill, hcount⟩ => ⟨hfill, hcount⟩, fun ⟨hfill, hcount⟩ => ⟨hfill, hcount⟩⟩
  rw [hiff]
  omega

theorem decodeHeld_of_complete {s : State} (ha : decodeArgsOk s.expect = true) (hs : s.rx.state = .complete) :
    decodeHeld s = decodeHeldFrame s := by
  simp [decodeHeld, ha, hs]

theorem Receive.Whole.not_bad {r : Receive} (h : r.Whole) : ¬(r.fill.val < 8 ∨ r.fill.val ≠ 6 + r.length) := by
  obtain ⟨-, hge, heq⟩ := h
  omega

/-- The response of the expected function is no exception (R108, R109). -/
theorem bit7_of_expected {s : State} (ha : decodeArgsOk s.expect = true) (hf : s.rx.cell 7 = s.expect.fc) :
    (s.rx.cell 7).getLsbD 7 = false := by
  rw [hf]
  exact bit7_of_isFunctionCode (isFunctionCode_of_decodeArgsOk ha)

/-- A whole frame with the expected function code is an acknowledgement, or goes on to its data bytes (R109, R111 to
R113). -/
theorem decodeHeld_of_expected {s : State} (ha : decodeArgsOk s.expect = true) (hw : s.rx.Whole)
    (hf : s.rx.cell 7 = s.expect.fc) :
    decodeHeld s =
      if isWrite s.expect.fc then finish .writeOk s
      else if s.rx.fill.val < 9 then finish .malformedResponse s
      else if s.rx.fill.val ≠ 9 + (s.rx.cell 8).toNat then finish .malformedResponse s
      else if isBitRead s.expect.fc then
        if (s.rx.cell 8).toNat ≠ ceil8 s.expect.count.toNat then finish .malformedResponse s
        else finishBits s.expect.count s.heldBits s
      else
        if (s.rx.cell 8).toNat ≠ 2 * s.expect.count.toNat then finish .malformedResponse s
        else finishRegs s.expect.count s.heldRegs s := by
  have h7 := ne_true_of_eq_false (bit7_of_expected ha hf)
  rw [decodeHeld_of_complete ha hw.state, decodeHeldFrame, if_neg hw.not_bad, if_neg h7, if_neg (not_not.2 hf)]
  rfl

/-- A rule tells what DECODE does (R105). -/
theorem DecodeRule.eq {s t : State} (h : DecodeRule s t) : decodeHeld s = t := by
  cases h
  case badArguments ha => simp [decodeHeld, ha]
  case noFrame o ha ho =>
    cases hs : s.rx.state
    case complete =>
      rw [hs] at ho
      cases ho
    all_goals
      rw [hs] at ho
      cases ho
      simp [decodeHeld, ha, hs]
  case notWhole ha hs hn => rw [decodeHeld_of_complete ha hs, decodeHeldFrame, if_pos hn]
  case shortException ha hw h7 hn =>
    rw [decodeHeld_of_complete ha hw.state, decodeHeldFrame, if_neg hw.not_bad, if_pos h7, if_pos hn]
  case exception ha hw h7 hn =>
    rw [decodeHeld_of_complete ha hw.state, decodeHeldFrame, if_neg hw.not_bad, if_pos h7, if_neg (Nat.not_lt.2 hn)]
  case otherFunction ha hw h7 hf =>
    rw [decodeHeld_of_complete ha hw.state, decodeHeldFrame, if_neg hw.not_bad, if_neg (ne_true_of_eq_false h7),
      if_pos hf]
  case acknowledged ha hw hf hk =>
    rw [decodeHeld_of_expected ha hw hf, if_pos hk]
  case badData ha hw hf hk hd =>
    rw [decodeHeld_of_expected ha hw hf, if_neg (ne_true_of_eq_false hk)]
    rcases Receive.not_holdsData_iff.1 hd with hn | hn | hn
    · rw [if_pos hn]
    · rw [if_pos hn, ite_self]
    · unfold Expect.dataBytes at hn
      split at hn
      · next hb => rw [if_pos hb, if_pos hn, ite_self, ite_self]
      · next hb => rw [if_neg hb, if_pos hn, ite_self, ite_self]
  case bits ha hw hf hk hd =>
    obtain ⟨hfill, hcount⟩ := hd
    rw [decodeHeld_of_expected ha hw hf, if_neg (ne_true_of_eq_false (not_isWrite_of_isBitRead hk)), if_neg (by omega),
      if_neg (by omega), if_pos hk, if_neg (not_not.2 hcount)]
  case regs ha hw hf hk hd =>
    obtain ⟨hfill, hcount⟩ := hd
    rw [decodeHeld_of_expected ha hw hf, if_neg (ne_true_of_eq_false (not_isWrite_of_isRegRead hk)), if_neg (by omega),
      if_neg (by omega), if_neg (ne_true_of_eq_false (not_isBitRead_of_isRegRead hk)), if_neg (not_not.2 hcount)]

/-- Some rule ends every DECODE (R105). -/
theorem exists_decodeRule (s : State) : ∃ t, DecodeRule s t := by
  cases ha : decodeArgsOk s.expect
  case false => exact ⟨_, .badArguments ha⟩
  cases ho : s.rx.state.endOutcome
  case some o => exact ⟨_, .noFrame ha ho⟩
  have hs := RxState.endOutcome_eq_none_iff.1 ho
  by_cases hn : s.rx.fill.val < 8 ∨ s.rx.fill.val ≠ 6 + s.rx.length
  · exact ⟨_, .notWhole ha hs hn⟩
  have hw : s.rx.Whole := ⟨hs, by omega, by omega⟩
  cases h7 : (s.rx.cell 7).getLsbD 7
  case true =>
    by_cases h9 : s.rx.fill.val < 9
    · exact ⟨_, .shortException ha hw h7 h9⟩
    · exact ⟨_, .exception ha hw h7 (Nat.not_lt.1 h9)⟩
  by_cases hf : s.rx.cell 7 = s.expect.fc
  case neg => exact ⟨_, .otherFunction ha hw h7 hf⟩
  rcases kind_of_decodeArgsOk ha with hk | hk | hk
  · exact ⟨_, .acknowledged ha hw hf hk⟩
  · by_cases hd : s.rx.HoldsData s.expect.dataBytes
    · exact ⟨_, .bits ha hw hf hk (s.expect.dataBytes_of_isBitRead hk ▸ hd)⟩
    · exact ⟨_, .badData ha hw hf (not_isWrite_of_isBitRead hk) hd⟩
  · by_cases hd : s.rx.HoldsData s.expect.dataBytes
    · exact ⟨_, .regs ha hw hf hk (s.expect.dataBytes_of_isRegRead hk ▸ hd)⟩
    · exact ⟨_, .badData ha hw hf (not_isWrite_of_isRegRead hk) hd⟩

/-- What DECODE does is what its rule says (R105). -/
theorem decodeHeld_eq_iff {s t : State} : decodeHeld s = t ↔ DecodeRule s t := by
  refine ⟨?_, DecodeRule.eq⟩
  rintro rfl
  obtain ⟨t, h⟩ := exists_decodeRule s
  rwa [h.eq]

theorem decodeRule_decodeHeld (s : State) : DecodeRule s (decodeHeld s) := decodeHeld_eq_iff.1 rfl

end Sys2Proof.Machine
end

section
/-! WHAT ENDS A DECODE (R106 to R113): each statement is one of the rules, run by the command. -/
namespace Sys2Proof.Machine

/-! ## A rule run by the command -/

/-- The command DECODE decodes what is held, from ILLEGAL = 0 (R81, R105). -/
theorem exec_decode (s : State) : exec .decode s = .next (decodeHeld (beginCommand s)) := rfl

/-- A rule that records an outcome without values leaves everything but DEC_* (R114). -/
theorem finished_of_rule {s : State} {o : DecOutcome}
    (h : DecodeRule (beginCommand s) (finish o (beginCommand s))) :
    Finished o 0 .none s (decodeHeld (beginCommand s)) := by
  rw [h.eq]
  exact finished_finish (.inr rfl) o

/-- An exception leaves everything but DEC_* (R114). -/
theorem finishedException_of_rule {s : State} {code : Byte}
    (h : DecodeRule (beginCommand s) (finishException code (beginCommand s))) :
    Finished .protocolException code (excKindOf code) s (decodeHeld (beginCommand s)) := by
  rw [h.eq]
  exact finished_finishException (.inr rfl) code

/-- The bits of a read are those of the frame held (R112). -/
theorem decodedBits_of_rule {s : State}
    (h : DecodeRule (beginCommand s) (finishBits s.expect.count s.heldBits (beginCommand s)))
    (hmax : s.expect.count.toNat ≤ 2000) :
    DecodedBits s.expect.count (fun i => (s.rx.cell (9 + i / 8)).getLsbD (i % 8)) s (decodeHeld (beginCommand s)) := by
  rw [h.eq]
  exact decodedBits_finishBits (.inr rfl) s.length_heldBits hmax fun _ => s.getD_heldBits

/-- The values of a read are those of the frame held (R113). -/
theorem decodedRegs_of_rule {s : State}
    (h : DecodeRule (beginCommand s) (finishRegs s.expect.count s.heldRegs (beginCommand s)))
    (hmax : s.expect.count.toNat ≤ 125) :
    DecodedRegs s.expect.count (fun i => be16 (s.rx.cell (9 + 2 * i)) (s.rx.cell (10 + 2 * i))) s
      (decodeHeld (beginCommand s)) := by
  rw [h.eq]
  exact decodedRegs_finishRegs (.inr rfl) s.length_heldRegs hmax fun _ => s.getD_heldRegs

/-! ## The arguments and the receive state -/

/-- INVALID_ARGUMENT is the outcome of the argument check alone (R106, R107). -/
theorem DecodeRule.invalidArgument_iff {s t : State} (h : DecodeRule s t) :
    t.dec.outcome = .invalidArgument ↔ decodeArgsOk s.expect = false := by
  cases h
  case badArguments ha => exact iff_of_true rfl ha
  case noFrame o ha ho =>
    have hne : o ≠ .invalidArgument := by
      rintro rfl
      exact RxState.endOutcome_ne_invalidArgument _ ho
    exact iff_of_false hne (ne_false_of_eq_true ha)
  all_goals exact iff_of_false nofun (ne_false_of_eq_true ‹decodeArgsOk s.expect = true›)

/-- Settles O40: the outcome tells whether the argument check failed, and then its rule is the one that ends. -/
theorem decodeChecksItsArgumentsFirst : Obligations.DecodeChecksItsArgumentsFirst := by
  intro s
  have hiff := (decodeRule_decodeHeld (beginCommand s)).invalidArgument_iff
  refine ⟨_, exec_decode s, ?_, fun h => finished_of_rule (.badArguments (hiff.1 h))⟩
  rw [hiff]
  exact (decodeArgsOk_eq_false_iff s.expect).symm

/-- Settles O41: a state other than COMPLETE has its outcome; COMPLETE has a whole frame, where the invariant holds. -/
theorem decodeByReceiveState : Obligations.DecodeByReceiveState := by
  intro s ha
  have ends {o : DecOutcome} (ho : s.rx.state.endOutcome = some o) :
      Finished o 0 .none s (decodeHeld (beginCommand s)) := finished_of_rule (.noFrame ha ho)
  refine ⟨_, exec_decode s, fun hs => ends (hs ▸ rfl), fun hs => ends (hs ▸ rfl), fun hs => ends (hs ▸ rfl), ?_,
    fun hs hn => finished_of_rule (.notWhole ha hs hn), fun hs hinv => ?_⟩
  · rintro (hs | hs | hs)
    all_goals exact ends (hs ▸ rfl)
  · simp only [Receive.Inv, hs] at hinv
    obtain ⟨heq, hge, -⟩ := hinv
    exact ⟨hge, heq⟩

/-! ## The function code -/

/-- The class of an exception code by its number (R110). -/
theorem excKindOf_code (x : Byte) :
    (excKindOf x).code = if x = 1 ∨ x = 2 ∨ x = 3 ∨ x = 4 then x.extractLsb' 0 4 else 15 := by
  split
  · next h =>
    rcases h with rfl | rfl | rfl | rfl
    all_goals rfl
  · next h =>
    simp only [not_or] at h
    obtain ⟨h1, h2, h3, h4⟩ := h
    rw [excKindOf, if_neg h1, if_neg h2, if_neg h3, if_neg h4]
    rfl

/-- Settles O42: the two rules of an exception response, with and without its code. -/
theorem decodeReportsExceptions : Obligations.DecodeReportsExceptions :=
  ⟨fun s ha hs hge heq h7 => ⟨_, exec_decode s, fun hn => finished_of_rule (.shortException ha ⟨hs, hge, heq⟩ h7 hn),
    fun hn => finishedException_of_rule (.exception ha ⟨hs, hge, heq⟩ h7 hn)⟩,
    excKindOf_code, rfl, rfl, rfl, rfl⟩

/-- Settles O43: the rule of another function's response. -/
theorem decodeRejectsAnotherFunctionCode : Obligations.DecodeRejectsAnotherFunctionCode :=
  fun s ha hs hge heq h7 hf => ⟨_, exec_decode s, finished_of_rule (.otherFunction ha ⟨hs, hge, heq⟩ h7 hf)⟩

/-- Settles O44: the rule of an acknowledgement, which asks for no byte after offset 7. -/
theorem decodeAcceptsWriteAcknowledgements : Obligations.DecodeAcceptsWriteAcknowledgements := by
  intro s hfc hs hge heq hf
  have hk : isWrite s.expect.fc = true := isWrite_iff.2 (by simpa using hfc)
  exact ⟨_, exec_decode s, finished_of_rule (.acknowledged (decodeArgsOk_of_isWrite hk) ⟨hs, hge, heq⟩ hf hk)⟩

/-! ## The values of a read -/

/-- A read response that does not hold the data bytes of its count is malformed (R112, R113). -/
theorem finished_of_badData {s : State} {n : Nat} (ha : decodeArgsOk s.expect = true) (hw : s.rx.Whole)
    (hf : s.rx.cell 7 = s.expect.fc) (hk : isWrite s.expect.fc = false) (hdata : s.expect.dataBytes = n)
    (hn : s.rx.fill.val < 9 ∨ s.rx.fill.val ≠ 9 + (s.rx.cell 8).toNat ∨ (s.rx.cell 8).toNat ≠ n) :
    Finished .malformedResponse 0 .none s (decodeHeld (beginCommand s)) := by
  subst hdata
  exact finished_of_rule (.badData ha hw hf hk (Receive.not_holdsData_iff.2 hn))

/-- Settles O45: the bit-space rule when the response holds the data bytes of the count, else the malformed one. -/
theorem decodeUnpacksBits : Obligations.DecodeUnpacksBits := by
  intro s hfc h1 hmax hs hge heq hf
  have hk : isBitRead s.expect.fc = true := isBitRead_iff.2 hfc
  have ha := decodeArgsOk_of_isBitRead hk h1 hmax
  have hw : s.rx.Whole := ⟨hs, hge, heq⟩
  refine ⟨_, exec_decode s, finished_of_badData ha hw hf (not_isWrite_of_isBitRead hk)
    (Expect.dataBytes_of_isBitRead hk), fun _ hfill hcount => ?_⟩
  have hd : s.rx.HoldsData (ceil8 s.expect.count.toNat) := ⟨hfill.trans (congrArg (9 + ·) hcount), hcount⟩
  exact decodedBits_of_rule (.bits ha hw hf hk hd) hmax

/-- DEC_REGS as the host reads it, sign-extended (R41). -/
theorem readWindow_decRegs {i : Nat} (h : i < 125) (s : State) :
    readWindow (0x1C00 + 4 * i) s = sext32 (s.dec.reg i) :=
  readWindow_offset (.decRegs ⟨i, h⟩) s

/-- Settles O46: the register-space rule when the response holds the data bytes of the count, else the malformed one;
the host's reading is that of DEC_REGS. -/
theorem decodeSignExtendsRegisters : Obligations.DecodeSignExtendsRegisters := by
  intro s hfc h1 hmax hs hge heq hf
  have hk : isRegRead s.expect.fc = true := isRegRead_iff.2 hfc
  have ha := decodeArgsOk_of_isRegRead hk h1 hmax
  have hw : s.rx.Whole := ⟨hs, hge, heq⟩
  refine ⟨_, exec_decode s, finished_of_badData ha hw hf (not_isWrite_of_isRegRead hk)
    (Expect.dataBytes_of_isRegRead hk), fun _ hfill hcount => ?_⟩
  have hd : s.rx.HoldsData (2 * s.expect.count.toNat) := ⟨hfill.trans (congrArg (9 + ·) hcount), hcount⟩
  have hvalues := decodedRegs_of_rule (.regs ha hw hf hk hd) hmax
  exact ⟨hvalues, fun i hi => by rw [readWindow_decRegs (by omega), hvalues.values i hi]⟩

end Sys2Proof.Machine
end

section
/-! WHAT DECODE READS (R116, R118): of RX_BUF, bytes 4, 5 and those from offset 7 on, below RX_FILL. -/
namespace Sys2Proof.Machine

/-- `u` differs from `s` only in what DECODE does not read: the request operands, the transmit state, and the bytes of
RX_BUF that identify the transaction or lie at or above RX_FILL (R116, R118). -/
structure SameResponse (s u : State) : Prop where
  expect : u.expect = s.expect
  dec : u.dec = s.dec
  state : u.rx.state = s.rx.state
  fill : u.rx.fill.val = s.rx.fill.val
  cells : ∀ k, 4 ≤ k → k ≠ 6 → k < s.rx.fill.val → u.rx.cell k = s.rx.cell k

section
variable {s u : State} (h : SameResponse s u)
include h

theorem SameResponse.length_eq (hge : 8 ≤ s.rx.fill.val) : u.rx.length = s.rx.length :=
  length_congr (h.cells 4 (by decide) (by decide) (by omega)) (h.cells 5 (by decide) (by decide) (by omega))

theorem SameResponse.cell7 (hw : s.rx.Whole) : u.rx.cell 7 = s.rx.cell 7 :=
  h.cells 7 (by decide) (by decide) hw.fill_ge

theorem SameResponse.whole (hw : s.rx.Whole) : u.rx.Whole := by
  obtain ⟨hs, hge, heq⟩ := hw
  exact ⟨h.state.trans hs, by rwa [h.fill], by rwa [h.fill, h.length_eq hge]⟩

theorem SameResponse.expected (hw : s.rx.Whole) (hf : s.rx.cell 7 = s.expect.fc) : u.rx.cell 7 = u.expect.fc := by
  rwa [h.cell7 hw, h.expect]

/-- The byte count is a byte of the frame (R112, R113, R118). -/
theorem SameResponse.holdsData_iff {n : Nat} : u.rx.HoldsData n ↔ s.rx.HoldsData n := by
  have cell8 (hfill : s.rx.fill.val = 9 + n) : u.rx.cell 8 = s.rx.cell 8 :=
    h.cells 8 (by decide) (by decide) (by omega)
  refine ⟨fun ⟨hfill, hcount⟩ => ?_, fun ⟨hfill, hcount⟩ => ⟨h.fill.trans hfill, by rwa [cell8 hfill]⟩⟩
  rw [h.fill] at hfill
  exact ⟨hfill, by rwa [← cell8 hfill]⟩

/-- A count's bits lie in the data bytes of the frame (R112, R118). -/
theorem SameResponse.heldBits_eq (hd : s.rx.HoldsData (ceil8 s.expect.count.toNat)) : u.heldBits = s.heldBits := by
  rw [State.heldBits, State.heldBits, h.expect]
  refine List.map_congr_left fun i hi => ?_
  have hi := List.mem_range.1 hi
  have hfill := hd.fill
  rw [ceil8] at hfill
  rw [h.cells (9 + i / 8) (by omega) (by omega) (by omega)]

/-- A count's values lie in the data bytes of the frame (R113, R118). -/
theorem SameResponse.heldRegs_eq (hd : s.rx.HoldsData (2 * s.expect.count.toNat)) : u.heldRegs = s.heldRegs := by
  rw [State.heldRegs, State.heldRegs, h.expect]
  refine List.map_congr_left fun i hi => ?_
  have hi := List.mem_range.1 hi
  have hfill := hd.fill
  rw [h.cells (9 + 2 * i) (by omega) (by omega) (by omega), h.cells (10 + 2 * i) (by omega) (by omega) (by omega)]

/-- The rule that ends a DECODE of `s` ends one of `u`, with the same results. -/
theorem SameResponse.rule {t : State} (ht : DecodeRule s t) : ∃ v, DecodeRule u v ∧ v.dec = t.dec := by
  have finish_dec (o : DecOutcome) : (finish o u).dec = (finish o s).dec := by rw [finish, finish, h.dec]
  cases ht
  case badArguments ha => exact ⟨_, .badArguments (h.expect ▸ ha), finish_dec _⟩
  case noFrame ha ho => exact ⟨_, .noFrame (h.expect ▸ ha) (h.state ▸ ho), finish_dec _⟩
  case notWhole ha hs hn =>
    refine ⟨_, .notWhole (h.expect ▸ ha) (h.state.trans hs) ?_, finish_dec _⟩
    rw [h.fill]
    by_cases hge : 8 ≤ s.rx.fill.val
    · rwa [h.length_eq hge]
    · exact .inl (Nat.not_le.1 hge)
  case shortException ha hw h7 hn =>
    exact ⟨_, .shortException (h.expect ▸ ha) (h.whole hw) (h.cell7 hw ▸ h7) (h.fill ▸ hn), finish_dec _⟩
  case exception ha hw h7 hn =>
    refine ⟨_, .exception (h.expect ▸ ha) (h.whole hw) (h.cell7 hw ▸ h7) (h.fill ▸ hn), ?_⟩
    rw [finishException, finishException, h.dec, h.cells 8 (by decide) (by decide) hn]
  case otherFunction ha hw h7 hf =>
    exact ⟨_, .otherFunction (h.expect ▸ ha) (h.whole hw) (h.cell7 hw ▸ h7) (by rwa [h.cell7 hw, h.expect]),
      finish_dec _⟩
  case acknowledged ha hw hf hk =>
    exact ⟨_, .acknowledged (h.expect ▸ ha) (h.whole hw) (h.expected hw hf) (h.expect ▸ hk), finish_dec _⟩
  case badData ha hw hf hk hd =>
    exact ⟨_, .badData (h.expect ▸ ha) (h.whole hw) (h.expected hw hf) (h.expect ▸ hk)
      (by rwa [h.expect, h.holdsData_iff]), finish_dec _⟩
  case bits ha hw hf hk hd =>
    refine ⟨_, .bits (h.expect ▸ ha) (h.whole hw) (h.expected hw hf) (h.expect ▸ hk)
      (by rwa [h.expect, h.holdsData_iff]), ?_⟩
    rw [finishBits, finishBits, h.dec, h.expect, h.heldBits_eq hd]
  case regs ha hw hf hk hd =>
    refine ⟨_, .regs (h.expect ▸ ha) (h.whole hw) (h.expected hw hf) (h.expect ▸ hk)
      (by rwa [h.expect, h.holdsData_iff]), ?_⟩
    rw [finishRegs, finishRegs, h.dec, h.expect, h.heldRegs_eq hd]

/-- Two states that hold the same response get the same results from DECODE (R116, R118). -/
theorem SameResponse.exec_decode_dec :
    ∃ t v, exec .decode s = .next t ∧ exec .decode u = .next v ∧ v.dec = t.dec := by
  have hbegun : SameResponse (beginCommand s) (beginCommand u) := ⟨h.expect, h.dec, h.state, h.fill, h.cells⟩
  obtain ⟨v, hv, hdec⟩ := hbegun.rule (decodeRule_decodeHeld _)
  exact ⟨_, v, exec_decode s, congrArg Host.Outcome.next hv.eq, hdec⟩

end

/-- Settles O51: states with the same bytes below RX_FILL hold the same response; and a frame that is too short for its
byte count is not whole, or is a read response without its data bytes. -/
theorem decodeReadsOnlyTheFrame : Obligations.DecodeReadsOnlyTheFrame := by
  refine ⟨fun s buf hbuf => SameResponse.exec_decode_dec ⟨rfl, rfl, rfl, rfl, fun k _ _ => hbuf k⟩,
    fun s ha hfc hs hge hf hn => ⟨_, exec_decode s, ?_⟩⟩
  by_cases heq : s.rx.fill.val = 6 + s.rx.length
  · have hk : isWrite s.expect.fc = false := by
      simp only [List.mem_cons, List.not_mem_nil, or_false] at hfc
      rcases hfc with h | h | h | h
      all_goals
        rw [h]
        rfl
    exact finished_of_badData ha ⟨hs, by omega, heq⟩ hf hk rfl (.inr (.inl (by omega)))
  · exact finished_of_rule (.notWhole ha hs (.inr heq))

/-- Settles O52: the identifiers lie at the offsets that no rule asks about, and neither does one ask about REQ_*. -/
theorem decodeIgnoresTheIdentifiers : Obligations.DecodeIgnoresTheIdentifiers :=
  fun s buf req hbuf => SameResponse.exec_decode_dec
    ⟨rfl, rfl, rfl, rfl, fun k h4 h6 _ => hbuf k (by omega) (by omega) (by omega) (by omega) h6⟩

end Sys2Proof.Machine
end

section
/-! THE EVENTS OF THE RECEIVE ASSEMBLER (R121 to R125). A byte or the end of the stream moves STATE only out of HEADER
and BODY; a byte stored there moves it by the check of the Length field or of a whole frame. -/
namespace Sys2Proof.Machine

/-! ## STATE after a byte -/

@[simp] theorem store_state (r : Receive) (b : Byte) : (r.store b).state = r.state := by
  unfold Receive.store
  split <;> rfl

theorem checkLength_state (r : Receive) :
    r.checkLength.state =
      if r.fill.val = 6 then if r.length < 2 ∨ 260 < 6 + r.length then .malformed else .body else r.state := by
  rw [Receive.checkLength, Config.rxCap_eq]
  split_ifs <;> rfl

theorem checkWhole_state (r : Receive) :
    r.checkWhole.state = if r.fill.val = 6 + r.length then .complete else r.state := by
  rw [Receive.checkWhole]
  split <;> rfl

theorem takeByte_of_header {r : Receive} (b : Byte) (hs : r.state = .header) :
    r.takeByte b = (r.store b).checkLength := by
  rw [Receive.takeByte, hs]

theorem takeByte_of_body {r : Receive} (b : Byte) (hs : r.state = .body) :
    r.takeByte b = (r.store b).checkWhole := by
  rw [Receive.takeByte, hs]

/-- The frame held after a byte has the Length field of the store: the checks change STATE alone. -/
theorem takeByte_length {r : Receive} (b : Byte) (hc : r.collecting = true) :
    (r.takeByte b).length = (r.store b).length := by
  obtain ⟨-, -, hbuf⟩ := takeByte_fields r b hc
  exact length_congr (by rw [Receive.cell, Receive.cell, hbuf]) (by rw [Receive.cell, Receive.cell, hbuf])

/-- STATE after a byte of the header: the sixth one ends the header, with a Length in bounds or out of them (R122). -/
theorem takeByte_state_of_header {r : Receive} (b : Byte) (hs : r.state = .header) :
    (r.takeByte b).state =
      if (r.takeByte b).fill.val = 6 then
        if (r.takeByte b).length < 2 ∨ 260 < 6 + (r.takeByte b).length then .malformed else .body
      else .header := by
  have hc : r.collecting = true := (collecting_iff r).2 (.inl hs)
  rw [takeByte_length b hc, (takeByte_fields r b hc).1, takeByte_of_header b hs, checkLength_state, store_state, hs]

/-- STATE after a byte of the body: the last one makes the frame whole (R122). -/
theorem takeByte_state_of_body {r : Receive} (b : Byte) (hs : r.state = .body) :
    (r.takeByte b).state =
      if (r.takeByte b).fill.val = 6 + (r.takeByte b).length then .complete else .body := by
  have hc : r.collecting = true := (collecting_iff r).2 (.inr hs)
  rw [takeByte_length b hc, (takeByte_fields r b hc).1, takeByte_of_body b hs, checkWhole_state, store_state, hs]

/-! ## The end of a reception -/

theorem endWith_of_collecting {r : Receive} (final : RxState) (hc : r.collecting = true) :
    r.endWith final = { r with state := final } := by
  rcases endWith_cases r final with ⟨-, h⟩ | ⟨hc', -⟩
  · exact h
  · exact absurd hc (ne_true_of_eq_false hc')

theorem endWith_of_not_collecting {r : Receive} (final : RxState) (hc : r.collecting = false) :
    r.endWith final = r.dropEvent := by
  rcases endWith_cases r final with ⟨hc', -⟩ | ⟨-, h⟩
  · exact absurd hc' (ne_true_of_eq_false hc)
  · exact h

/-! ## Any event -/

/-- What an input other than RX_ARM and reset can make of the receive state: it keeps it, takes a byte, or ends the
reception (R122 to R125). -/
inductive Receive.Event (r : Receive) : Receive → Prop
  | keep : r.Event r
  | byte (b : Byte) : r.Event (r.takeByte b)
  | ending {final : RxState} (hf : final = .closed ∨ final = .ioerr) : r.Event (r.endWith final)

theorem Receive.event_of_eq {r r' : Receive} (h : r' = r) : r.Event r' := h ▸ .keep

theorem Receives.rx_event {s t : State} (h : Receives s t) : s.rx.Event t.rx := by
  rcases h with rfl | ⟨b, rfl⟩ | ⟨final, hf, rfl⟩
  · exact .keep
  · exact .byte b
  · exact .ending hf

/-- An event keeps the assembler's invariant (R129). -/
theorem Receive.Event.inv {r r' : Receive} (h : r.Event r') (hinv : r.Inv) : r'.Inv := by
  cases h with
  | keep => exact hinv
  | byte b => exact takeByte_inv b hinv
  | ending hf => exact endWith_inv hf hinv

/-- An event that arrives while nothing is collected leaves STATE (R121, R128). -/
theorem Receive.Event.state_eq {r r' : Receive} (h : r.Event r') (hc : r.collecting = false) :
    r'.state = r.state := by
  cases h with
  | keep => rfl
  | byte b => rw [takeByte_of_not_collecting r b hc, Receive.dropEvent_state]
  | ending => rw [endWith_of_not_collecting _ hc, Receive.dropEvent_state]

/-- A reception moves to another state than IDLE. -/
theorem Receive.Event.not_idle_of_collecting {r r' : Receive} (h : r.Event r') (hc : r.collecting = true) :
    r'.state ≠ .idle := by
  cases h with
  | keep =>
    intro hs
    simp [Receive.collecting, hs] at hc
  | byte b =>
    rcases (collecting_iff r).1 hc with hs | hs
    · rw [takeByte_state_of_header b hs]
      split_ifs <;> decide
    · rw [takeByte_state_of_body b hs]
      split_ifs <;> decide
  | ending hf =>
    rw [endWith_of_collecting _ hc]
    rcases hf with rfl | rfl
    all_goals exact nofun

/-- No event enters IDLE (R129). -/
theorem Receive.Event.idle_of_idle {r r' : Receive} (h : r.Event r') (hidle : r'.state = .idle) :
    r.state = .idle := by
  cases hc : r.collecting
  · rw [← h.state_eq hc, hidle]
  · exact absurd hidle (h.not_idle_of_collecting hc)

end Sys2Proof.Machine
end

section
/-! THE RECEIVE ASSEMBLER OVER A STEP (R128, R129). RX_ARM and the reset input restart it; every other input keeps it or
is one of its events. -/
namespace Sys2Proof.Machine

/-! ## What a step leaves of the receive state -/

/-- A command other than RX_ARM leaves the receive state (R78). -/
theorem exec_command_rx_cases {i : Instr} {w : Word32} {s t : State} (hw : encode i = .command w)
    (h : exec i s = .next t) : t.rx = s.rx ∨ ((Input.write 0 4 w).isArm ∧ t.rx = s.rx.arm) := by
  rcases exec_command_cases hw h with ⟨-, henc⟩ | ⟨-, hdec⟩ | ⟨harm, rfl⟩
  · obtain ⟨-, -, hrx, -⟩ := henc.frame
    exact .inl hrx
  · obtain ⟨-, -, -, -, hrx, -⟩ := hdec.frame
    exact .inl hrx
  · exact .inr ⟨harm, rfl⟩

/-- What a step does to the receive state: an event at most, unless its input is RX_ARM or reset (R120 to R125, R147). -/
theorem step_rx_cases {s t : State} (h : step s = .next t) :
    s.rx.Event t.rx ∨ (∃ i, s.inputs.head? = some i ∧ i.isArm ∧ t.rx = s.rx.arm) ∨
      (s.inputs.head? = some .reset ∧ t.rx = Receive.reset) := by
  rcases step_cases h with ⟨-, rfl⟩ | ⟨i, rest, hi, hcase⟩
  · exact .inl .keep
  rw [hi, List.head?_cons]
  rcases hcase with ⟨_, -, rfl⟩ | ⟨_, _, rfl, hd, hex⟩ | ⟨_, _, -, -, rfl⟩ | ⟨offset, v, -, -, rfl⟩ |
    ⟨_, _, -, hd, hex⟩ | ⟨rfl, rfl⟩
  · exact .inl .keep
  · rcases exec_command_rx_cases (encode_of_decodeCommand hd) hex with hrx | ⟨harm, hrx⟩
    · exact .inl (Receive.event_of_eq hrx)
    · exact .inr (.inl ⟨_, rfl, harm, hrx⟩)
  · exact .inl .keep
  · obtain ⟨-, -, hrx, -⟩ := writeWindow_frame offset v { s with inputs := rest }
    exact .inl (Receive.event_of_eq hrx)
  · exact .inl (receives_of_event (encode_of_decodeEvent hd) hex).rx_event
  · exact .inr (.inr ⟨rfl, rfl⟩)

/-! ## The invariant and the states that are held -/

theorem Receive.arm_inv (r : Receive) : r.arm.Inv := Nat.zero_le 5

theorem Receive.reset_inv : Receive.reset.Inv := rfl

/-- Settles O3: an event keeps the invariant and does not enter IDLE, and RX_ARM and reset start from an empty frame. -/
theorem stepKeepsReceiveInvariant : Obligations.StepKeepsReceiveInvariant := by
  intro s t hinv h
  have hroom : s.rx.state = .header ∨ s.rx.state = .body → s.rx.fill.val < 260 :=
    fun hs => fill_lt_of_inv hinv ((collecting_iff _).2 hs)
  rcases step_rx_cases h with hev | ⟨_, -, -, hrx⟩ | ⟨hreset, hrx⟩
  · exact ⟨hev.inv hinv, fun hidle => .inl (hev.idle_of_idle hidle), hroom⟩
  · rw [hrx]
    exact ⟨s.rx.arm_inv, nofun, hroom⟩
  · rw [hrx]
    exact ⟨Receive.reset_inv, fun _ => .inr hreset, hroom⟩

/-- Settles O28: where nothing is collected an event leaves STATE, so what moves it is RX_ARM or reset. -/
theorem terminalReceiveStatesAreHeld : Obligations.TerminalReceiveStatesAreHeld := by
  refine ⟨fun s t i rest hi h hh hb hne => ?_, fun s e b he hh hb => ?_⟩
  · rcases step_rx_cases h with hev | ⟨j, hj, harm, -⟩ | ⟨hreset, -⟩
    · exact absurd (hev.state_eq ((collecting_false_iff _).2 ⟨hh, hb⟩)) hne
    · rw [hi] at hj
      cases hj
      exact .inl harm
    · rw [hi] at hreset
      cases hreset
      exact .inr rfl
  · have held {t : State} {w : EventWord} (hw : encode e = .event w) (h : exec e s = .next t) :
        ∃ t, exec e s = .next t ∧ t.rx.state = s.rx.state :=
      ⟨t, h, (receives_of_event hw h).rx_event.state_eq ((collecting_false_iff _).2 ⟨hh, hb⟩)⟩
    simp only [List.mem_cons, List.not_mem_nil, or_false] at he
    rcases he with rfl | rfl | rfl | rfl
    all_goals exact held rfl rfl

end Sys2Proof.Machine
end

section
/-! RX_BYTE, RX_EOS, RX_ERR AND RX_ARM FROM EVERY STATE (R120, R122 to R124). -/
namespace Sys2Proof.Machine

theorem receiveOnly_rx (s : State) (r : Receive) : ReceiveOnly s { s with rx := r } :=
  ⟨rfl, rfl, rfl, rfl, rfl, rfl, rfl⟩

theorem exec_rxByte (b : Byte) (s : State) : exec (.rxByte b) s = .next { s with rx := s.rx.takeByte b } := rfl

/-- The cells after a byte of a frame: the byte at RX_FILL, every other cell as before (R122). -/
theorem takeByte_cell {r : Receive} (b : Byte) (hc : r.collecting = true) (h : r.fill.val < 260) (k : Nat) :
    (r.takeByte b).cell k = if k = r.fill.val then b else r.cell k := by
  obtain ⟨-, -, hbuf⟩ := takeByte_fields r b hc
  rw [← store_cell r b h, Receive.cell, Receive.cell, hbuf]

/-- Settles O54: HEADER and BODY store the byte, since the invariant leaves room for it, and STATE is what the check of
each of them makes it. -/
theorem byteIsStoredOrDropped : Obligations.ByteIsStoredOrDropped := by
  intro s b hinv
  refine ⟨_, exec_rxByte b s, receiveOnly_rx s _, fun hs => ?_, fun hs hn => ?_, fun hs h6 => ⟨fun hl => ?_,
    fun hlo hhi => ?_⟩, fun hs => ⟨fun hw => ?_, fun hn => ?_⟩, fun hh hb => ?_⟩
  · have hc := (collecting_iff s.rx).2 hs
    have hroom := fill_lt_of_inv hinv hc
    obtain ⟨hfill, hdrop, -⟩ := takeByte_fields s.rx b hc
    obtain ⟨hfill', -, hdrop', -⟩ := store_of_lt s.rx b hroom
    exact ⟨(congrArg Fin.val hfill).trans hfill', hdrop.trans hdrop',
      (takeByte_cell b hc hroom _).trans (if_pos rfl), fun k hk => (takeByte_cell b hc hroom k).trans (if_neg hk)⟩
  · exact (takeByte_state_of_header b hs).trans (if_neg hn)
  · exact (takeByte_state_of_header b hs).trans ((if_pos h6).trans (if_pos hl))
  · have hl : ¬((s.rx.takeByte b).length < 2 ∨ 260 < 6 + (s.rx.takeByte b).length) :=
      not_or.2 ⟨Nat.not_lt.2 hlo, Nat.not_lt.2 hhi⟩
    exact (takeByte_state_of_header b hs).trans ((if_pos h6).trans (if_neg hl))
  · exact (takeByte_state_of_body b hs).trans (if_pos hw)
  · exact (takeByte_state_of_body b hs).trans (if_neg hn)
  · exact takeByte_of_not_collecting s.rx b ((collecting_false_iff _).2 ⟨hh, hb⟩)

/-- Settles O55: the two events are `endWith`, which ends a reception or drops the event. -/
theorem endOfStreamAndErrorEndAReception : Obligations.EndOfStreamAndErrorEndAReception := by
  intro s i final hi
  have hex : exec i s = .next { s with rx := s.rx.endWith final } := by
    simp only [List.mem_cons, List.not_mem_nil, or_false, Prod.mk.injEq] at hi
    rcases hi with ⟨rfl, rfl⟩ | ⟨rfl, rfl⟩
    all_goals rfl
  refine ⟨_, hex, receiveOnly_rx s _, fun hs => ?_, fun hh hb => ?_⟩
  · exact endWith_of_collecting final ((collecting_iff _).2 hs)
  · exact endWith_of_not_collecting final ((collecting_false_iff _).2 ⟨hh, hb⟩)

/-- Settles O53: RX_ARM is `Receive.arm` on a command begun, and neither asks about what it overwrites. -/
theorem armStartsANewFrame : Obligations.ArmStartsANewFrame :=
  ⟨rfl, fun _ => ⟨_, rfl, rfl, rfl, rfl, fun _ => rfl, need_of_header rfl, rfl, rfl, rfl, rfl, rfl, rfl, rfl, rfl⟩⟩

end Sys2Proof.Machine
end

section
/-! RESET (R147). The reset values are all zero: each register assembles its reading from a field or from cells that
`State.reset` fills with 0, and the inputs and the values read, which the reset input keeps, are behind no register. -/
namespace Sys2Proof.Machine

/-! ## Readings after reset -/

theorem wordOfBits_eq_zero {f : Nat → Bool} (h : ∀ k, f k = false) : wordOfBits f = 0 :=
  BitVec.eq_of_getLsbD_eq fun k hk =>
    (getLsbD_wordOfBits f hk).trans ((h k).trans BitVec.getLsbD_zero.symm)

/-- Every register reads 0 in the state after reset: the scalar fields by their codes, the arrays cell by cell. -/
theorem readReg_reset (r : Reg) : readReg r State.reset = 0 := by
  cases r
  case coilvWord | decBitsWord => exact wordOfBits_eq_zero fun _ => Cells.get_fill false _
  case regv => exact congrArg (BitVec.setWidth 32) (Cells.get_fill 0 _)
  case txBuf | rxBuf => exact congrArg (BitVec.setWidth 32) (Cells.get_fill 0 _)
  case decRegs => exact congrArg sext32 (Cells.get_fill 0 _)
  all_goals rfl

/-- The reset input leaves the registers as `State.reset` has them, whatever is pending or was read. -/
theorem readReg_resetInput (r : Reg) (s : State) : readReg r (resetInput s) = 0 := by
  have hreset : readReg r (resetInput s) = readReg r State.reset := by cases r <;> rfl
  exact hreset.trans (readReg_reset r)

/-! ## Commands -/

/-- No word written to CMD changes a request operand register: a legal one runs an instruction, an illegal one sets its
flag (R20, R81). -/
theorem runCommand_req {w : Word32} {s t : State} (h : runCommand w s = .next t) : t.req = s.req := by
  by_cases hlegal : ∃ i, decodeCommand w = .ok i
  · obtain ⟨i, hi⟩ := hlegal
    exact exec_req ((runCommand_of_ok s hi).symm.trans h)
  · cases (runCommand_of_illegal s (not_exists.1 hlegal)).symm.trans h
    rfl

/-- Settles O1: the reset input's step is `resetInput`, whose registers read as in `State.reset`; a command has a next
state and keeps the request registers in it. -/
theorem resetInputRestoresEveryRegister : Obligations.ResetInputRestoresEveryRegister := by
  refine ⟨fun s rest hi => ⟨_, step_cons hi, fun r => readReg_resetInput r _⟩, readReg_reset, fun w s => ?_⟩
  obtain ⟨t, ht⟩ := runCommand_isNext w s
  exact ⟨t, ht, runCommand_req ht⟩

end Sys2Proof.Machine
end

section
/-! THE INVARIANT OF THE BLOCK OVER A STEP AND OVER A RUN (R32, R38, R64, R65, R82, R110, R129). Of the transmit state
and the decode results, a step writes one anew, resets both, or leaves both; what is written anew meets its invariant
whatever stood there before, a refused encode included. -/
namespace Sys2Proof.Machine

/-! ## The state after reset -/

theorem Transmit.reset_inv : Transmit.reset.Inv :=
  ⟨by decide, fun h => absurd rfl h, fun h => absurd rfl h, fun h => absurd rfl h, fun h => absurd rfl h⟩

theorem Result.reset_inv : Result.reset.Inv := ⟨nofun, nofun, fun _ _ => rfl, nofun, fun _ => ⟨rfl, rfl⟩⟩

/-- Settles O2, part by part. -/
theorem resetStateMeetsTheInvariant : Obligations.ResetStateMeetsTheInvariant :=
  ⟨Transmit.reset_inv, Receive.reset_inv, Result.reset_inv⟩

/-! ## What an encode and a decode leave -/

/-- A refused encode has no frame, so the transmit invariant asks nothing of TX_BUF (R91). -/
theorem refuse_tx_inv (s : State) : (refuse s).tx.Inv :=
  ⟨iff_of_false nofun (absurd rfl), (absurd rfl ·), (absurd rfl ·), (absurd rfl ·), (absurd rfl ·)⟩

/-- The first eight cells of TX_BUF after a frame of the encoder: its header and its function code (R31, R63). -/
theorem emit_frame_cell (tid pid : Word16) (uid fc fc' : Byte) (body : List Byte) (count : Word16) (s : State) {k : Nat}
    (h : k < 8) :
    (emit (frame tid pid uid fc body) fc' count s).tx.cell k = (frame tid pid uid fc body).getD k 0 := by
  rw [emit_cell, if_pos (by rw [length_frame]; omega)]

/-- A request frame in TX_BUF meets the transmit invariant (R32, R64, R65, R82). -/
theorem emit_frame_tx_inv {fc : Byte} {body : List Byte} (tid : Word16) (uid : Byte) (count : Word16) (s : State)
    (hfc : isFunctionCode fc = true) (hmin : 4 ≤ body.length) (hmax : body.length ≤ 251) :
    (emit (frame tid 0 uid fc body) fc count s).tx.Inv := by
  have hlen : (emit (frame tid 0 uid fc body) fc count s).tx.len.val = 8 + body.length := by
    rw [emit_len _ _ _ _ (by rw [length_frame]; omega), length_frame]
  refine ⟨iff_of_true rfl (by omega), fun _ => by omega, fun _ => ⟨?_, ?_⟩, fun _ => ?_, fun _ => ?_⟩
  · exact emit_frame_cell tid 0 uid fc fc body count s (k := 2) (by decide)
  · exact emit_frame_cell tid 0 uid fc fc body count s (k := 3) (by decide)
  · have hfield : be16 ((frame tid 0 uid fc body).getD 4 0) ((frame tid 0 uid fc body).getD 5 0) =
        BitVec.ofNat 16 (2 + body.length) := be16_hi8_lo8 _
    rw [emit_frame_cell _ _ _ _ _ _ _ _ (by decide), emit_frame_cell _ _ _ _ _ _ _ _ (by decide), hfield, hlen,
      BitVec.toNat_ofNat]
    omega
  · rw [emit_frame_cell _ _ _ _ _ _ _ _ (by decide)]
    exact hfc

/-- Whatever an encode leaves meets the transmit invariant. -/
theorem Encodes.tx_inv {s t : State} (h : Encodes s t) : t.tx.Inv := by
  rcases h with rfl | ⟨tid, uid, fc, body, count, hfc, hmin, hmax, rfl⟩
  · exact refuse_tx_inv s
  · exact emit_frame_tx_inv tid uid count s hfc hmin hmax

/-- Whatever a decode leaves meets the invariant of the results: values only with a read's outcome and within its
limits, an exception class only with its code (R38, R39, R110). -/
theorem Decodes.dec_inv {s t : State} (h : Decodes s t) : t.dec.Inv := by
  rcases h with ⟨o, hbits, hregs, hexc, rfl⟩ | ⟨code, rfl⟩ | ⟨values, h1, hmax, -, rfl⟩ | ⟨values, h1, hmax, -, rfl⟩
  · exact ⟨(absurd · hbits), (absurd · hregs), fun _ _ => rfl, (absurd · hexc), fun _ => ⟨rfl, rfl⟩⟩
  · exact ⟨nofun, nofun, fun _ _ => rfl, fun _ => rfl, (absurd rfl ·)⟩
  · exact ⟨fun _ => ⟨h1, hmax⟩, nofun, (absurd rfl ·), nofun, fun _ => ⟨rfl, rfl⟩⟩
  · exact ⟨nofun, fun _ => ⟨h1, hmax⟩, fun _ => (absurd rfl ·), nofun, fun _ => ⟨rfl, rfl⟩⟩

/-! ## A step -/

/-- What a step does to the transmit state and the decode results: an encode writes one, a decode the other, reset both,
and any other input neither (R58, R147). -/
theorem step_outputs_cases {s t : State} (h : step s = .next t) :
    (t.tx = s.tx ∧ t.dec = s.dec) ∨ (t.dec = s.dec ∧ ∃ s₀, Encodes s₀ t) ∨ (t.tx = s.tx ∧ ∃ s₀, Decodes s₀ t) ∨
      (t.tx = Transmit.reset ∧ t.dec = Result.reset) := by
  rcases step_cases h with ⟨-, rfl⟩ | ⟨i, rest, -, hcase⟩
  · exact .inl ⟨rfl, rfl⟩
  rcases hcase with ⟨_, -, rfl⟩ | ⟨_, _, -, hd, hex⟩ | ⟨_, _, -, -, rfl⟩ | ⟨offset, v, -, -, rfl⟩ |
    ⟨_, _, -, hd, hex⟩ | ⟨-, rfl⟩
  · exact .inl ⟨rfl, rfl⟩
  · rcases exec_command_cases (encode_of_decodeCommand hd) hex with ⟨-, henc⟩ | ⟨-, hdec⟩ | ⟨-, rfl⟩
    · obtain ⟨-, -, -, hkeep, -⟩ := henc.frame
      exact .inr (.inl ⟨hkeep, _, henc⟩)
    · obtain ⟨-, -, -, hkeep, -⟩ := hdec.frame
      exact .inr (.inr (.inl ⟨hkeep, _, hdec⟩))
    · exact .inl ⟨rfl, rfl⟩
  · exact .inl ⟨rfl, rfl⟩
  · obtain ⟨-, htx, -, hdec, -⟩ := writeWindow_frame offset v { s with inputs := rest }
    exact .inl ⟨htx, hdec⟩
  · obtain ⟨-, -, -, htx, hdec, -⟩ := (receives_of_event (encode_of_decodeEvent hd) hex).frame
    exact .inl ⟨htx, hdec⟩
  · exact .inr (.inr (.inr ⟨rfl, rfl⟩))

/-- Settles O4: the receive part is O3, and a step keeps the other two parts or writes them anew. -/
theorem stepKeepsTheInvariant : Obligations.StepKeepsTheInvariant := by
  intro s t hinv h
  obtain ⟨htx, hrx, hdec⟩ := hinv
  have hrx' : t.rx.Inv := (stepKeepsReceiveInvariant s t hrx h).1
  rcases step_outputs_cases h with ⟨htx', hdec'⟩ | ⟨hdec', _, henc⟩ | ⟨htx', _, hdecodes⟩ | ⟨htx', hdec'⟩
  · exact ⟨htx' ▸ htx, hrx', hdec' ▸ hdec⟩
  · exact ⟨henc.tx_inv, hrx', hdec' ▸ hdec⟩
  · exact ⟨htx' ▸ htx, hrx', hdecodes.dec_inv⟩
  · exact ⟨htx' ▸ Transmit.reset_inv, hrx', hdec' ▸ Result.reset_inv⟩

/-! ## A run -/

/-- What every step keeps, every run keeps. -/
theorem run_keeps {P : State → Prop} (hstep : ∀ s t, P s → step s = .next t → P t) {n : Nat} {s t : State} (hs : P s)
    (h : Host.Core.run core n s = .next t) : P t := by
  induction n generalizing s with
  | zero =>
    cases h
    exact hs
  | succ n ih =>
    cases hfirst : step s with
    | next u =>
      rw [run_succ n hfirst] at h
      exact ih (hstep s u hs hfirst) h
    | fault r => exact nomatch r
    | refused r =>
      simp only [Host.Core.run, show core.step s = .refused r from hfirst] at h
      cases h

/-- Settles O5: reset meets the invariant with any inputs pending (O2), and every step keeps it (O4). -/
theorem reachableStatesMeetTheInvariant : Obligations.ReachableStatesMeetTheInvariant := by
  rintro t ⟨inputs, n, h⟩
  obtain ⟨htx, hrx, hdec⟩ := resetStateMeetsTheInvariant
  have hstart : ({ State.reset with inputs := inputs } : State).Inv := ⟨htx, hrx, hdec⟩
  exact run_keeps stepKeepsTheInvariant hstart h

end Sys2Proof.Machine
end

section
/-! THE DECODER AND THE ENCODER ARE INVERSE (R67 to R72, R78, R79). What a field decoder accepts is said once, as an
equivalence: read one way it decodes an encoding, read the other it gives the encoding of what was decoded. -/
namespace Sys2Proof

/-- A decoded field is put into its row, or its error stands. -/
theorem exceptMap_eq_ok_iff {ε α β : Type} {f : α → β} {x : Except ε α} {b : β} :
    x.map f = .ok b ↔ ∃ a, x = .ok a ∧ f a = b := by
  cases x <;> simp [Except.map]

/-! ## What each field decoder accepts -/

theorem decodeReadCount_eq_ok_iff {max : Nat} {count c : Word16} {rest : List Byte} :
    decodeReadCount max count rest = .ok c ↔ rest = [] ∧ count = c ∧ countInRange max c.toNat = true := by
  unfold decodeReadCount
  split_ifs with hrest hrange
  · exact iff_of_false nofun fun ⟨h, _⟩ => hrest h
  · rw [Except.ok.injEq]
    exact ⟨fun h => ⟨not_not.1 hrest, h, h ▸ hrange⟩, fun ⟨_, h, _⟩ => h⟩
  · exact iff_of_false nofun fun ⟨_, h, hrange'⟩ => hrange (h ▸ hrange')

theorem decodeCoilValue_eq_ok_iff {value : Word16} {rest : List Byte} {b : Bool} :
    decodeCoilValue value rest = .ok b ↔ rest = [] ∧ value = coilWord b := by
  unfold decodeCoilValue
  split_ifs with hrest htrue hfalse
  · exact iff_of_false nofun fun ⟨h, _⟩ => hrest h
  · cases b <;> simp [coilWord, not_not.1 hrest, htrue]
  · cases b <;> simp [coilWord, not_not.1 hrest, hfalse]
  · refine iff_of_false nofun fun ⟨_, h⟩ => ?_
    cases b
    · exact hfalse h
    · exact htrue h

theorem decodeRegValue_eq_ok_iff {value v : Word16} {rest : List Byte} :
    decodeRegValue value rest = .ok v ↔ rest = [] ∧ value = v := by
  unfold decodeRegValue
  split_ifs with hrest
  · exact iff_of_false nofun fun ⟨h, _⟩ => hrest h
  · rw [Except.ok.injEq]
    exact ⟨fun h => ⟨not_not.1 hrest, h⟩, fun ⟨_, h⟩ => h⟩

/-- A byte count is a number of at most 255 bytes (R69, R71). -/
theorem eq_ofNat_length_iff {bc : Byte} {data : List Byte} (h : data.length ≤ 255) :
    bc = BitVec.ofNat 8 data.length ↔ bc.toNat = data.length := by
  rw [← BitVec.toNat_inj, BitVec.toNat_ofNat, Nat.mod_eq_of_lt (by omega)]

/-- The coils of a request are those whose packing its data bytes are, so pad bits are 0 (R69, R73, R74). -/
theorem decodeCoils_eq_ok_iff {count : Word16} {rest : List Byte} {values : List Bool} :
    decodeCoils count rest = .ok values ↔
      values.length = count.toNat ∧ countInRange Config.maxWriteCoils values.length = true ∧
      rest = BitVec.ofNat 8 (packBits values).length :: packBits values := by
  constructor
  · intro h
    unfold decodeCoils at h
    split at h
    · next bc data =>
      split_ifs at h with hrange hbytes hpad
      cases h
      simp only [not_or, not_not] at hbytes hpad
      simp only [Bool.not_eq_false, countInRange_iff, Config.maxWriteCoils_eq, ceil8] at hrange hbytes
      rw [length_unpackBits, hpad, (eq_ofNat_length_iff (by omega)).2 (hbytes.1.trans hbytes.2.symm)]
      exact ⟨rfl, (countInRange_iff _ _).2 hrange, rfl⟩
    · cases h
  · rintro ⟨hlen, hrange, rfl⟩
    have hmax := (countInRange_iff _ _).1 hrange
    rw [Config.maxWriteCoils_eq] at hmax
    have hbytes : (packBits values).length = ceil8 count.toNat := by rw [length_packBits, hlen]
    have hcount := (eq_ofNat_length_iff (data := packBits values) (by rw [hbytes, ceil8]; omega)).1 rfl
    have hbits : unpackBits (packBits values) count.toNat = values := by rw [← hlen, unpackBits_packBits]
    rw [hlen] at hrange
    rw [decodeCoils, if_neg (by rw [hrange]; decide),
      if_neg (not_or.2 ⟨not_not.2 (hcount.trans hbytes), not_not.2 hbytes⟩), hbits, if_neg (not_not.2 rfl)]

/-- The values of a register request are those whose bytes its data bytes are (R69, R75, R76). -/
theorem decodeRegs_eq_ok_iff {count : Word16} {rest : List Byte} {values : List Word16} :
    decodeRegs count rest = .ok values ↔
      values.length = count.toNat ∧ countInRange Config.maxWriteRegs values.length = true ∧
      rest = BitVec.ofNat 8 (packRegs values).length :: packRegs values := by
  constructor
  · intro h
    unfold decodeRegs at h
    split at h
    · next bc data =>
      split_ifs at h with hrange hbytes
      cases h
      simp only [not_or, not_not] at hbytes
      simp only [Bool.not_eq_false, countInRange_iff, Config.maxWriteRegs_eq] at hrange
      have hlen : (unpackRegs data).length = count.toNat := by rw [length_unpackRegs]; omega
      rw [hlen, packRegs_unpackRegs data (by omega),
        (eq_ofNat_length_iff (by omega)).2 (hbytes.1.trans hbytes.2.symm)]
      exact ⟨rfl, (countInRange_iff _ _).2 hrange, rfl⟩
    · cases h
  · rintro ⟨hlen, hrange, rfl⟩
    have hmax := (countInRange_iff _ _).1 hrange
    rw [Config.maxWriteRegs_eq] at hmax
    have hbytes : (packRegs values).length = 2 * count.toNat := by rw [length_packRegs, hlen]
    have hcount := (eq_ofNat_length_iff (data := packRegs values) (by omega)).1 rfl
    rw [hlen] at hrange
    rw [decodeRegs, if_neg (by rw [hrange]; decide),
      if_neg (not_or.2 ⟨not_not.2 (hcount.trans hbytes), not_not.2 hbytes⟩), unpackRegs_packRegs]

theorem decodeReadData_eq_ok_iff {body data : List Byte} :
    decodeReadData body = .ok data ↔ data.length ≤ 255 ∧ body = BitVec.ofNat 8 data.length :: data := by
  constructor
  · intro h
    unfold decodeReadData at h
    split at h
    · next bc data' =>
      split_ifs at h with hcount
      cases h
      have hmax : data.length ≤ 255 := hcount ▸ Nat.le_of_lt_succ bc.isLt
      exact ⟨hmax, by rw [(eq_ofNat_length_iff hmax).2 hcount.symm]⟩
    · cases h
  · rintro ⟨hmax, rfl⟩
    rw [decodeReadData, if_pos ((eq_ofNat_length_iff hmax).1 rfl).symm]

/-! ## Frames -/

theorem decodeRequest_frame (tid pid : Word16) (uid fc : Byte) {body : List Byte} (h : body.length ≤ 65533) :
    decodeRequest (frame tid pid uid fc body) =
      decodeRequestFrame { tid := tid, pid := pid, uid := uid, fc := fc, body := body } := by
  rw [decodeRequest, decodeHeader_frame _ _ _ _ _ h]

theorem decodeResponse_frame (tid pid : Word16) (uid fc : Byte) {body : List Byte} (h : body.length ≤ 65533) :
    decodeResponse (frame tid pid uid fc body) =
      decodeResponseFrame { tid := tid, pid := pid, uid := uid, fc := fc, body := body } := by
  rw [decodeResponse, decodeHeader_frame _ _ _ _ _ h]

/-- A request is cut, and then decoded by its function code. -/
theorem decodeRequest_eq_ok_iff {bytes : List Byte} {i : Instr} :
    decodeRequest bytes = .ok i ↔ ∃ f, decodeHeader bytes = .ok f ∧ decodeRequestFrame f = .ok i := by
  unfold decodeRequest
  cases decodeHeader bytes <;> simp

/-! ## Decoding an encoding -/

/-- The count field of a multiple write is the number of its values (R69). -/
theorem be16_ofNat_toNat {n : Nat} (h : n ≤ 1968) :
    (be16 (hi8 (BitVec.ofNat 16 n)) (lo8 (BitVec.ofNat 16 n))).toNat = n := by
  rw [be16_hi8_lo8, BitVec.toNat_ofNat]
  omega

/-- A request row's fields, as the frame of its format carries them, decode to the row (R67 to R69). -/
theorem decodeRequest_of_encode {i : Instr} {bytes : List Byte} (he : encode i = .request bytes)
    (hwf : i.wellFormed = true) : decodeRequest bytes = .ok i := by
  cases i
  case reqReadCoils | reqReadDiscreteInputs | reqReadHoldingRegisters | reqReadInputRegisters =>
    cases he
    rw [readRequest, decodeRequest_frame _ _ _ _ (by simp)]
    refine exceptMap_eq_ok_iff.2 ⟨_, decodeReadCount_eq_ok_iff.2 ⟨rfl, be16_hi8_lo8 _, hwf⟩, ?_⟩
    rw [be16_hi8_lo8]
  case reqWriteSingleCoil =>
    cases he
    rw [singleRequest, decodeRequest_frame _ _ _ _ (by simp)]
    refine exceptMap_eq_ok_iff.2 ⟨_, decodeCoilValue_eq_ok_iff.2 ⟨rfl, be16_hi8_lo8 _⟩, ?_⟩
    rw [be16_hi8_lo8]
  case reqWriteSingleRegister =>
    cases he
    rw [singleRequest, decodeRequest_frame _ _ _ _ (by simp)]
    refine exceptMap_eq_ok_iff.2 ⟨_, decodeRegValue_eq_ok_iff.2 ⟨rfl, be16_hi8_lo8 _⟩, ?_⟩
    rw [be16_hi8_lo8]
  case reqWriteMultipleCoils values =>
    cases he
    have hmax : values.length ≤ 1968 := ((countInRange_iff _ _).1 hwf).2
    rw [multipleRequest, decodeRequest_frame _ _ _ _ (by simp [ceil8]; omega)]
    refine exceptMap_eq_ok_iff.2 ⟨_, decodeCoils_eq_ok_iff.2 ⟨(be16_ofNat_toNat hmax).symm, hwf, rfl⟩, ?_⟩
    rw [be16_hi8_lo8]
  case reqWriteMultipleRegisters values =>
    cases he
    have hmax : values.length ≤ 123 := ((countInRange_iff _ _).1 hwf).2
    rw [multipleRequest, decodeRequest_frame _ _ _ _ (by simp; omega)]
    refine exceptMap_eq_ok_iff.2 ⟨_, decodeRegs_eq_ok_iff.2 ⟨(be16_ofNat_toNat (by omega)).symm, hwf, rfl⟩, ?_⟩
    rw [be16_hi8_lo8]
  all_goals cases he

/-- A response row's frame decodes to the row, as far as a byte count of eight bits can count its data (R70 to R72). -/
theorem decodeResponse_of_encode {i : Instr} {bytes : List Byte} (he : encode i = .response bytes)
    (hwf : i.wellFormed = true) : decodeResponse bytes = .ok i := by
  cases i
  case rspException tid pid uid fc code rest =>
    cases he
    have hfits : 9 + rest.length ≤ 260 := (fitsRx_iff _ _).1 hwf
    have hfc : ∀ fc : BitVec 7, (1#1 ++ fc).getLsbD 7 = true ∧ (1#1 ++ fc).extractLsb' 0 7 = fc := by decide
    rw [decodeResponse_frame _ _ _ _ (by simp; omega), decodeResponseFrame, if_pos (hfc fc).1, (hfc fc).2]
  case rspReadCoils data | rspReadDiscreteInputs data | rspReadHoldingRegisters data |
      rspReadInputRegisters data =>
    cases he
    have hfits : 9 + data.length ≤ 260 := (fitsRx_iff _ _).1 hwf
    have hdata : decodeReadData (BitVec.ofNat 8 data.length :: data) = .ok data :=
      decodeReadData_eq_ok_iff.2 ⟨by omega, rfl⟩
    rw [readResponse, decodeResponse_frame _ _ _ _ (by simp; omega)]
    simp [decodeResponseFrame, hdata, Except.map]
  case rspWriteSingleCoil | rspWriteSingleRegister | rspWriteMultipleCoils | rspWriteMultipleRegisters =>
    cases he
    have hfits := (fitsRx_iff _ _).1 hwf
    rw [decodeResponse_frame _ _ _ _ (by omega)]
    simp [decodeResponseFrame]
  all_goals cases he

/-- Settles O6: the constants of the two ports by evaluation, the event words by their KIND, the frames by their
format. -/
theorem decodeOfEncodeIsTheInstruction : Obligations.DecodeOfEncodeIsTheInstruction := by
  intro i hwf
  cases he : encode i
  case command w =>
    cases i
    case encRc | encRdi | encRhr | encRir | encWsc | encWsr | encWmc | encWmr | decode | rxArm =>
      cases he
      rfl
    all_goals cases he
  case event w =>
    cases i
    case rxNone | rxByte =>
      cases he
      exact decodeEvent_append _ _
    case rxEos | rxErr =>
      cases he
      rfl
    all_goals cases he
  case request bytes => exact decodeRequest_of_encode he hwf
  case response bytes => exact decodeResponse_of_encode he hwf

/-- Settles O8: each word is the encoding of its instruction, which O6 decodes. -/
theorem specWordsDecode : Obligations.SpecWordsDecode :=
  have decodes (i : Instr) (hwf : i.wellFormed = true) : decode (encode i) = .ok i :=
    decodeOfEncodeIsTheInstruction i hwf
  ⟨rfl, rfl, rfl, rfl, decodes (.reqReadCoils 0x1234 0x11 0x0013 0x0013) rfl,
    decodes (.reqWriteSingleCoil 0x0002 0x01 0x0005 true) rfl,
    decodes (.rspException 0x0001 0x0000 0x01 0x03 0x02 []) rfl,
    decodes (.rspReadCoils 0x0007 0x0000 0x01 [0x8D, 0x01]) rfl⟩

/-! ## Encoding what was decoded -/

/-- A request frame that decodes carries the fields of its row, and their counts are within the limits (R67 to R69). -/
theorem encode_of_decodeRequestFrame {f : Frame} {i : Instr} (h : decodeRequestFrame f = .ok i) :
    encode i = .request (frame f.tid f.pid f.uid f.fc f.body) ∧ i.wellFormed = true := by
  unfold decodeRequestFrame at h
  split at h
  · cases h
  next hpid =>
  rw [not_not] at hpid
  split at h
  case h_2 => cases h
  next a1 a0 v1 v0 rest hbytes =>
  have hbody : f.body = beBytes (be16 a1 a0) ++ beBytes (be16 v1 v0) ++ rest := by
    rw [hbytes, beBytes_be16, beBytes_be16]
    rfl
  have hread {max : Nat} {fc : Byte} {c : Word16} (hfc : f.fc = fc)
      (hc : decodeReadCount max (be16 v1 v0) rest = .ok c) :
      Wire.request (readRequest fc f.tid f.uid (be16 a1 a0) c) = .request (frame f.tid f.pid f.uid f.fc f.body) ∧
        countInRange max c.toNat = true := by
    obtain ⟨rfl, rfl, hrange⟩ := decodeReadCount_eq_ok_iff.1 hc
    rw [hfc, hpid, hbody]
    exact ⟨rfl, hrange⟩
  have hcount {n : Nat} (hn : n = (be16 v1 v0).toNat) : be16 v1 v0 = BitVec.ofNat 16 n := by
    rw [hn, BitVec.ofNat_toNat, BitVec.setWidth_eq]
  simp only at h
  split_ifs at h with h1 h2 h3 h4 h5 h6 h15 h16
  all_goals obtain ⟨x, hx, rfl⟩ := exceptMap_eq_ok_iff.1 h
  · exact hread h1 hx
  · exact hread h2 hx
  · exact hread h3 hx
  · exact hread h4 hx
  · obtain ⟨rfl, hvalue⟩ := decodeCoilValue_eq_ok_iff.1 hx
    rw [h5, hpid, hbody, hvalue]
    exact ⟨rfl, rfl⟩
  · obtain ⟨rfl, hvalue⟩ := decodeRegValue_eq_ok_iff.1 hx
    rw [h6, hpid, hbody, hvalue]
    exact ⟨rfl, rfl⟩
  · obtain ⟨hlen, hrange, rfl⟩ := decodeCoils_eq_ok_iff.1 hx
    rw [h15, hpid, hbody, hcount hlen]
    exact ⟨rfl, hrange⟩
  · obtain ⟨hlen, hrange, rfl⟩ := decodeRegs_eq_ok_iff.1 hx
    rw [h16, hpid, hbody, hcount hlen]
    exact ⟨rfl, hrange⟩

/-- The rows of the opcode table that a response frame can be, by what each asks of the frame (R70 to R72). -/
inductive ResponseRow (f : Frame) : Instr → Prop
  | exception {code : Byte} {rest : List Byte} (h7 : f.fc.getLsbD 7 = true) (hb : f.body = code :: rest) :
      ResponseRow f (.rspException f.tid f.pid f.uid (f.fc.extractLsb' 0 7) code rest)
  | readCoils {data : List Byte} (hf : f.fc = 1) (hd : decodeReadData f.body = .ok data) :
      ResponseRow f (.rspReadCoils f.tid f.pid f.uid data)
  | readDiscreteInputs {data : List Byte} (hf : f.fc = 2) (hd : decodeReadData f.body = .ok data) :
      ResponseRow f (.rspReadDiscreteInputs f.tid f.pid f.uid data)
  | readHoldingRegisters {data : List Byte} (hf : f.fc = 3) (hd : decodeReadData f.body = .ok data) :
      ResponseRow f (.rspReadHoldingRegisters f.tid f.pid f.uid data)
  | readInputRegisters {data : List Byte} (hf : f.fc = 4) (hd : decodeReadData f.body = .ok data) :
      ResponseRow f (.rspReadInputRegisters f.tid f.pid f.uid data)
  | writeSingleCoil (hf : f.fc = 5) : ResponseRow f (.rspWriteSingleCoil f.tid f.pid f.uid f.body)
  | writeSingleRegister (hf : f.fc = 6) : ResponseRow f (.rspWriteSingleRegister f.tid f.pid f.uid f.body)
  | writeMultipleCoils (hf : f.fc = 15) : ResponseRow f (.rspWriteMultipleCoils f.tid f.pid f.uid f.body)
  | writeMultipleRegisters (hf : f.fc = 16) : ResponseRow f (.rspWriteMultipleRegisters f.tid f.pid f.uid f.body)

/-- A response frame decodes to the rows it can be and to no other. -/
theorem decodeResponseFrame_eq_ok_iff {f : Frame} {i : Instr} :
    decodeResponseFrame f = .ok i ↔ ResponseRow f i := by
  constructor
  · intro h
    unfold decodeResponseFrame at h
    split_ifs at h with h7 h1 h2 h3 h4 h5 h6 h15 h16
    · split at h
      · next hb =>
        cases h
        exact .exception h7 hb
      · cases h
    · obtain ⟨data, hd, rfl⟩ := exceptMap_eq_ok_iff.1 h
      exact .readCoils h1 hd
    · obtain ⟨data, hd, rfl⟩ := exceptMap_eq_ok_iff.1 h
      exact .readDiscreteInputs h2 hd
    · obtain ⟨data, hd, rfl⟩ := exceptMap_eq_ok_iff.1 h
      exact .readHoldingRegisters h3 hd
    · obtain ⟨data, hd, rfl⟩ := exceptMap_eq_ok_iff.1 h
      exact .readInputRegisters h4 hd
    · cases h
      exact .writeSingleCoil h5
    · cases h
      exact .writeSingleRegister h6
    · cases h
      exact .writeMultipleCoils h15
    · cases h
      exact .writeMultipleRegisters h16
  · rintro (⟨h7, hb⟩ | ⟨hf, hd⟩ | ⟨hf, hd⟩ | ⟨hf, hd⟩ | ⟨hf, hd⟩ | ⟨hf⟩ | ⟨hf⟩ | ⟨hf⟩ | ⟨hf⟩)
    case exception =>
      rw [decodeResponseFrame, if_pos h7, hb]
    case readCoils | readDiscreteInputs | readHoldingRegisters | readInputRegisters =>
      simp [decodeResponseFrame, hf, hd, Except.map]
    all_goals simp [decodeResponseFrame, hf]

/-- A response is cut, and then is one of the rows. -/
theorem decodeResponse_eq_ok_iff {bytes : List Byte} {i : Instr} :
    decodeResponse bytes = .ok i ↔ ∃ f, decodeHeader bytes = .ok f ∧ ResponseRow f i := by
  simp only [← decodeResponseFrame_eq_ok_iff]
  unfold decodeResponse
  cases decodeHeader bytes <;> simp

/-- A response frame that decodes carries the fields of its row (R70 to R72). -/
theorem ResponseRow.encode_eq {f : Frame} {i : Instr} (h : ResponseRow f i) :
    encode i = .response (frame f.tid f.pid f.uid f.fc f.body) := by
  cases h
  case exception code rest h7 hb =>
    have hfc : ∀ fc : Byte, fc.getLsbD 7 = true → 1#1 ++ fc.extractLsb' 0 7 = fc := by decide
    rw [encode, hfc f.fc h7, hb]
  case readCoils data hf hd | readDiscreteInputs data hf hd | readHoldingRegisters data hf hd |
      readInputRegisters data hf hd =>
    rw [hf, (decodeReadData_eq_ok_iff.1 hd).2]
    rfl
  case writeSingleCoil hf | writeSingleRegister hf | writeMultipleCoils hf | writeMultipleRegisters hf =>
    rw [hf]
    rfl

/-- A response frame that fits RX_BUF is that of a well-formed row (R126). -/
theorem ResponseRow.wellFormed {f : Frame} {i : Instr} (h : ResponseRow f i) (hfits : 8 + f.body.length ≤ 260) :
    i.wellFormed = true := by
  cases h
  case exception code rest h7 hb =>
    rw [hb, List.length_cons] at hfits
    exact (fitsRx_iff _ _).2 (by omega)
  case readCoils data hf hd | readDiscreteInputs data hf hd | readHoldingRegisters data hf hd |
      readInputRegisters data hf hd =>
    rw [(decodeReadData_eq_ok_iff.1 hd).2, List.length_cons] at hfits
    exact (fitsRx_iff _ _).2 (by omega)
  all_goals exact (fitsRx_iff _ _).2 hfits

/-- A command or an event has no operand to be ill formed. -/
theorem wellFormed_of_word {i : Instr} (h : (∃ w, encode i = .command w) ∨ ∃ w, encode i = .event w) :
    i.wellFormed = true := by
  cases i
  case encRc | encRdi | encRhr | encRir | encWsc | encWsr | encWmc | encWmr | decode | rxArm | rxNone | rxByte | rxEos |
      rxErr => rfl
  all_goals rcases h with ⟨_, ⟨⟩⟩ | ⟨_, ⟨⟩⟩

/-- Settles O7, by the four places where something is decoded. -/
theorem encodeOfDecodeIsTheWord : Obligations.EncodeOfDecodeIsTheWord := by
  intro w i h
  cases w
  case command w =>
    have he := encode_of_decodeCommand h
    exact ⟨he, fun _ => wellFormed_of_word (.inl ⟨w, he⟩)⟩
  case event w =>
    have he := encode_of_decodeEvent h
    exact ⟨he, fun _ => wellFormed_of_word (.inr ⟨w, he⟩)⟩
  case request bytes =>
    obtain ⟨f, hcut, hf⟩ := decodeRequest_eq_ok_iff.1 h
    obtain ⟨rfl, -⟩ := frame_of_decodeHeader hcut
    obtain ⟨he, hwf⟩ := encode_of_decodeRequestFrame hf
    exact ⟨he, fun _ => hwf⟩
  case response bytes =>
    obtain ⟨f, hcut, hrow⟩ := decodeResponse_eq_ok_iff.1 h
    obtain ⟨rfl, -⟩ := frame_of_decodeHeader hcut
    refine ⟨hrow.encode_eq, fun hfits => hrow.wellFormed ?_⟩
    have hlen := hfits _ rfl
    rwa [length_frame] at hlen

end Sys2Proof
end

section
/-! THE WINDOW AS THE HOST SEES IT, AND THE INPUTS THAT RUN (R13, R46, R47, R131, R145; spec/10_state.md §3 to §9). -/
namespace Sys2Proof.Machine

/-! ## The map -/

/-- The scalar registers with their offsets, access rights and field bits (spec/10_state.md §3). -/
def registerTable : List (Reg × Nat × Access × Word32) :=
  [(.cmdStatus, 0x004, .r, 0x1), (.encStatus, 0x008, .r, 0x3), (.cfgUid, 0x010, .rw, 0xFF),
    (.reqTid, 0x014, .rw, 0xFFFF), (.reqAddr, 0x018, .rw, 0xFFFF), (.reqCount, 0x01C, .rw, 0xFFFF),
    (.reqValue, 0x020, .rw, 0xFFFF), (.expFc, 0x024, .rw, 0xFF), (.expCount, 0x028, .rw, 0xFFFF),
    (.txLen, 0x030, .r, 0x1FF), (.rxStatus, 0x034, .r, 0x107), (.rxFill, 0x038, .r, 0x1FF), (.rxNeed, 0x03C, .r, 0x1FF),
    (.decOutcome, 0x040, .r, 0xF), (.decCount, 0x044, .r, 0xFFFF), (.decExc, 0x048, .r, 0xFFF)]

theorem registerTable_row {r : Reg} {offset : Nat} {access : Access} {fields : Word32}
    (h : (r, offset, access, fields) ∈ registerTable) : r.offset = offset ∧ r.access = access ∧ r.mask = fields := by
  have rows : ∀ row ∈ registerTable,
      row.1.offset = row.2.1 ∧ row.1.access = row.2.2.1 ∧ row.1.mask = row.2.2.2 := by decide
  exact rows _ h

/-- Settles O11: the two directions of the map, then the table of the scalar registers and the arrays. -/
theorem registerMapIsOneToOne : Obligations.RegisterMapIsOneToOne := by
  refine ⟨fun r => ⟨regAt_offset r, ?_⟩, fun _ _ _ h => regAt_eq_some_iff.1 h, ⟨rfl, rfl⟩,
    fun _ _ _ _ => registerTable_row, fun _ => ⟨rfl, rfl, rfl⟩, fun j => ⟨rfl, rfl, fun k hk => ?_⟩,
    fun _ => ⟨rfl, rfl, rfl⟩, fun _ => ⟨rfl, rfl, rfl⟩, fun j => ⟨rfl, rfl, fun k hk => ?_⟩, fun _ => ⟨rfl, rfl, rfl⟩⟩
  · obtain ⟨h4, hle⟩ := offset_legal r
    exact accessLegal_four h4 hle
  · rw [getLsbD_mask_coilvWord j hk, decide_eq_true_iff]
  · rw [getLsbD_mask_decBitsWord j hk, decide_eq_true_iff]

/-! ## Steps -/

/-- Settles O14: a word that decodes runs its instruction at its port. -/
theorem stepRunsTheDecodedInstruction : Obligations.StepRunsTheDecodedInstruction :=
  ⟨fun _ _ _ _ hi hd => (step_command hi).trans (runCommand_of_ok _ hd),
    fun _ _ _ _ hi hd => (step_cons hi).trans (rxPort_of_ok _ hd),
    fun s hi => by rw [step, takeInput, hi]⟩

/-- Settles O15, by the instruction; ENC_WSC alone splits. -/
theorem everyInstructionCompletes : Obligations.EveryInstructionCompletes := exec_isNext

/-- Settles O18: a legal read is one step, and no register depends on the pending inputs. -/
theorem hostReadChangesNothing : Obligations.HostReadChangesNothing := by
  intro s offset rest h4 hle hi
  refine ⟨?_, ?_⟩
  · rw [step_read hi h4 hle, readWindow_inputs]
  · rintro r rfl
    exact readWindow_offset r s

/-- An event word is legal when its KIND carries DATA or its DATA is 0 (R79). -/
theorem eventLegal_append (k : BitVec 2) (b : Byte) :
    eventLegal (k ++ b) = true ↔ k = 0b00 ∨ k = 0b01 ∨ b = 0 := by
  simp only [eventLegal, kind_append, data_append, Bool.or_eq_true, beq_iff_eq, or_assoc]

/-- An event word is legal exactly when it decodes (R79, R125). -/
theorem eventLegal_iff {w : EventWord} : eventLegal w = true ↔ ∃ i, decodeEvent w = .ok i := by
  rw [← kind_append_data w, eventLegal_append, decodeEvent_append]
  split_ifs with h0 h1 hb h2
  · exact iff_of_true (.inl h0) ⟨_, rfl⟩
  · exact iff_of_true (.inr (.inl h1)) ⟨_, rfl⟩
  · exact iff_of_false (not_or.2 ⟨h0, not_or.2 ⟨h1, hb⟩⟩) nofun
  · exact iff_of_true (.inr (.inr (not_not.1 hb))) ⟨_, rfl⟩
  · exact iff_of_true (.inr (.inr (not_not.1 hb))) ⟨_, rfl⟩

/-- A host program whose SETREGS needs a value that is not signed 16-bit has no inputs (R145 (c)). -/
theorem setregs_expand_error {values : List Int} (h : ∃ v ∈ values, v < -32768 ∨ 32767 < v) :
    ∃ e, (Stmt.setregs values).expand = .error e := by
  cases hexpand : setRegsFrom 0 values with
  | ok inputs =>
    obtain ⟨v, hv, hout⟩ := h
    have hrange := (setRegsFrom_isOk values 0).1 ⟨inputs, hexpand⟩ v hv
    omega
  | error e => exact ⟨e, by rw [Stmt.expand, hexpand]; rfl⟩

/-- Settles O16, input by input: the host port accepts what its check passes, the RX port what decodes. -/
theorem legalInputsRunAndTheOthersAreRefused : Obligations.LegalInputsRunAndTheOthersAreRefused := by
  refine ⟨fun s i rest hi => ?_, fun _ => setregs_expand_error⟩
  cases i
  case read offset width =>
    refine ⟨fun h => ?_, fun h => ⟨_, step_of_not_accessLegal (v := 0) (.inl rfl) hi h⟩⟩
    obtain ⟨rfl, h4, hle⟩ := (accessLegal_iff offset width).1 h
    exact ⟨_, step_read hi h4 hle⟩
  case write offset width v =>
    refine ⟨fun h => ?_, fun h => ⟨_, step_of_not_accessLegal (.inr rfl) hi h⟩⟩
    obtain ⟨rfl, h4, hle⟩ := (accessLegal_iff offset width).1 h
    exact step_write_isNext hi h4 hle
  case event w =>
    rw [step_cons hi]
    refine ⟨fun h => ?_, fun h => ?_⟩
    · obtain ⟨j, hj⟩ := eventLegal_iff.1 h
      obtain ⟨t, ht⟩ := exec_isNext j { s with inputs := rest }
      exact ⟨t, (rxPort_of_ok _ hj).trans ht⟩
    · cases hd : decodeEvent w with
      | ok j => exact absurd (eventLegal_iff.2 ⟨j, hd⟩) (ne_true_of_eq_false h)
      | error e => exact ⟨_, rxPort_of_error _ hd⟩
  case reset => exact ⟨fun _ => ⟨_, step_cons hi⟩, nofun⟩

/-! ## Readings -/

/-- A field of at most 32 bits reads as its value. -/
theorem toNat_readField {n : Nat} (x : BitVec n) (h : n ≤ 32 := by decide) : (x.setWidth 32).toNat = x.toNat :=
  BitVec.toNat_setWidth_of_le h

/-- A length of at most 511 reads as itself in a field of nine bits. -/
theorem toNat_readLength {n : Nat} (h : n ≤ 511) : ((BitVec.ofNat 9 n).setWidth 32).toNat = n := by
  rw [toNat_readField, BitVec.toNat_ofNat]
  omega

/-- RX_STATUS as a number: STATE, and DROP at bit 8 (R34). -/
theorem toNat_rxStatusWord (s : State) : (rxStatusWord s).toNat = s.rx.state.code.toNat + 256 * s.rx.drop.toNat := by
  have table : ∀ (code : BitVec 3) (drop : Bool),
      (code.setWidth 32 ||| (BitVec.ofBool drop).setWidth 32 <<< 8 : Word32).toNat = code.toNat + 256 * drop.toNat := by
    decide
  exact table _ _

/-- DEC_EXC as a number: CODE, and KIND from bit 8 on (R39). -/
theorem toNat_decExcWord (s : State) : (decExcWord s).toNat = s.dec.excCode.toNat + 256 * s.dec.excKind.code.toNat := by
  have hcode : s.dec.excCode.toNat < 2 ^ 8 := s.dec.excCode.isLt
  rw [decExcWord, toNat_readField, BitVec.toNat_append, Nat.shiftLeft_eq, Nat.mul_comm,
    ← Nat.two_pow_add_eq_or_of_lt hcode, Nat.add_comm]

/-- The codes of the status fields (R19, R34, R37, R39). -/
theorem EncResult.mem_codes (r : EncResult) :
    (r, r.code.toNat) ∈ [(EncResult.none, 0), (.ok, 1), (.invalidArgument, 2)] := by cases r <;> decide

theorem RxState.mem_codes (st : RxState) :
    (st, st.code.toNat) ∈ [(RxState.idle, 0), (.header, 1), (.body, 2), (.complete, 3), (.closed, 4), (.ioerr, 5),
      (.malformed, 6)] := by cases st <;> decide

theorem DecOutcome.mem_codes (o : DecOutcome) :
    (o, o.code.toNat) ∈ [(DecOutcome.none, 0), (.bits, 1), (.registers, 2), (.writeOk, 3), (.protocolException, 4),
      (.malformedResponse, 5), (.connectionClosed, 6), (.ioError, 7), (.invalidArgument, 8), (.notReady, 9)] := by
  cases o <;> decide

theorem ExcKind.mem_codes (k : ExcKind) :
    (k, k.code.toNat) ∈ [(ExcKind.none, 0), (.illegalFunction, 1), (.illegalDataAddress, 2), (.illegalDataValue, 3),
      (.serverDeviceFailure, 4), (.unknown, 15)] := by cases k <;> decide

/-- RX_STATUS splits into STATE and DROP (R34). -/
theorem rxStatusWord_fields (s : State) :
    (rxStatusWord s).toNat % 256 = s.rx.state.code.toNat ∧ (rxStatusWord s).toNat / 256 = s.rx.drop.toNat := by
  have hstate := s.rx.state.code.isLt
  rw [toNat_rxStatusWord]
  omega

/-- DEC_EXC splits into CODE and KIND (R39). -/
theorem decExcWord_fields (s : State) :
    (decExcWord s).toNat % 256 = s.dec.excCode.toNat ∧ (decExcWord s).toNat / 256 = s.dec.excKind.code.toNat := by
  have hcode := s.dec.excCode.isLt
  rw [toNat_decExcWord]
  omega

/-- Settles O19: each offset is that of its register, whose reading is made of its fields. -/
theorem registersReadAsTheirFields : Obligations.RegistersReadAsTheirFields := by
  intro s
  obtain ⟨hstate, hdrop⟩ := rxStatusWord_fields s
  obtain ⟨hcode, hkind⟩ := decExcWord_fields s
  refine ⟨rfl, (toNat_readField _).trans (BitVec.toNat_ofBool _), ?_, toNat_readField _, toNat_readField _,
    toNat_readField _, toNat_readField _, toNat_readField _, toNat_readField _, toNat_readField _,
    toNat_readLength (by omega), ?_, hdrop, toNat_readLength (by omega),
    fun h => (toNat_readWindow_need h).trans ?_, ?_, toNat_readField _, hcode, ?_,
    fun i hi => ?_, fun j k hj hk => ?_, fun k hk => ?_, fun k hk => ?_, fun j k hj hk => ?_, fun i hi => ?_⟩
  · exact (toNat_readField s.tx.result.code).symm ▸ s.tx.result.mem_codes
  · exact hstate.symm ▸ s.rx.state.mem_codes
  · unfold Receive.need
    cases s.rx.state <;> rfl
  · exact (toNat_readField s.dec.outcome.code).symm ▸ s.dec.outcome.mem_codes
  · exact hkind.symm ▸ s.dec.excKind.mem_codes
  · exact (congrArg BitVec.toNat (readWindow_offset (.regv ⟨i, hi⟩) s)).trans (toNat_readField _)
  · rw [show readWindow (0x0600 + 4 * j) s = _ from readWindow_offset (.coilvWord ⟨j, hj⟩) s]
    exact getLsbD_wordOfBits _ hk
  · exact (congrArg BitVec.toNat (readWindow_offset (.txBuf ⟨k, hk⟩) s)).trans (toNat_readField _)
  · exact (congrArg BitVec.toNat (readWindow_offset (.rxBuf ⟨k, hk⟩) s)).trans (toNat_readField _)
  · rw [show readWindow (0x1800 + 4 * j) s = _ from readWindow_offset (.decBitsWord ⟨j, hj⟩) s]
    exact getLsbD_wordOfBits _ hk
  · rw [readWindow_decRegs hi, sext32_toInt]

end Sys2Proof.Machine
end

section
/-! WHAT AN ENCODE COMMAND DEPENDS ON (R56, R91, R105, R120; log 3). The shared operations take their operands as
arguments, so a command sends what its operands say whatever else the state holds, twice as well as once, and as the
request row of the same operands does. -/
namespace Sys2Proof.Machine

/-! ## What is sent -/

/-- What a transmit state shows of the last encode: its result and the frame to send (R19, R32). -/
def Transmit.output (t : Transmit) : EncResult × List Byte := (t.result, t.frame)

/-- TX_BUF holds every frame TX_LEN can count (R31, R32). -/
theorem Transmit.length_frame (t : Transmit) : t.frame.length = t.len.val :=
  Cells.length_take _ (Nat.le_of_lt_succ t.len.isLt)

theorem refuse_output (s : State) : (refuse s).tx.output = (.invalidArgument, []) := rfl

/-- The frame to send after an encode is the one encoded (R31, R32). -/
theorem emit_output {bytes : List Byte} (fc : Byte) (count : Word16) (s : State) (h : bytes.length ≤ 259) :
    (emit bytes fc count s).tx.output = (.ok, bytes) := by
  have hlen := emit_len bytes fc count s h
  have hframe : (emit bytes fc count s).tx.frame = bytes := by
    refine List.ext_getElem ((Transmit.length_frame _).trans hlen) fun k h1 h2 => ?_
    have hcell : (emit bytes fc count s).tx.frame.getD k 0 = bytes.getD k 0 := by
      rw [Transmit.frame, Cells.take_getD _ _ _ _ (by omega)]
      exact (emit_cell bytes fc count s k).trans (if_pos (by omega))
    simpa [List.getD, h1, h2] using hcell
  rw [Transmit.output, hframe]
  rfl

theorem encodeRead_output_congr (fc uid : Byte) (max : Nat) (tid addr count : Word16) (s u : State) :
    (encodeRead fc max tid uid addr count s).tx.output = (encodeRead fc max tid uid addr count u).tx.output := by
  unfold encodeRead
  split
  · rw [refuse_output, refuse_output]
  · rw [emit_output _ _ _ (by simp), emit_output _ _ _ (by simp)]

theorem encodeSingle_output_congr (fc uid : Byte) (tid addr value : Word16) (s u : State) :
    (encodeSingle fc tid uid addr value s).tx.output = (encodeSingle fc tid uid addr value u).tx.output := by
  rw [encodeSingle, encodeSingle, emit_output _ _ _ (by simp), emit_output _ _ _ (by simp)]

theorem encodeMultiple_output_congr_of_fits {max count : Nat} {data : List Byte} (fc uid : Byte) (tid addr : Word16)
    (s u : State) (hdata : count ≤ max → data.length ≤ 246) :
    (encodeMultiple fc max tid uid addr count data s).tx.output =
      (encodeMultiple fc max tid uid addr count data u).tx.output := by
  unfold encodeMultiple
  split
  · rw [refuse_output, refuse_output]
  · next h =>
    have hfits := hdata (by omega)
    rw [emit_output _ _ _ (by simp; omega), emit_output _ _ _ (by simp; omega)]

/-- An encode command sends what its operands say (R91). -/
theorem exec_encode_output_congr {i : Instr} {s u : State}
    (hi : i ∈ [Instr.encRc, .encRdi, .encRhr, .encRir, .encWsc, .encWsr, .encWmc, .encWmr]) (hreq : s.req = u.req) :
    ∃ t v, exec i s = .next t ∧ exec i u = .next v ∧ t.tx.output = v.tx.output := by
  have hwords (c : Nat) (hc : c ≤ 123) : (packRegs (s.req.regValues c)).length ≤ 246 := by
    rw [length_packRegs_regValues _ hc]
    omega
  have hcoils (c : Nat) (hc : c ≤ 1968) : (packBits (s.req.coilValues c)).length ≤ 246 := by
    rw [length_packBits_coilValues _ hc]
    omega
  simp only [List.mem_cons, List.not_mem_nil, or_false] at hi
  rcases hi with rfl | rfl | rfl | rfl | rfl | rfl | rfl | rfl
  · exact ⟨_, _, rfl, rfl, hreq ▸ encodeRead_output_congr ..⟩
  · exact ⟨_, _, rfl, rfl, hreq ▸ encodeRead_output_congr ..⟩
  · exact ⟨_, _, rfl, rfl, hreq ▸ encodeRead_output_congr ..⟩
  · exact ⟨_, _, rfl, rfl, hreq ▸ encodeRead_output_congr ..⟩
  · rcases execEncWsc_cases u with ⟨b, hvalue, hexec⟩ | ⟨h0, h1, hexec⟩
    · exact ⟨_, _, execEncWsc_of_bool (hreq ▸ hvalue), hexec, hreq ▸ encodeSingle_output_congr ..⟩
    · exact ⟨_, _, execEncWsc_of_other (hreq ▸ h0) (hreq ▸ h1), hexec, rfl⟩
  · exact ⟨_, _, rfl, rfl, hreq ▸ encodeSingle_output_congr ..⟩
  · exact ⟨_, _, rfl, rfl, hreq ▸ encodeMultiple_output_congr_of_fits _ _ _ _ _ _ (hcoils _)⟩
  · exact ⟨_, _, rfl, rfl, hreq ▸ encodeMultiple_output_congr_of_fits _ _ _ _ _ _ (hwords _)⟩

/-- Settles O36: the two states have the same output, which is the result and the frame. -/
theorem encodersDependOnOperandsAlone : Obligations.EncodersDependOnOperandsAlone := by
  intro i s₁ s₂ hi hreq
  obtain ⟨t₁, t₂, h₁, h₂, houtput⟩ := exec_encode_output_congr hi hreq
  obtain ⟨hresult, hframe⟩ := Prod.mk.inj houtput
  exact ⟨t₁, t₂, h₁, h₂, hresult, hframe, t₁.tx.length_frame⟩

/-! ## The request rows -/

/-- The first `c` values of an array are the only `c` values that agree with it. -/
theorem eq_take_of_getD {α : Type} {n c : Nat} {v : Cells α n} {d : α} {xs : List α} (hlen : xs.length = c) (hc : c ≤ n)
    (hget : ∀ k, k < xs.length → xs.getD k d = v.get d k) : xs = v.toList.take c := by
  rw [v.take_eq_map_get d hc]
  refine List.ext_getElem (by simpa) fun k h1 h2 => ?_
  simpa [List.getD, h1] using hget k h1

/-- Settles O37: the commands are the rows' definitions on the operand registers. -/
theorem encodeCommandsRunTheirRequestRow : Obligations.EncodeCommandsRunTheirRequestRow := by
  refine fun s => ⟨rfl, rfl, rfl, rfl, fun b hb => execEncWsc_of_bool hb, rfl, fun values hlen hmax hget => ?_,
    fun values hlen hmax hget => ?_⟩
  · obtain rfl : values = s.req.coilValues s.req.count.toNat := eq_take_of_getD hlen hmax hget
    simp only [exec, execEncWmc, execReqWriteMultipleCoils, hlen]
    rfl
  · obtain rfl : values = s.req.regValues s.req.count.toNat := eq_take_of_getD hlen (by omega) hget
    simp only [exec, execEncWmr, execReqWriteMultipleRegisters, hlen]
    rfl

/-- The count that a request expects of its response: 1 of a single write, else the count field at offset 10 (R30, R67
to R69). -/
def RequestCount (bytes : List Byte) (count : Word16) : Prop :=
  (bytes.getD 7 0 = 5 ∨ bytes.getD 7 0 = 6 → count = 1) ∧
  (bytes.getD 7 0 ≠ 5 → bytes.getD 7 0 ≠ 6 → count = be16 (bytes.getD 10 0) (bytes.getD 11 0))

theorem requestCount_single {bytes : List Byte} (h : bytes.getD 7 0 = 5 ∨ bytes.getD 7 0 = 6) : RequestCount bytes 1 :=
  ⟨fun _ => rfl, fun h5 h6 => absurd h (not_or.2 ⟨h5, h6⟩)⟩

theorem requestCount_field {bytes : List Byte} {count : Word16} (h5 : bytes.getD 7 0 ≠ 5) (h6 : bytes.getD 7 0 ≠ 6)
    (hfield : be16 (bytes.getD 10 0) (bytes.getD 11 0) = count) : RequestCount bytes count :=
  ⟨fun h => absurd h (not_or.2 ⟨h5, h6⟩), fun _ _ => hfield.symm⟩

/-- Settles O38: the row's check is that of the shared operation, which emits the encoding or refuses. -/
theorem requestRowsEmitTheirEncoding : Obligations.RequestRowsEmitTheirEncoding := by
  intro i bytes s he
  cases i
  case reqReadCoils | reqReadDiscreteInputs | reqReadHoldingRegisters | reqReadInputRegisters =>
    cases he
    refine ⟨_, rfl, encodeRead_cmdIllegal .., fun hwf => ?_, fun hwf => ?_⟩
    · obtain ⟨h1, hmax⟩ := (countInRange_iff _ _).1 hwf
      exact ⟨_, emitted_encodeRead (.inl rfl) _ _ _ _ h1 hmax, requestCount_field nofun nofun (be16_hi8_lo8 _)⟩
    · exact refused_encodeRead (.inl rfl) _ _ _ _ ((countInRange_false_iff _ _).1 hwf)
  case reqWriteSingleCoil =>
    cases he
    exact ⟨_, rfl, rfl, fun _ => ⟨1, emitted_encodeSingle (.inl rfl) .., requestCount_single (.inl rfl)⟩, nofun⟩
  case reqWriteSingleRegister =>
    cases he
    exact ⟨_, rfl, rfl, fun _ => ⟨1, emitted_encodeSingle (.inl rfl) .., requestCount_single (.inr rfl)⟩, nofun⟩
  case reqWriteMultipleCoils values =>
    cases he
    refine ⟨_, rfl, encodeMultiple_cmdIllegal .., fun hwf => ?_, fun hwf => ?_⟩
    · obtain ⟨h1, hmax⟩ := (countInRange_iff 1968 _).1 hwf
      have hdata : (packBits values).length ≤ 246 := by
        rw [length_packBits, ceil8]
        omega
      exact ⟨_, emitted_encodeMultiple (.inl rfl) _ _ _ _ h1 hmax hdata,
        requestCount_field nofun nofun (be16_hi8_lo8 _)⟩
    · exact refused_encodeMultiple (.inl rfl) _ _ _ _ _ ((countInRange_false_iff _ _).1 hwf)
  case reqWriteMultipleRegisters values =>
    cases he
    refine ⟨_, rfl, encodeMultiple_cmdIllegal .., fun hwf => ?_, fun hwf => ?_⟩
    · obtain ⟨h1, hmax⟩ := (countInRange_iff 123 _).1 hwf
      have hdata : (packRegs values).length ≤ 246 := by
        rw [length_packRegs]
        omega
      exact ⟨_, emitted_encodeMultiple (.inl rfl) _ _ _ _ h1 hmax hdata,
        requestCount_field nofun nofun (be16_hi8_lo8 _)⟩
    · exact refused_encodeMultiple (.inl rfl) _ _ _ _ _ ((countInRange_false_iff _ _).1 hwf)
  all_goals cases he

/-! ## A command twice -/

theorem refuse_refuse (s : State) : refuse (refuse s) = refuse s := rfl

/-- The same frame put into TX_BUF twice is there once (R31). -/
theorem emit_emit (bytes : List Byte) (fc : Byte) (count : Word16) (s : State) :
    emit bytes fc count (emit bytes fc count s) = emit bytes fc count s := by
  rw [emit, emit_tx_buf, Cells.patch_patch]
  rfl

theorem encodeRead_twice (fc uid : Byte) (max : Nat) (tid addr count : Word16) (s : State) :
    encodeRead fc max tid uid addr count (encodeRead fc max tid uid addr count s) =
      encodeRead fc max tid uid addr count s := by
  unfold encodeRead
  split
  · exact refuse_refuse s
  · exact emit_emit ..

theorem encodeSingle_twice (fc uid : Byte) (tid addr value : Word16) (s : State) :
    encodeSingle fc tid uid addr value (encodeSingle fc tid uid addr value s) = encodeSingle fc tid uid addr value s :=
  emit_emit ..

theorem encodeMultiple_twice (fc uid : Byte) (max count : Nat) (tid addr : Word16) (data : List Byte) (s : State) :
    encodeMultiple fc max tid uid addr count data (encodeMultiple fc max tid uid addr count data s) =
      encodeMultiple fc max tid uid addr count data s := by
  unfold encodeMultiple
  split
  · exact refuse_refuse s
  · exact emit_emit ..

theorem finishBits_finishBits (count : Word16) (values : List Bool) (s : State) :
    finishBits count values (finishBits count values s) = finishBits count values s := by
  rw [finishBits, finishBits_dec_bits, Cells.patch_patch]
  rfl

theorem finishRegs_finishRegs (count : Word16) (values : List Word16) (s : State) :
    finishRegs count values (finishRegs count values s) = finishRegs count values s := by
  rw [finishRegs, finishRegs_dec_regs, Cells.patch_patch]
  rfl

/-- The rule that ended a DECODE ends the next one, which records the same again (R105). -/
theorem DecodeRule.again {s t : State} (h : DecodeRule s t) : DecodeRule t t := by
  cases h
  case badArguments ha => exact .badArguments ha
  case noFrame ha ho => exact .noFrame (s := finish _ s) ha ho
  case notWhole ha hs hn => exact .notWhole (s := finish _ s) ha hs hn
  case shortException ha hw h7 hn => exact .shortException (s := finish _ s) ha hw h7 hn
  case exception ha hw h7 hn => exact .exception (s := finishException _ s) ha hw h7 hn
  case otherFunction ha hw h7 hf => exact .otherFunction (s := finish _ s) ha hw h7 hf
  case acknowledged ha hw hf hk => exact .acknowledged (s := finish _ s) ha hw hf hk
  case badData ha hw hf hk hd => exact .badData (s := finish _ s) ha hw hf hk hd
  case bits ha hw hf hk hd =>
    have hagain : DecodeRule (finishBits s.expect.count s.heldBits s)
        (finishBits s.expect.count s.heldBits (finishBits s.expect.count s.heldBits s)) := .bits ha hw hf hk hd
    rwa [finishBits_finishBits] at hagain
  case regs ha hw hf hk hd =>
    have hagain : DecodeRule (finishRegs s.expect.count s.heldRegs s)
        (finishRegs s.expect.count s.heldRegs (finishRegs s.expect.count s.heldRegs s)) := .regs ha hw hf hk hd
    rwa [finishRegs_finishRegs] at hagain

theorem decodeHeld_twice (s : State) : decodeHeld (decodeHeld s) = decodeHeld s :=
  (decodeRule_decodeHeld s).again.eq

theorem beginCommand_of_legal {s : State} (h : s.cmdIllegal = false) : beginCommand s = s := by
  rw [beginCommand, ← h]

/-- A command that applies one operation of its operands to a command begun is idempotent where the operation is: it
leaves the operands, and ILLEGAL at 0. -/
theorem exec_idempotent {i : Instr} {w : Word32} {f : Request → State → State} (hw : encode i = .command w)
    (hexec : ∀ s, exec i s = .next (f s.req (beginCommand s))) (htwice : ∀ q s, f q (f q s) = f q s) (s : State) :
    ∃ t, exec i s = .next t ∧ exec i t = .next t := by
  refine ⟨_, hexec s, ?_⟩
  rw [hexec, exec_req (hexec s), beginCommand_of_legal (exec_command_cmdIllegal hw (hexec s)), htwice]

/-- Settles O39: a command is one of the shared operations, each of which does the same again. -/
theorem commandsAreIdempotent : Obligations.CommandsAreIdempotent := by
  intro w i s hd
  have hw := encode_of_decodeCommand hd
  cases i
  case encRc | encRdi | encRhr | encRir =>
    exact exec_idempotent hw (fun _ => rfl) (fun q => encodeRead_twice _ q.uid _ q.tid q.addr q.count) s
  case encWsc =>
    rcases execEncWsc_cases s with ⟨b, hvalue, hexec⟩ | ⟨h0, h1, hexec⟩
    · have hagain := encodeSingle_twice 5 s.req.uid s.req.tid s.req.addr (coilWord b) (beginCommand s)
      refine ⟨_, hexec, (execEncWsc_of_bool (b := b) ?_).trans (congrArg _ hagain)⟩
      exact hvalue
    · exact ⟨_, hexec, execEncWsc_of_other h0 h1⟩
  case encWsr =>
    exact exec_idempotent hw (fun _ => rfl) (fun q => encodeSingle_twice _ q.uid q.tid q.addr q.value) s
  case encWmc =>
    exact exec_idempotent (f := fun q => encodeMultiple 0x0F Config.maxWriteCoils q.tid q.uid q.addr q.count.toNat
      (packBits (q.coilValues q.count.toNat))) hw (fun _ => rfl) (fun _ => encodeMultiple_twice _ _ _ _ _ _ _) s
  case encWmr =>
    exact exec_idempotent (f := fun q => encodeMultiple 0x10 Config.maxWriteRegs q.tid q.uid q.addr q.count.toNat
      (packRegs (q.regValues q.count.toNat))) hw (fun _ => rfl) (fun _ => encodeMultiple_twice _ _ _ _ _ _ _) s
  case decode => exact exec_idempotent hw exec_decode (fun _ => decodeHeld_twice) s
  case rxArm => exact ⟨_, rfl, rfl⟩
  all_goals cases hw

end Sys2Proof.Machine
end

section
/-! WHAT DECODE WRITES, AND THE RESPONSE ROWS (R106, R108 to R114; log 3): a response row is decoded by its own rule
when the arguments are in order and its function code is the expected one. -/
namespace Sys2Proof.Machine

/-! ## What DECODE writes -/

/-- A patch of the first cells leaves the cells from its length on. -/
theorem Cells.get_patch_zero_of_le {α : Type} {n : Nat} (v : Cells α n) (d : α) {xs : List α} {k : Nat}
    (h : xs.length ≤ k) :
    (v.patch 0 xs).get d k = v.get d k :=
  v.get_patch_of_not_mem d (.inr (by omega))

/-- Settles O47, by what ends the DECODE: an outcome without values, an exception, or a read of either kind. -/
theorem decodeWritesItsResultsAlone : Obligations.DecodeWritesItsResultsAlone := by
  intro s
  refine ⟨_, exec_decode s, ?_⟩
  rcases decodeHeld_cases (beginCommand s) with ⟨o, hbits, hregs, hexc, h⟩ | h | ⟨-, -, h⟩ | ⟨-, -, h⟩
  all_goals rw [h]
  · exact ⟨rfl, ⟨rfl, rfl, rfl, rfl, rfl, rfl⟩, fun _ _ => ⟨rfl, rfl⟩, (absurd · hbits), (absurd · hregs),
      (absurd · hexc), fun _ _ _ => ⟨rfl, rfl, rfl⟩⟩
  · exact ⟨rfl, ⟨rfl, rfl, rfl, rfl, rfl, rfl⟩, fun _ _ => ⟨rfl, rfl⟩, nofun, nofun, fun _ => ⟨rfl, rfl, rfl⟩,
      fun _ _ h => absurd rfl h⟩
  · exact ⟨rfl, ⟨rfl, rfl, rfl, rfl, rfl, rfl⟩, fun i hi => ⟨Cells.get_patch_zero_of_le _ _ (by simpa using hi), rfl⟩,
      fun _ => ⟨rfl, rfl, rfl, fun _ => rfl⟩, nofun, nofun, fun h => absurd rfl h⟩
  · exact ⟨rfl, ⟨rfl, rfl, rfl, rfl, rfl, rfl⟩, fun i hi => ⟨rfl, Cells.get_patch_zero_of_le _ _ (by simpa using hi)⟩,
      nofun, fun _ => ⟨rfl, rfl, rfl, fun _ => rfl⟩, nofun, fun _ h => absurd rfl h⟩

/-! ## The rows -/

/-- A response that is not decoded by its own rule is refused for its arguments, or else for its function code (R106,
R109). -/
theorem finished_whenExpected (fc : Byte) (k : State → State) (s : State) :
    (decodeArgsOk s.expect = false → Finished .invalidArgument 0 .none s (whenExpected fc k s)) ∧
    (decodeArgsOk s.expect = true → s.expect.fc ≠ fc →
      Finished .malformedResponse 0 .none s (whenExpected fc k s)) := by
  rcases whenExpected_cases fc k s with ⟨ha, h⟩ | ⟨ha, hf, h⟩ | ⟨ha, hf, h⟩
  all_goals rw [ha, h]
  · exact ⟨fun _ => finished_finish (.inl rfl) _, nofun⟩
  · exact ⟨nofun, fun _ _ => finished_finish (.inl rfl) _⟩
  · exact ⟨nofun, fun _ hne => absurd hf hne⟩

theorem whenExpected_of_expected {fc : Byte} {s : State} (k : State → State) (ha : decodeArgsOk s.expect = true)
    (hf : s.expect.fc = fc) : whenExpected fc k s = k s := by
  simp [whenExpected, ha, hf]

theorem whenExpected_cmdIllegal {fc : Byte} {k : State → State} {s : State} (hk : (k s).cmdIllegal = s.cmdIllegal) :
    (whenExpected fc k s).cmdIllegal = s.cmdIllegal := by
  rcases whenExpected_cases fc k s with ⟨-, h⟩ | ⟨-, -, h⟩ | ⟨-, -, h⟩
  all_goals rw [h]
  · rfl
  · rfl
  · exact hk

/-- Settles O49: the exception row looks at the arguments alone, an acknowledgement at the function code too. -/
theorem exceptionAndWriteRows : Obligations.ExceptionAndWriteRows := by
  refine ⟨fun s tid pid uid fc code rest => ⟨_, rfl, ?_⟩, fun s tid pid uid rest i fc hrow => ?_⟩
  · cases ha : decodeArgsOk s.expect
    · exact ⟨rfl, fun _ => finished_finish (.inl rfl) _, nofun⟩
    · exact ⟨rfl, nofun, fun _ => finished_finishException (.inl rfl) code⟩
  · have hexec : isWrite fc = true ∧ exec i s = .next (whenExpected fc (finish .writeOk) s) := by
      simp only [List.mem_cons, Prod.mk.injEq, List.not_mem_nil, or_false] at hrow
      rcases hrow with ⟨rfl, rfl⟩ | ⟨rfl, rfl⟩ | ⟨rfl, rfl⟩ | ⟨rfl, rfl⟩
      all_goals exact ⟨rfl, rfl⟩
    obtain ⟨hwrite, hexec⟩ := hexec
    obtain ⟨hbad, hother⟩ := finished_whenExpected fc (finish .writeOk) s
    refine ⟨_, hexec, whenExpected_cmdIllegal rfl, hbad, hother, fun hf => ?_⟩
    rw [whenExpected_of_expected _ (decodeArgsOk_of_isWrite (hf ▸ hwrite)) hf]
    exact finished_finish (.inl rfl) _

/-! ## The read rows -/

theorem decodeBitData_of_bad {data : List Byte} {s : State} (h : data.length ≠ ceil8 s.expect.count.toNat) :
    decodeBitData data s = finish .malformedResponse s := if_pos h

theorem decodeBitData_of_length {data : List Byte} {s : State} (h : data.length = ceil8 s.expect.count.toNat) :
    decodeBitData data s = finishBits s.expect.count (unpackBits data s.expect.count.toNat) s := if_neg (not_not.2 h)

theorem decodeRegData_of_bad {data : List Byte} {s : State} (h : data.length ≠ 2 * s.expect.count.toNat) :
    decodeRegData data s = finish .malformedResponse s := if_pos h

theorem decodeRegData_of_length {data : List Byte} {s : State} (h : data.length = 2 * s.expect.count.toNat) :
    decodeRegData data s = finishRegs s.expect.count (unpackRegs data) s := if_neg (not_not.2 h)

theorem decodeBitData_cmdIllegal (data : List Byte) (s : State) :
    (decodeBitData data s).cmdIllegal = s.cmdIllegal := by
  by_cases h : data.length = ceil8 s.expect.count.toNat
  · rw [decodeBitData_of_length h, finishBits_cmdIllegal]
  · rw [decodeBitData_of_bad h, finish_cmdIllegal]

theorem decodeRegData_cmdIllegal (data : List Byte) (s : State) :
    (decodeRegData data s).cmdIllegal = s.cmdIllegal := by
  by_cases h : data.length = 2 * s.expect.count.toNat
  · rw [decodeRegData_of_length h, finishRegs_cmdIllegal]
  · rw [decodeRegData_of_bad h, finish_cmdIllegal]

/-- The values of data bytes, two for each (R76). -/
theorem length_unpackRegs_of_length {data : List Byte} {n : Nat} (h : data.length = 2 * n) :
    (unpackRegs data).length = n := by
  rw [length_unpackRegs]
  omega

/-- The read rows with their function codes (R71). -/
def readRowTable (tid pid : Word16) (uid : Byte) (data : List Byte) : List (Instr × Byte) :=
  [(.rspReadCoils tid pid uid data, 1), (.rspReadDiscreteInputs tid pid uid data, 2),
    (.rspReadHoldingRegisters tid pid uid data, 3), (.rspReadInputRegisters tid pid uid data, 4)]

/-- A read row decodes its data bytes as bits or as registers, by its function code (R71, R112, R113). -/
theorem exec_readRow {s : State} {tid pid : Word16} {uid fc : Byte} {data : List Byte} {i : Instr}
    (h : (i, fc) ∈ readRowTable tid pid uid data) :
    (isBitRead fc = true ∧ exec i s = .next (whenExpected fc (decodeBitData data) s)) ∨
    (isRegRead fc = true ∧ exec i s = .next (whenExpected fc (decodeRegData data) s)) := by
  simp only [readRowTable, List.mem_cons, Prod.mk.injEq, List.not_mem_nil, or_false] at h
  rcases h with ⟨rfl, rfl⟩ | ⟨rfl, rfl⟩ | ⟨rfl, rfl⟩ | ⟨rfl, rfl⟩
  · exact .inl ⟨rfl, rfl⟩
  · exact .inl ⟨rfl, rfl⟩
  · exact .inr ⟨rfl, rfl⟩
  · exact .inr ⟨rfl, rfl⟩

/-- Settles O50, by the space of the row; the other space's clause has another function code. -/
theorem readResponseRows : Obligations.ReadResponseRows := by
  intro s tid pid uid data i fc hrow
  rcases exec_readRow (s := s) hrow with ⟨hk, hexec⟩ | ⟨hk, hexec⟩
  · obtain ⟨hbad, hother⟩ := finished_whenExpected fc (decodeBitData data) s
    refine ⟨_, hexec, whenExpected_cmdIllegal (decodeBitData_cmdIllegal data s), hbad, hother, fun ha hf _ => ?_,
      fun _ _ hreg => ?_⟩
    · obtain ⟨-, hmax⟩ := bitRead_count (hf ▸ hk) ha
      rw [whenExpected_of_expected _ ha hf]
      refine ⟨fun hlen => ?_, fun hlen => ?_⟩
      · rw [decodeBitData_of_bad hlen]
        exact finished_finish (.inl rfl) _
      · rw [decodeBitData_of_length hlen]
        exact decodedBits_finishBits (.inl rfl) (length_unpackBits ..) hmax fun _ => getD_unpackBits data
    · exact absurd hk (ne_true_of_eq_false (not_isBitRead_of_isRegRead (isRegRead_iff.2 hreg)))
  · obtain ⟨hbad, hother⟩ := finished_whenExpected fc (decodeRegData data) s
    refine ⟨_, hexec, whenExpected_cmdIllegal (decodeRegData_cmdIllegal data s), hbad, hother, fun _ _ hbit => ?_,
      fun ha hf _ => ?_⟩
    · exact absurd (isBitRead_iff.2 hbit) (ne_true_of_eq_false (not_isBitRead_of_isRegRead hk))
    · obtain ⟨-, hmax⟩ := regRead_count (hf ▸ hk) ha
      rw [whenExpected_of_expected _ ha hf]
      refine ⟨fun hlen => ?_, fun hlen => ?_⟩
      · rw [decodeRegData_of_bad hlen]
        exact finished_finish (.inl rfl) _
      · rw [decodeRegData_of_length hlen]
        exact decodedRegs_finishRegs (.inl rfl) (length_unpackRegs_of_length hlen) hmax fun k hk =>
          unpackRegs_getD data k (by omega)

end Sys2Proof.Machine
end

section
/-! DECODE OF A WHOLE FRAME RUNS THE ROW THAT THE FRAME DECODES TO (R105, R108 to R113; log 3). The frame held is cut as
any frame is; the rules of DECODE ask of its cells what the rows ask of its fields. -/
namespace Sys2Proof.Machine

/-! ## The fields of the frame held -/

/-- The frames that are cut are those of 6 + Length bytes, eight of them at least (R63, R84, R107). -/
theorem decodeHeader_isOk_iff {bytes : List Byte} :
    (∃ f, decodeHeader bytes = .ok f) ↔
      8 ≤ bytes.length ∧ bytes.length = 6 + (be16 (bytes.getD 4 0) (bytes.getD 5 0)).toNat := by
  constructor
  · rintro ⟨f, h⟩
    unfold decodeHeader at h
    split at h
    · split_ifs at h with hlen
      exact ⟨by simp, hlen⟩
    · cases h
  · rintro ⟨h8, hlen⟩
    match bytes, h8, hlen with
    | _ :: _ :: _ :: _ :: _ :: _ :: _ :: _ :: _, _, hlen => exact ⟨_, if_pos hlen⟩

/-- What the function code and the body are cut from (R63). -/
theorem fields_of_decodeHeader {bytes : List Byte} {f : Frame} (h : decodeHeader bytes = .ok f) :
    f.fc = bytes.getD 7 0 ∧ f.body = bytes.drop 8 := by
  unfold decodeHeader at h
  split at h
  · split_ifs at h
    cases h
    exact ⟨rfl, rfl⟩
  · cases h

theorem Receive.length_eq_frame {r : Receive} (h : 6 ≤ r.fill.val) :
    r.length = (be16 (r.frame.getD 4 0) (r.frame.getD 5 0)).toNat := by
  rw [getD_frame r (by omega), getD_frame r (by omega)]
  rfl

/-- The frame held is cut exactly when it is whole (R107). -/
theorem Receive.whole_iff {r : Receive} (hs : r.state = .complete) : r.Whole ↔ ∃ f, decodeHeader r.frame = .ok f := by
  rw [decodeHeader_isOk_iff, length_rxFrame]
  constructor
  · rintro ⟨-, hge, heq⟩
    exact ⟨hge, by rwa [← Receive.length_eq_frame (by omega)]⟩
  · rintro ⟨hge, heq⟩
    exact ⟨hs, hge, by rwa [Receive.length_eq_frame (by omega)]⟩

theorem Receive.fc_of_decodeHeader {r : Receive} {f : Frame} (hw : r.Whole) (h : decodeHeader r.frame = .ok f) :
    f.fc = r.cell 7 := by
  have hge := hw.fill_ge
  rw [(fields_of_decodeHeader h).1, getD_frame r (by omega)]

/-- Byte `k` of the body of the frame held. -/
theorem Receive.getD_body {r : Receive} {k : Nat} (h : 8 + k < r.fill.val) :
    (r.frame.drop 8).getD k 0 = r.cell (8 + k) := by
  rw [← getD_frame r h, List.getD, List.getD, List.getElem?_drop]

/-- The frame held is a read response with these data bytes (R71). -/
theorem Receive.holdsData_of_decodeReadData {r : Receive} {data : List Byte}
    (h : decodeReadData (r.frame.drop 8) = .ok data) :
    r.HoldsData data.length ∧ ∀ k, k < data.length → r.cell (9 + k) = data.getD k 0 := by
  obtain ⟨hmax, hbody⟩ := decodeReadData_eq_ok_iff.1 h
  have hlen := congrArg List.length hbody
  rw [List.length_drop, length_rxFrame, List.length_cons] at hlen
  have hcell {k : Nat} (hk : k < data.length + 1) : r.cell (8 + k) = (BitVec.ofNat 8 data.length :: data).getD k 0 := by
    rw [← hbody, Receive.getD_body (by omega)]
  refine ⟨⟨by omega, (eq_ofNat_length_iff hmax).1 (hcell (k := 0) (by omega))⟩, fun k hk => ?_⟩
  rw [← List.getD_cons_succ (x := BitVec.ofNat 8 data.length), ← hcell (by omega)]
  congr 1
  omega

/-- A frame that holds its data bytes is a read response (R71). -/
theorem Receive.decodeReadData_of_holdsData {r : Receive} {n : Nat} (h : r.HoldsData n) :
    ∃ data, decodeReadData (r.frame.drop 8) = .ok data := by
  obtain ⟨hfill, hcount⟩ := h
  have h8 : 8 < r.frame.length := by rw [length_rxFrame]; omega
  have hbyte : r.frame[8] = r.cell 8 := by rw [← getD_frame r (by omega)]; simp [List.getD, h8]
  have hlen : (r.frame.drop 9).length = (r.cell 8).toNat := by rw [List.length_drop, length_rxFrame]; omega
  have hmax : (r.frame.drop 9).length ≤ 255 := hlen ▸ Nat.le_of_lt_succ (r.cell 8).isLt
  refine ⟨r.frame.drop 9, decodeReadData_eq_ok_iff.2 ⟨hmax, ?_⟩⟩
  rw [List.drop_eq_getElem_cons h8, hbyte, (eq_ofNat_length_iff hmax).2 hlen.symm]

/-! ## DECODE as the run of a row -/

theorem decodeHeld_eq_whenExpected {s : State} {fc : Byte} {k : State → State} (ha : decodeArgsOk s.expect = true)
    (hw : s.rx.Whole) (hfc : isFunctionCode fc = true) (h7 : s.rx.cell 7 = fc)
    (hk : s.expect.fc = fc → decodeHeld s = k s) : decodeHeld s = whenExpected fc k s := by
  by_cases hf : s.expect.fc = fc
  · rw [whenExpected_of_expected k ha hf, hk hf]
  · have hrule := DecodeRule.otherFunction ha hw (h7 ▸ bit7_of_isFunctionCode hfc) (h7 ▸ Ne.symm hf)
    simp [hrule.eq, whenExpected, ha, hf]

/-- The bits of the frame held are those of its data bytes (R74, R112). -/
theorem State.heldBits_eq_unpackBits {s : State} {data : List Byte} (hlen : data.length = ceil8 s.expect.count.toNat)
    (hcell : ∀ k, k < data.length → s.rx.cell (9 + k) = data.getD k 0) :
    s.heldBits = unpackBits data s.expect.count.toNat := by
  refine List.map_congr_left fun i hi => ?_
  have hi := List.mem_range.1 hi
  rw [ceil8] at hlen
  rw [hcell _ (by omega), unpackBit]

/-- The values of the frame held are those of its data bytes (R76, R113). -/
theorem State.heldRegs_eq_unpackRegs {s : State} {data : List Byte} (hlen : data.length = 2 * s.expect.count.toNat)
    (hcell : ∀ k, k < data.length → s.rx.cell (9 + k) = data.getD k 0) : s.heldRegs = unpackRegs data := by
  have hcount := length_unpackRegs_of_length hlen
  refine List.ext_getElem (by rw [State.length_heldRegs, hcount]) fun i h1 h2 => ?_
  have hi : i < s.expect.count.toNat := by rwa [State.length_heldRegs] at h1
  have hget : s.heldRegs.getD i 0 = (unpackRegs data).getD i 0 := by
    rw [State.getD_heldRegs s hi, unpackRegs_getD data i (by omega), ← hcell _ (by omega), ← hcell _ (by omega)]
    congr 2
    omega
  rwa [List.getD_eq_getElem _ _ h1, List.getD_eq_getElem _ _ h2] at hget

section
variable {s : State} {data : List Byte} (ha : decodeArgsOk s.expect = true) (hw : s.rx.Whole)
  (hf : s.rx.cell 7 = s.expect.fc) (hd : decodeReadData (s.rx.frame.drop 8) = .ok data)
include ha hw hf hd

/-- DECODE of a bit-space read response decodes its data bytes as the row does (R112). -/
theorem decodeHeld_eq_decodeBitData (hk : isBitRead s.expect.fc = true) : decodeHeld s = decodeBitData data s := by
  obtain ⟨hholds, hcell⟩ := Receive.holdsData_of_decodeReadData hd
  by_cases hlen : data.length = ceil8 s.expect.count.toNat
  · rw [decodeBitData_of_length hlen, ← State.heldBits_eq_unpackBits hlen hcell]
    exact (DecodeRule.bits ha hw hf hk (hlen ▸ hholds)).eq
  · rw [decodeBitData_of_bad hlen]
    refine (DecodeRule.badData ha hw hf (not_isWrite_of_isBitRead hk) fun hholds' => hlen ?_).eq
    rw [← hholds.byteCount, hholds'.byteCount, Expect.dataBytes_of_isBitRead hk]

/-- DECODE of a register-space read response decodes its data bytes as the row does (R113). -/
theorem decodeHeld_eq_decodeRegData (hk : isRegRead s.expect.fc = true) : decodeHeld s = decodeRegData data s := by
  obtain ⟨hholds, hcell⟩ := Receive.holdsData_of_decodeReadData hd
  by_cases hlen : data.length = 2 * s.expect.count.toNat
  · rw [decodeRegData_of_length hlen, ← State.heldRegs_eq_unpackRegs hlen hcell]
    exact (DecodeRule.regs ha hw hf hk (hlen ▸ hholds)).eq
  · rw [decodeRegData_of_bad hlen]
    refine (DecodeRule.badData ha hw hf (not_isWrite_of_isRegRead hk) fun hholds' => hlen ?_).eq
    rw [← hholds.byteCount, hholds'.byteCount, Expect.dataBytes_of_isRegRead hk]

end

/-- DECODE of a whole frame runs the row that the frame decodes to (R108 to R113). -/
theorem exec_row_eq_decodeHeld {s : State} {f : Frame} {i : Instr} (ha : decodeArgsOk s.expect = true)
    (hs : s.rx.state = .complete) (hf : decodeHeader s.rx.frame = .ok f) (hrow : ResponseRow f i) :
    exec i s = .next (decodeHeld s) := by
  have hw := (Receive.whole_iff hs).2 ⟨f, hf⟩
  have hfc := Receive.fc_of_decodeHeader hw hf
  have hbody := (fields_of_decodeHeader hf).2
  have expected {fc : Byte} (hf : f.fc = fc) (he : s.expect.fc = fc) : s.rx.cell 7 = s.expect.fc := by
    rw [← hfc, hf, he]
  cases hrow
  case exception code rest h7 hb =>
    rw [hbody] at hb
    have hlen := congrArg List.length hb
    rw [List.length_drop, length_rxFrame, List.length_cons] at hlen
    have hcode : code = s.rx.cell 8 := by
      rw [← Receive.getD_body (k := 0) (by omega), hb, List.getD_cons_zero]
    rw [(DecodeRule.exception ha hw (hfc ▸ h7) (by omega)).eq, ← hcode]
    simp [exec, execRspException, ha]
  case readCoils hf hd | readDiscreteInputs hf hd =>
    rw [hbody] at hd
    refine congrArg _ (decodeHeld_eq_whenExpected ha hw rfl (hfc.symm.trans hf) fun he => ?_).symm
    exact decodeHeld_eq_decodeBitData ha hw (expected hf he) hd (by rw [he]; rfl)
  case readHoldingRegisters hf hd | readInputRegisters hf hd =>
    rw [hbody] at hd
    refine congrArg _ (decodeHeld_eq_whenExpected ha hw rfl (hfc.symm.trans hf) fun he => ?_).symm
    exact decodeHeld_eq_decodeRegData ha hw (expected hf he) hd (by rw [he]; rfl)
  case writeSingleCoil hf | writeSingleRegister hf | writeMultipleCoils hf | writeMultipleRegisters hf =>
    refine congrArg _ (decodeHeld_eq_whenExpected ha hw rfl (hfc.symm.trans hf) fun he => ?_).symm
    exact (DecodeRule.acknowledged ha hw (expected hf he) (by rw [he]; rfl)).eq

/-- A frame with the function code of a read and its data bytes is a row (R71). -/
theorem exists_readRow {f : Frame} {data : List Byte} (hk : isBitRead f.fc = true ∨ isRegRead f.fc = true)
    (hd : decodeReadData f.body = .ok data) : ∃ i, ResponseRow f i := by
  rw [isBitRead_iff, isRegRead_iff] at hk
  rcases hk with (hf | hf) | (hf | hf)
  · exact ⟨_, .readCoils hf hd⟩
  · exact ⟨_, .readDiscreteInputs hf hd⟩
  · exact ⟨_, .readHoldingRegisters hf hd⟩
  · exact ⟨_, .readInputRegisters hf hd⟩

/-- A frame with the function code of a write is a row (R72). -/
theorem exists_writeRow {f : Frame} (hk : isWrite f.fc = true) : ∃ i, ResponseRow f i := by
  rcases isWrite_iff.1 hk with hf | hf | hf | hf
  · exact ⟨_, .writeSingleCoil hf⟩
  · exact ⟨_, .writeSingleRegister hf⟩
  · exact ⟨_, .writeMultipleCoils hf⟩
  · exact ⟨_, .writeMultipleRegisters hf⟩

/-- A frame that is no row leaves DECODE with MALFORMED_RESPONSE: each other rule needs the row's fields (R108 to
R113). -/
theorem decodeHeld_of_noRow {s : State} (ha : decodeArgsOk s.expect = true) (hs : s.rx.state = .complete)
    (hno : ∀ i, decodeResponse s.rx.frame ≠ .ok i) : decodeHeld s = finish .malformedResponse s := by
  have noRow (hw : s.rx.Whole) :
      ∃ f : Frame, f.fc = s.rx.cell 7 ∧ f.body = s.rx.frame.drop 8 ∧ ¬∃ i, ResponseRow f i := by
    obtain ⟨f, hf⟩ := (Receive.whole_iff hs).1 hw
    exact ⟨f, Receive.fc_of_decodeHeader hw hf, (fields_of_decodeHeader hf).2,
      fun ⟨i, hrow⟩ => hno i (decodeResponse_eq_ok_iff.2 ⟨f, hf, hrow⟩)⟩
  obtain ⟨t, hrule⟩ := exists_decodeRule s
  rw [hrule.eq]
  cases hrule
  case badArguments ha' => exact absurd ha (ne_true_of_eq_false ha')
  case noFrame ho =>
    rw [RxState.endOutcome_eq_none_iff.2 hs] at ho
    cases ho
  case exception hw h7 hn =>
    obtain ⟨f, hfc, hbody, hnone⟩ := noRow hw
    have h8 : 8 < s.rx.frame.length := by rwa [length_rxFrame]
    exact absurd ⟨_, .exception (hfc ▸ h7) (hbody.trans (List.drop_eq_getElem_cons h8))⟩ hnone
  case acknowledged hw hf hk =>
    obtain ⟨f, hfc, -, hnone⟩ := noRow hw
    exact absurd (exists_writeRow (by rwa [hfc, hf])) hnone
  case bits hw hf hk hd =>
    obtain ⟨f, hfc, hbody, hnone⟩ := noRow hw
    obtain ⟨data, hdata⟩ := Receive.decodeReadData_of_holdsData hd
    exact absurd (exists_readRow (.inl (by rwa [hfc, hf])) (hbody ▸ hdata)) hnone
  case regs hw hf hk hd =>
    obtain ⟨f, hfc, hbody, hnone⟩ := noRow hw
    obtain ⟨data, hdata⟩ := Receive.decodeReadData_of_holdsData hd
    exact absurd (exists_readRow (.inr (by rwa [hfc, hf])) (hbody ▸ hdata)) hnone
  all_goals rfl

/-- Settles O48: a frame that decodes is whole and is a row; one that does not has no rule but the malformed ones. -/
theorem decodeRunsTheResponseRow : Obligations.DecodeRunsTheResponseRow := by
  intro s ha hs
  refine ⟨fun i hi => ?_, fun e he => ⟨_, exec_decode s, ?_⟩⟩
  · obtain ⟨f, hf, hrow⟩ := decodeResponse_eq_ok_iff.1 hi
    exact (exec_row_eq_decodeHeld (s := beginCommand s) ha hs hf hrow).symm
  · rw [decodeHeld_of_noRow (s := beginCommand s) ha hs fun i hi => nomatch he.symm.trans hi]
    exact ⟨rfl, finished_finish (.inr rfl) _⟩

end Sys2Proof.Machine
end

section
/-! A TRANSPORT'S BYTES (R84, R119, R122, R126, R127, R157): where the invariant holds a byte is asked for exactly while
one is collected; and a frame with its Length in bounds, delivered byte by byte, is held whole. -/
namespace Sys2Proof.Machine

/-! ## The duty -/

/-- A byte is asked for exactly while one is collected (R36, R127). -/
theorem need_pos_iff {r : Receive} (h : r.Inv) : 0 < r.need ↔ r.collecting = true := by
  cases hc : r.collecting
  · exact iff_of_false (by rw [need_of_not_collecting hc]; decide) Bool.false_ne_true
  · refine iff_of_true ?_ rfl
    rcases (collecting_iff r).1 hc with hs | hs
    · have hfill : r.fill.val ≤ 5 := by simpa only [Receive.Inv, hs] using h
      rw [need_of_header hs]
      omega
    · have hfill : r.fill.val < 6 + r.length := by
        simp only [Receive.Inv, hs] at h
        exact h.2.1
      rw [need_of_body hs]
      omega

/-- Delivering a byte is dutiful exactly while one is collected (R127). -/
theorem dutiful_byteEvent {s : State} (b : Byte) (h : s.rx.Inv) : Input.dutiful s (byteEvent b) = s.rx.collecting := by
  rw [Bool.eq_iff_iff, ← need_pos_iff h]
  simp [Input.dutiful, byteEvent]

/-- Settles O57: O54, by whether a byte is collected. -/
theorem dutifulBytesAreNeverDropped : Obligations.DutifulBytesAreNeverDropped := by
  intro s b hinv
  rw [dutiful_byteEvent b hinv]
  refine ⟨_, exec_rxByte b s, fun hc => ?_, takeByte_of_not_collecting s.rx b⟩
  have hroom := fill_lt_of_inv hinv hc
  obtain ⟨hfill, hdrop, -⟩ := takeByte_fields s.rx b hc
  obtain ⟨hfill', -, hdrop', -⟩ := store_of_lt s.rx b hroom
  exact ⟨hdrop.trans hdrop', (congrArg Fin.val hfill).trans hfill', (takeByte_cell b hc hroom _).trans (if_pos rfl)⟩

/-! ## The bytes of a frame -/

/-- Bytes delivered one event each are taken one after the other, and nothing but the receive state changes (R119). -/
theorem run_byteEvents (bytes : List Byte) (rest : List Input) (s : State)
    (hi : s.inputs = bytes.map byteEvent ++ rest) :
    Host.Core.run core bytes.length s = .next { s with inputs := rest, rx := bytes.foldl Receive.takeByte s.rx } := by
  induction bytes generalizing s with
  | nil =>
    obtain rfl : s.inputs = rest := hi
    rfl
  | cons b bytes ih =>
    have hstep : step s = .next { s with inputs := bytes.map byteEvent ++ rest, rx := s.rx.takeByte b } := by
      rw [step_cons hi]
      exact rxPort_of_ok _ (decodeEvent_append 0b01 b)
    rw [List.length_cons, run_succ _ hstep, ih _ rfl]
    rfl

/-- The first `k` bytes of a frame have been received, with DROP at `drop` (R122, R129). -/
structure Receive.Holds (bytes : List Byte) (drop : Bool) (k : Nat) (r : Receive) : Prop where
  state : r.state = if k < 6 then .header else if k < bytes.length then .body else .complete
  fill : r.fill.val = k
  drop_eq : r.drop = drop
  cells : ∀ j, j < k → r.cell j = bytes.getD j 0

/-- A byte of the frame is received (R122). -/
theorem Receive.Holds.takeByte {bytes : List Byte} {drop : Bool} {k : Nat} {r : Receive} (h : r.Holds bytes drop k)
    (hk : k < bytes.length) (h8 : 8 ≤ bytes.length) (h260 : bytes.length ≤ 260)
    (hlen : bytes.length = 6 + (be16 (bytes.getD 4 0) (bytes.getD 5 0)).toNat) :
    (r.takeByte (bytes.getD k 0)).Holds bytes drop (k + 1) := by
  obtain ⟨hstate, hfill, hdrop, hcells⟩ := h
  rw [if_pos hk] at hstate
  have hc : r.collecting = true := by
    rw [collecting_iff, hstate]
    split_ifs <;> simp
  have hroom : r.fill.val < 260 := by omega
  obtain ⟨hfill', hdrop', -⟩ := takeByte_fields r (bytes.getD k 0) hc
  obtain ⟨hstored, -, hkept, -⟩ := store_of_lt r (bytes.getD k 0) hroom
  have hnext : (r.takeByte (bytes.getD k 0)).fill.val = k + 1 := by rw [hfill', hstored, hfill]
  have hbytes (j : Nat) (hj : j < k + 1) : (r.takeByte (bytes.getD k 0)).cell j = bytes.getD j 0 := by
    rw [takeByte_cell _ hc hroom, hfill]
    split_ifs with hjk
    · rw [hjk]
    · exact hcells j (by omega)
  refine ⟨?_, hnext, by rw [hdrop', hkept, hdrop], hbytes⟩
  have hlength (h6 : 6 ≤ k + 1) : 6 + (r.takeByte (bytes.getD k 0)).length = bytes.length := by
    rw [Receive.length, hbytes 4 (by omega), hbytes 5 (by omega), hlen]
  split_ifs at hstate with h6
  · rw [takeByte_state_of_header _ hstate, hnext]
    by_cases hlast : k + 1 = 6
    · have htotal := hlength (by omega)
      have hbounds : ¬((r.takeByte (bytes.getD k 0)).length < 2 ∨ 260 < 6 + (r.takeByte (bytes.getD k 0)).length) := by
        omega
      rw [if_pos hlast, if_neg hbounds, if_neg (show ¬k + 1 < 6 by omega), if_pos (show k + 1 < bytes.length by omega)]
    · rw [if_neg hlast, if_pos (show k + 1 < 6 by omega)]
  · rw [takeByte_state_of_body _ hstate, hnext, hlength (by omega), if_neg (show ¬k + 1 < 6 by omega)]
    by_cases hlast : k + 1 = bytes.length
    · rw [if_pos hlast, if_neg (show ¬k + 1 < bytes.length by omega)]
    · rw [if_neg hlast, if_pos (show k + 1 < bytes.length by omega)]

/-- From a freshly armed state, the first `k` bytes of a frame are received one after the other (R122). -/
theorem Receive.Holds.foldl_take {bytes : List Byte} {drop : Bool} {r : Receive} (h : r.Holds bytes drop 0)
    (h8 : 8 ≤ bytes.length) (h260 : bytes.length ≤ 260)
    (hlen : bytes.length = 6 + (be16 (bytes.getD 4 0) (bytes.getD 5 0)).toNat) (k : Nat) (hk : k ≤ bytes.length) :
    ((bytes.take k).foldl Receive.takeByte r).Holds bytes drop k := by
  induction k with
  | zero => exact h
  | succ k ih =>
    rw [List.take_succ_eq_append_getElem hk, List.foldl_append, ← List.getD_eq_getElem _ 0 hk]
    exact (ih (by omega)).takeByte hk h8 h260 hlen

/-- A frame all of whose bytes are received is the frame held (R35). -/
theorem Receive.Holds.frame_eq {bytes : List Byte} {drop : Bool} {r : Receive} (h : r.Holds bytes drop bytes.length) :
    r.frame = bytes := by
  refine List.ext_getElem ((length_rxFrame r).trans h.fill) fun k h1 h2 => ?_
  rw [← List.getD_eq_getElem _ 0 h1, ← List.getD_eq_getElem _ 0 h2, getD_frame r (by rwa [h.fill]), h.cells k h2]

/-- Settles O58: the bytes are taken one after the other, and all of them are then held. -/
theorem wholeFrameIsReceived : Obligations.WholeFrameIsReceived := by
  intro s bytes rest hs hfill h8 h260 hlen hi
  have harmed : s.rx.Holds bytes s.rx.drop 0 := ⟨hs, hfill, rfl, nofun⟩
  have hall := harmed.foldl_take h8 h260 hlen bytes.length (Nat.le_refl _)
  rw [List.take_length] at hall
  refine ⟨_, run_byteEvents bytes rest s hi, ?_, hall.frame_eq, hall.drop_eq, rfl, rfl, rfl, rfl, rfl, rfl, rfl⟩
  exact hall.state.trans ((if_neg (by omega)).trans (if_neg (by omega)))

end Sys2Proof.Machine
end

section
/-! A READ AND ITS RESPONSE (R117): the encode command leaves the expected values, RX_ARM and the bytes leave the
response held, and DECODE runs the response's row, whose values are those that its data bytes pack. -/
namespace Sys2Proof.Machine

/-! ## The run up to DECODE -/

/-- A state in which DECODE finds this response and the count it is expected to have (R30, R35). -/
structure State.Answered (fc : Byte) (count : Word16) (response : List Byte) (s : State) : Prop where
  expect : s.expect = { fc := fc, count := count }
  state : s.rx.state = .complete
  frame : s.rx.frame = response

theorem run_one (s : State) : Host.Core.run core 1 s = step s := by
  have hcore : core.step s = step s := rfl
  cases h : step s with
  | next t => exact run_succ 0 h
  | fault r => exact nomatch r
  | refused r =>
    simp only [Host.Core.run, hcore, h]
    rfl

/-- A read command with a count within its limit expects the response to its request (R30, R92). -/
theorem step_readCommand {s : State} {i : Instr} {w : Word32} {fc : Byte} {max : Nat} {rest : List Input}
    (hrow : (i, w, fc, max) ∈ readCommandTable) (h1 : 1 ≤ s.req.count.toNat) (hmax : s.req.count.toNat ≤ max)
    (hi : s.inputs = commandInput w :: rest) :
    ∃ u, step s = .next u ∧ u.expect = { fc := fc, count := s.req.count } ∧ u.inputs = rest := by
  obtain ⟨hdecode, hexec⟩ := readCommand_runs_encodeRead hrow
  rw [step_command hi, runCommand_of_ok _ hdecode, hexec, encodeRead_of_inRange fc _ _ _ _ h1 hmax]
  exact ⟨_, rfl, rfl, rfl⟩

/-- RX_ARM starts a new frame and leaves the expected values (R120). -/
theorem step_armCommand {s : State} {rest : List Input} (hi : s.inputs = commandInput 0x00000021 :: rest) :
    ∃ u, step s = .next u ∧ u.rx.state = .header ∧ u.rx.fill.val = 0 ∧ u.expect = s.expect ∧ u.inputs = rest :=
  ⟨_, (step_command hi).trans (runCommand_of_ok (i := .rxArm) _ rfl), rfl, rfl, rfl, rfl⟩

theorem step_decodeCommand {s : State} {rest : List Input} (hi : s.inputs = commandInput 0x00000020 :: rest) :
    step s = exec .decode { s with inputs := rest } :=
  (step_command hi).trans (runCommand_of_ok _ rfl)

/-- A transaction of a read runs up to its DECODE, which finds the response and the count requested (R117, R151). -/
theorem run_readTransaction {s : State} {i : Instr} {op : Byte} {max : Nat} {response : List Byte} {rest : List Input}
    (hrow : (i, op.setWidth 32, op, max) ∈ readCommandTable) (h1 : 1 ≤ s.req.count.toNat)
    (hmax : s.req.count.toNat ≤ max) (hcut : ∃ f, decodeHeader response = .ok f) (h260 : response.length ≤ 260)
    (hi : s.inputs = transaction [] op response ++ rest) :
    ∃ u : State, u.Answered op s.req.count response ∧ u.inputs = rest ∧
      Host.Core.run core (3 + response.length) s = exec .decode u := by
  obtain ⟨h8, hlen⟩ := decodeHeader_isOk_iff.1 hcut
  simp only [transaction, List.nil_append, List.append_assoc, List.cons_append] at hi
  obtain ⟨s₁, hencode, hexpected, hi₁⟩ := step_readCommand hrow h1 hmax hi
  obtain ⟨s₂, harm, hheader, hempty, hkept, hi₂⟩ := step_armCommand hi₁
  obtain ⟨u, hrun, hstate, hframe, -, hi₃, -, -, hexpect, -⟩ :=
    wholeFrameIsReceived s₂ response _ hheader hempty h8 h260 hlen hi₂
  refine ⟨{ u with inputs := rest }, ⟨hexpect.trans (hkept.trans hexpected), hstate, hframe⟩, rfl, ?_⟩
  rw [show 3 + response.length = response.length + 1 + 1 + 1 by omega, run_succ _ hencode, run_succ _ harm,
    run_add _ 1 hrun]
  exact (run_one u).trans (step_decodeCommand hi₃)

/-! ## DECODE of the response -/

/-- DECODE of a read response runs its row (R71, R105). -/
theorem exec_decode_of_answered {u : State} {fc : Byte} {count tid pid : Word16} {uid : Byte} {data : List Byte}
    {i : Instr} (hrow : (i, fc) ∈ readRowTable tid pid uid data) (hfits : 9 + data.length ≤ 260)
    (ha : decodeArgsOk { fc := fc, count := count } = true)
    (hu : u.Answered fc count (readResponse fc tid pid uid data)) :
    exec .decode u = exec i { u with cmdIllegal := false } := by
  obtain ⟨hexpect, hstate, hframe⟩ := hu
  have hencode : encode i = .response (readResponse fc tid pid uid data) ∧ i.wellFormed = true := by
    simp only [readRowTable, List.mem_cons, Prod.mk.injEq, List.not_mem_nil, or_false] at hrow
    rcases hrow with ⟨rfl, rfl⟩ | ⟨rfl, rfl⟩ | ⟨rfl, rfl⟩ | ⟨rfl, rfl⟩
    all_goals exact ⟨rfl, (fitsRx_iff _ _).2 hfits⟩
  obtain ⟨he, hwf⟩ := hencode
  refine (decodeRunsTheResponseRow u (hexpect ▸ ha) hstate).1 i ?_
  rw [hframe]
  exact decodeResponse_of_encode he hwf

/-- A read's transaction runs the row of its response with the count requested expected (R117). -/
theorem run_readRoundTrip {s : State} {j i : Instr} {op : Byte} {max : Nat} {tid pid : Word16} {uid : Byte}
    {data : List Byte} {rest : List Input} (hcommand : (j, op.setWidth 32, op, max) ∈ readCommandTable)
    (hrow : (i, op) ∈ readRowTable tid pid uid data) (h1 : 1 ≤ s.req.count.toNat) (hmax : s.req.count.toNat ≤ max)
    (ha : decodeArgsOk { fc := op, count := s.req.count } = true) (hfits : 9 + data.length ≤ 260)
    (hi : s.inputs = transaction [] op (readResponse op tid pid uid data) ++ rest) :
    ∃ u : State, u.expect = { fc := op, count := s.req.count } ∧ u.inputs = rest ∧
      Host.Core.run core (12 + data.length) s = exec i u := by
  have hcut : ∃ f, decodeHeader (readResponse op tid pid uid data) = .ok f :=
    ⟨_, decodeHeader_frame _ _ _ _ _ (by rw [List.length_cons]; omega)⟩
  obtain ⟨u, hu, hinputs, hrun⟩ :=
    run_readTransaction hcommand h1 hmax hcut (by rwa [length_readResponse]) hi
  refine ⟨{ u with cmdIllegal := false }, hu.expect, hinputs, ?_⟩
  rw [← exec_decode_of_answered hrow hfits ha hu, ← hrun, length_readResponse, ← Nat.add_assoc]

/-- The commands and the rows of the two function codes of each space (R1). -/
theorem regRead_command_row {op : Byte} (h : op = 3 ∨ op = 4) (tid pid : Word16) (uid : Byte) (data : List Byte) :
    (∃ j, (j, op.setWidth 32, op, 125) ∈ readCommandTable) ∧ ∃ i, (i, op) ∈ readRowTable tid pid uid data := by
  rcases h with rfl | rfl
  · exact ⟨⟨.encRhr, by decide⟩, .rspReadHoldingRegisters tid pid uid data, by simp [readRowTable]⟩
  · exact ⟨⟨.encRir, by decide⟩, .rspReadInputRegisters tid pid uid data, by simp [readRowTable]⟩

theorem bitRead_command_row {op : Byte} (h : op = 1 ∨ op = 2) (tid pid : Word16) (uid : Byte) (data : List Byte) :
    (∃ j, (j, op.setWidth 32, op, 2000) ∈ readCommandTable) ∧ ∃ i, (i, op) ∈ readRowTable tid pid uid data := by
  rcases h with rfl | rfl
  · exact ⟨⟨.encRc, by decide⟩, .rspReadCoils tid pid uid data, by simp [readRowTable]⟩
  · exact ⟨⟨.encRdi, by decide⟩, .rspReadDiscreteInputs tid pid uid data, by simp [readRowTable]⟩

/-- Settles O59: the run ends with the response's row (O50), and unpacking what was packed gives the values back. -/
theorem readRoundTripYieldsItsValues : Obligations.ReadRoundTripYieldsItsValues := by
  refine ⟨fun s op tid pid uid values rest hop h1 hmax hcount hi => ?_,
    fun s op tid pid uid values rest hop h1 hmax hcount hi => ?_⟩
  · have hlen : (packRegs values).length = 2 * values.length := length_packRegs values
    have hcount1 : 1 ≤ s.req.count.toNat := hcount ▸ h1
    have hcountMax : s.req.count.toNat ≤ 125 := hcount ▸ hmax
    obtain ⟨⟨j, hcommand⟩, i, hrow⟩ := regRead_command_row hop tid pid uid (packRegs values)
    have ha := decodeArgsOk_of_isRegRead (e := ⟨op, s.req.count⟩) (isRegRead_iff.2 hop) hcount1 hcountMax
    obtain ⟨u, hexpect, hinputs, hrun⟩ := run_readRoundTrip hcommand hrow hcount1 hcountMax ha (by omega) hi
    obtain ⟨t, hexec, -, -, -, -, hregs⟩ := readResponseRows u tid pid uid _ i op hrow
    rw [hexpect] at hregs
    have hdecoded := (hregs ha rfl hop).2 (by rw [hlen, hcount])
    rw [hlen, hexec] at hrun
    refine ⟨t, hrun, hdecoded.outcome, by rw [hdecoded.count_eq, hcount], hdecoded.rest.inputs.trans hinputs,
      fun k hk => ?_⟩
    rw [hdecoded.values k (hk.trans_eq hcount.symm), ← unpackRegs_getD _ k (by omega), unpackRegs_packRegs]
  · have hlen : (packBits values).length = ceil8 values.length := length_packBits values
    have hceil : ceil8 values.length = (values.length + 7) / 8 := rfl
    have hcount1 : 1 ≤ s.req.count.toNat := hcount ▸ h1
    have hcountMax : s.req.count.toNat ≤ 2000 := hcount ▸ hmax
    obtain ⟨⟨j, hcommand⟩, i, hrow⟩ := bitRead_command_row hop tid pid uid (packBits values)
    have ha := decodeArgsOk_of_isBitRead (e := ⟨op, s.req.count⟩) (isBitRead_iff.2 hop) hcount1 hcountMax
    obtain ⟨u, hexpect, hinputs, hrun⟩ := run_readRoundTrip hcommand hrow hcount1 hcountMax ha (by omega) hi
    obtain ⟨t, hexec, -, -, -, hbits, -⟩ := readResponseRows u tid pid uid _ i op hrow
    rw [hexpect] at hbits
    have hdecoded := (hbits ha rfl hop).2 (by rw [hlen, hcount, hceil])
    rw [hlen, hexec] at hrun
    refine ⟨t, hrun, hdecoded.outcome, by rw [hdecoded.count_eq, hcount], hdecoded.rest.inputs.trans hinputs,
      fun k hk => (hdecoded.values k (hk.trans_eq hcount.symm)).trans ?_⟩
    have hbit := getD_unpackBits (packBits values) hk
    rw [unpackBits_packBits] at hbit
    exact hbit.symm

end Sys2Proof.Machine
end

section
/-! THE SEQUENCE STATEMENTS (R26, R27, R86, R87, R145): SETREGS and SETCOILS are writes of their arrays, then one of
REQ_COUNT. -/
namespace Sys2Proof.Machine

/-- The last write of a sequence statement: the sequence's length into REQ_COUNT, and nothing else (R16, R87). -/
theorem run_writeCount {s u : State} {m n : Nat} {rest : List Input}
    (hrun : Host.Core.run core m s = .next u) (hi : u.inputs = writeTo .reqCount (BitVec.ofNat 32 n) :: rest) :
    Host.Core.run core (m + 1) s =
      .next { u with inputs := rest, req := { u.req with count := BitVec.ofNat 16 n } } := by
  have hcount : (BitVec.ofNat 32 n).extractLsb' 0 16 = BitVec.ofNat 16 n := by
    refine BitVec.eq_of_toNat_eq ?_
    simp only [BitVec.extractLsb'_toNat, BitVec.toNat_ofNat, Nat.shiftRight_zero]
    omega
  rw [run_add m 1 hrun, run_one, ← hcount]
  exact step_writeReg (r := .reqCount) nofun hi

/-! ## SETREGS -/

/-- SETREGS expands to its writes of REGV, where there are such, and the write of REQ_COUNT (R87). -/
theorem setregs_expand_eq_ok_iff {values : List Int} {inputs : List Input} :
    (Stmt.setregs values).expand = .ok inputs ↔ ∃ writes, setRegsFrom 0 values = .ok writes ∧
      writes ++ [writeTo .reqCount (BitVec.ofNat 32 values.length)] = inputs :=
  exceptMap_eq_ok_iff

/-- REGV after SETREGS: the sequence's patterns, then what was there (R5, R26, R87). -/
theorem get_patch_u16 (q : Request) {values : List Int} (hmax : values.length ≤ 123) (i : Nat) :
    (q.regv.patch 0 (values.map u16)).get 0 i = if i < values.length then u16 (values.getD i 0) else q.reg i := by
  rw [Cells.get_patch, List.length_map]
  by_cases hi : i < values.length
  · rw [if_pos (by omega), if_pos hi]
    simp [List.getD, hi]
  · rw [if_neg (by omega), if_neg hi]
    rfl

/-! ## SETCOILS -/

/-- COILV after the writes of `m` words of SETCOILS: their bits, then what was there (R27, R87). -/
theorem get_patch_coils (q : Request) (values : List Bool) (m k : Nat) :
    (q.coilv.patch 0 ((List.range (32 * m)).map fun k => values.getD k false)).get false k =
      if k < 32 * m ∧ k < 1968 then values.getD k false else q.coil k := by
  rw [Cells.get_patch, List.length_map, List.length_range]
  by_cases hk : k < 32 * m ∧ k < 1968
  · rw [if_pos (by omega), if_pos hk]
    simp [List.getD, hk.1]
  · rw [if_neg (by omega), if_neg hk]
    rfl

/-! ## Both statements -/

/-- Settles O60: the array's writes patch it with the sequence, and REQ_COUNT holds its length, which is below 2^16. -/
theorem setStatementsWriteTheirSequences : Obligations.SetStatementsWriteTheirSequences := by
  refine ⟨fun values hv => ?_, fun s values inputs rest hmax hexpand hi => ?_, fun s values rest hmax => ?_⟩
  · obtain ⟨writes, hwrites⟩ := (setRegsFrom_isOk values 0).2 hv
    exact ⟨_, setregs_expand_eq_ok_iff.2 ⟨writes, hwrites, rfl⟩⟩
  · obtain ⟨writes, hwrites, rfl⟩ := setregs_expand_eq_ok_iff.1 hexpand
    have hrange := (setRegsFrom_isOk values 0).1 ⟨writes, hwrites⟩
    rw [List.append_assoc] at hi
    obtain ⟨-, hrun⟩ := run_setRegsFrom values 0 writes _ s (by omega) hwrites hi
    rw [List.length_append, List.length_singleton]
    refine ⟨_, run_writeCount hrun rfl, fun i hlt => ?_, fun i hge => ?_, ?_, rfl⟩
    · have hmem : values.getD i 0 ∈ values := List.getD_eq_getElem values 0 hlt ▸ List.getElem_mem hlt
      obtain ⟨hlo, hhi⟩ := hrange _ hmem
      exact (congrArg sint16 ((get_patch_u16 s.req hmax i).trans (if_pos hlt))).trans (sint16_u16 hlo hhi)
    · exact (get_patch_u16 s.req hmax i).trans (if_neg (by omega))
    · rw [BitVec.toNat_ofNat]
      omega
  · refine ⟨_, rfl, fun hi => ?_⟩
    rw [List.append_assoc] at hi
    have hrun := run_coilWrites values ((values.length + 31) / 32) _ s (by omega) hi
    rw [List.length_append, length_setCoils, List.length_singleton]
    refine ⟨_, run_writeCount hrun rfl, fun k hk hlt => ?_, fun k hge => ?_, ?_, rfl⟩
    · exact (get_patch_coils s.req values _ k).trans (if_pos ⟨hlt, hk⟩)
    · exact (get_patch_coils s.req values _ k).trans (if_neg (by omega))
    · rw [BitVec.toNat_ofNat]
      omega

end Sys2Proof.Machine
end
